-- ==== Sys2Proof/Word.lean ====
section
/-! DEFINITION. The words of the DDC: 32-bit port registers (00_scope.md R7 REG_WIDTH) and bytes. -/

namespace Sys2Proof

/-- A 32-bit port register value (20_memory.md R45). -/
abbrev Word := BitVec 32

/-- A byte of the input stream, of PBUF or of the output stream. -/
abbrev Byte := BitVec 8

end Sys2Proof
end

