-- ==== Sys2Proof/Syntax.lean ====
section
/-! DEFINITION. The instructions of the DDC: one constructor per row of spec/opcode_table.json, and the bus access that
carries each (30_encoding.md R55). -/

namespace Sys2Proof

/-- The eight port registers (10_state.md section 3), in the order of their word index. -/
inductive Port where
  | cmd | dim | status | inData | outData | runCount | outLen | rsv
  deriving DecidableEq, Repr

/-- Format BUS, one HOST access as it is presented: the selector SEL and the DATA word (30_encoding.md R55, R67).
A read presents no data; the field is then ignored (log 14). -/
structure BusAccess where
  sel  : BitVec 4
  data : Word
  deriving DecidableEq, Repr

/-- One row of spec/opcode_table.json each. The last three are the legal command words of format CMD (30_encoding.md
R56, R61): the bus access that carries one is a CMD write with that word (log 12). -/
inductive Instr where
  | rdCmd
  | rdDim
  | rdStatus
  | rdInData
  | rdOutData
  | rdRunCount
  | rdOutLen
  | rdRsv
  | wrCmd (d : Word)
  | wrDim (d : Word)
  | wrStatus (d : Word)
  | wrInData (d : Word)
  | wrOutData (d : Word)
  | wrRunCount (d : Word)
  | wrOutLen (d : Word)
  | wrRsv (d : Word)
  | enc
  | encRle
  | rle
  deriving DecidableEq, Repr

end Sys2Proof
end

