-- ==== Sys2Proof/WellFormed.lean ====
section
/-! DEFINITION. Which terms of Instr are the reading of some bus access. -/

namespace Sys2Proof

/-- The three legal command words (30_encoding.md R56, R61) have constructors of their own. -/
def isCommandWord (d : Word) : Bool := d == 1#32 || d == 2#32 || d == 3#32

/-- A term is well formed when the decoder can give it. The one check: a CMD write whose word is a legal command is
written with that command's constructor, so that each bus access has one reading (log 12). -/
def Instr.wf : Instr → Bool
  | .rdCmd => true
  | .rdDim => true
  | .rdStatus => true
  | .rdInData => true
  | .rdOutData => true
  | .rdRunCount => true
  | .rdOutLen => true
  | .rdRsv => true
  | .wrCmd d => !isCommandWord d
  | .wrDim _ => true
  | .wrStatus _ => true
  | .wrInData _ => true
  | .wrOutData _ => true
  | .wrRunCount _ => true
  | .wrOutLen _ => true
  | .wrRsv _ => true
  | .enc => true
  | .encRle => true
  | .rle => true

end Sys2Proof
end

