-- ==== Sys2Proof/Decode.lean ====
section
/-! DEFINITION. Decoding of bus accesses (30_encoding.md R55, R56, R61), the encoder, the host notation of R68, and the
reading of the opcode table's own bit numbering. -/

namespace Sys2Proof

/-! ## Selector fields -/

/-- IDX, the word index of a port register (10_state.md section 3). -/
def Port.index : Port → BitVec 3
  | .cmd => 0#3
  | .dim => 1#3
  | .status => 2#3
  | .inData => 3#3
  | .outData => 4#3
  | .runCount => 5#3
  | .outLen => 6#3
  | .rsv => 7#3

/-- The register a word index selects; every index selects one. -/
def portOf (i : BitVec 3) : Port :=
  match i.toFin with
  | 0 => .cmd
  | 1 => .dim
  | 2 => .status
  | 3 => .inData
  | 4 => .outData
  | 5 => .runCount
  | 6 => .outLen
  | 7 => .rsv

/-- WE = SEL[3] (30_encoding.md R55). -/
def BusAccess.we (a : BusAccess) : Bool := a.sel.getLsbD 3

/-- IDX = SEL[2:0] (30_encoding.md R55). -/
def BusAccess.idx (a : BusAccess) : BitVec 3 := a.sel.extractLsb' 0 3

/-! ## Decoding -/

/-- The reading of a CMD write's word: a legal command word is that command (30_encoding.md R56, R61), and every other
word is a plain CMD write, which records an error (43_commands.md R104, R105). -/
def commandOf (d : Word) : Instr :=
  if d = 1#32 then .enc
  else if d = 2#32 then .encRle
  else if d = 3#32 then .rle
  else .wrCmd d

/-- A read of a register (opcode table rows SEL = 0x0 .. 0x7). -/
def readInstr : Port → Instr
  | .cmd => .rdCmd
  | .dim => .rdDim
  | .status => .rdStatus
  | .inData => .rdInData
  | .outData => .rdOutData
  | .runCount => .rdRunCount
  | .outLen => .rdOutLen
  | .rsv => .rdRsv

/-- A write of a register (opcode table rows SEL = 0x8 .. 0xF). -/
def writeInstr : Port → Word → Instr
  | .cmd, d => commandOf d
  | .dim, d => .wrDim d
  | .status, d => .wrStatus d
  | .inData, d => .wrInData d
  | .outData, d => .wrOutData d
  | .runCount, d => .wrRunCount d
  | .outLen, d => .wrOutLen d
  | .rsv, d => .wrRsv d

/-- The instruction a bus access stands for. "Every one of the 16 selector values is a legal access ... no selector
value is illegal" (30_encoding.md R55), so nothing is rejected here. -/
def decode (a : BusAccess) : Instr :=
  if a.we then writeInstr (portOf a.idx) a.data else readInstr (portOf a.idx)

/-! ## The encoder and the host notation (30_encoding.md R68) -/

/-- `wr REG, value`: SEL = 0x8 | index of REG, DATA = value. -/
def wr (p : Port) (v : Word) : BusAccess := ⟨0x8#4 ||| p.index.setWidth 4, v⟩

/-- `rd REG`: SEL = index of REG, no data. -/
def rd (p : Port) : BusAccess := ⟨p.index.setWidth 4, 0#32⟩

/-- The bus access of an instruction. -/
def encode : Instr → BusAccess
  | .rdCmd => rd .cmd
  | .rdDim => rd .dim
  | .rdStatus => rd .status
  | .rdInData => rd .inData
  | .rdOutData => rd .outData
  | .rdRunCount => rd .runCount
  | .rdOutLen => rd .outLen
  | .rdRsv => rd .rsv
  | .wrCmd d => wr .cmd d
  | .wrDim d => wr .dim d
  | .wrStatus d => wr .status d
  | .wrInData d => wr .inData d
  | .wrOutData d => wr .outData d
  | .wrRunCount d => wr .runCount d
  | .wrOutLen d => wr .outLen d
  | .wrRsv d => wr .rsv d
  | .enc => wr .cmd 1#32
  | .encRle => wr .cmd 2#32
  | .rle => wr .cmd 3#32

/-- The access is a read (30_encoding.md R55: WE = 0). -/
def Instr.isRead : Instr → Bool
  | .rdCmd => true
  | .rdDim => true
  | .rdStatus => true
  | .rdInData => true
  | .rdOutData => true
  | .rdRunCount => true
  | .rdOutLen => true
  | .rdRsv => true
  | .wrCmd _ => false
  | .wrDim _ => false
  | .wrStatus _ => false
  | .wrInData _ => false
  | .wrOutData _ => false
  | .wrRunCount _ => false
  | .wrOutLen _ => false
  | .wrRsv _ => false
  | .enc => false
  | .encRle => false
  | .rle => false

/-- Format DIM (30_encoding.md R57): `(H << 16) | W`. -/
def dimWord (w h : BitVec 16) : Word := (h.setWidth 32 <<< 16) ||| w.setWidth 32

/-- The pseudo-operations of 30_encoding.md R68 that are one access. `wait_idle` and `drain n` are loops of the HOST:
however often they read, the accesses they make are a list of `rd`. -/
inductive Pseudo where
  | dim (w h : BitVec 16)
  | cmdEnc
  | cmdEncRle
  | cmdRle
  | inByte (b : Byte)
  | pop
  | clrDone
  | clrErr
  deriving DecidableEq, Repr

/-- The expansion of a pseudo-operation (30_encoding.md R68). -/
def Pseudo.expand : Pseudo → BusAccess
  | .dim w h => wr .dim (dimWord w h)
  | .cmdEnc => wr .cmd 0x1#32
  | .cmdEncRle => wr .cmd 0x2#32
  | .cmdRle => wr .cmd 0x3#32
  | .inByte b => wr .inData (b.setWidth 32)
  | .pop => rd .outData
  | .clrDone => wr .status 0x8#32
  | .clrErr => wr .status 0x100#32

/-! ## The opcode table's bit numbering (log 13) -/

/-- Why a number is no table word. -/
inductive DecodeError where
  /-- Bits 7:4 of a BUS word are not 0: a selector has four bits (30_encoding.md R55). -/
  | selectorTooWide
  /-- The number has bits above the longest form (a selector byte and a data word, or a CMD word). -/
  | tooLong
  deriving DecidableEq, Repr

/-- The bus access a table word stands for. A row of 32 bits is a CMD word, the data of a CMD write (30_encoding.md
R56); every other row is a BUS word: SEL in bits 3:0, bits 7:4 zero, DATA in bits 39:8 (0 where the row gives it no
bits). -/
def tableAccess (nbits w : Nat) : Except DecodeError BusAccess :=
  if nbits = 32 then
    if w < 2 ^ 32 then .ok (wr .cmd (BitVec.ofNat 32 w)) else .error .tooLong
  else if 2 ^ 40 ≤ w then .error .tooLong
  else if w / 16 % 16 ≠ 0 then .error .selectorTooWide
  else .ok ⟨BitVec.ofNat 4 w, BitVec.ofNat 32 (w / 256)⟩

/-- The instruction the decoder reads from a word numbered as spec/opcode_table.json numbers it. -/
def decodeTableWord (nbits w : Nat) : Option Instr :=
  match tableAccess nbits w with
  | .ok a => some (decode a)
  | .error _ => none

end Sys2Proof
end

