-- ==== Sys2Proof/Config.lean ====
section
/-! DEFINITION. What the spec leaves to an implementation (OUT_DEPTH) and the free values. Neither constant has a
body, so nothing proved of the model can rest on its value. -/

namespace Sys2Proof

/-- OUT_DEPTH less one. 00_scope.md R7 leaves OUT_DEPTH open ("any integer >= 1"), so what is free is this number
(log 6). -/
opaque Config.outDepthLessOne : Nat

/-- OUT_DEPTH, the capacity of OUTQ in bytes, at least 1 (00_scope.md R7, 92_eei_decisions.md D9). -/
def Config.outDepth : Nat := Config.outDepthLessOne + 1

/-- What a PBUF byte that no step has written since the last RESET reads as: a free value for each RESET (the first
argument counts them) and each address (10_state.md R34, 93_implementation_defined.md I2; log 7). -/
opaque Config.pbufFill : Nat → Nat → Byte

end Sys2Proof
end

