-- ==== Sys2Proof/Machine/State.lean ====
section
/-! DEFINITION. The state of the DDC (10_state.md), the HOST's side of it, reset, and the reasons a step can stop. -/

namespace Sys2Proof.Machine

/-- PHASE (10_state.md R27): two bits, four legal values, all named (log 18). -/
inductive Phase where
  /-- 0: no command in progress. -/
  | idle
  /-- 1: the command is consuming input bytes from IN_DATA. -/
  | load
  /-- 2: the ENGINE is counting runs. -/
  | count
  /-- 3: the ENGINE is placing output bytes in OUTQ. -/
  | emit
  deriving DecidableEq, Repr

/-- OPC (10_state.md R28): two bits, four values, all named (log 18). -/
inductive Opc where
  /-- 0, the reset value: no command has been accepted. -/
  | none
  /-- 1. -/
  | enc
  /-- 2. -/
  | encRle
  /-- 3. -/
  | rle
  deriving DecidableEq, Repr

/-- The registers of the run-length state machine (10_state.md R32) that 42_run_length.md R87 and R88 write. Their list of
writers in R32 leaves out 40_row_packer.md R75, which clears them (log 22). -/
structure RunState where
  rsValid : Bool
  rsVal   : Bool
  rsLen   : BitVec 8
  rcnt    : BitVec 32
  deriving DecidableEq, Repr

/-- The bytes written since the last RESET, by address: addresses strictly rising. What an unlisted address holds is no
value of this list, so no entry can equal it (log 7). -/
abbrev Memory := List Host.Cell

/-- Every state element of 10_state.md, with the width stated there (00_scope.md R16). -/
structure Ddc where
  /-- DIM: WIDTH = bits 15:0, HEIGHT = bits 31:16 (R21). -/
  dim : Word
  /-- STATUS.DONE (R22, R37). -/
  done : Bool
  /-- STATUS.ERR (R22, R37). -/
  err : BitVec 4
  /-- RUN_COUNT (R25). -/
  runCount : Word
  /-- OUT_LEN (R26). -/
  outLen : Word
  /-- PHASE (R27). -/
  phase : Phase
  /-- OPC (R28). -/
  opc : Opc
  /-- CUR_W (R29). -/
  curW : BitVec 8
  /-- CUR_H (R29). -/
  curH : BitVec 8
  /-- ROW (R30). -/
  row : BitVec 8
  /-- COL (R30). -/
  col : BitVec 8
  /-- ACC (R30). -/
  acc : BitVec 8
  /-- HDR_CNT (R31). -/
  hdrCnt : BitVec 2
  /-- PIDX (R31). -/
  pidx : BitVec 13
  /-- RS_VALID, RS_VAL, RS_LEN, RCNT (R32). -/
  rs : RunState
  /-- BIDX (R32). -/
  bidx : BitVec 17
  /-- EIDX (R33). -/
  eidx : BitVec 17
  /-- PBUF (R34). -/
  pbuf : Memory
  /-- The model's own: how many RESETs there have been, which selects the free content of PBUF (log 7). -/
  pbufEpoch : Nat
  /-- OUTQ, head first (R35). -/
  outq : List Byte
  deriving DecidableEq, Repr

/-- Who moves next: an access of the HOST, a step of the ENGINE (10_state.md R17), or the platform's RESET event
(70_reset_and_hazards.md R138). -/
inductive Turn where
  | host | engine | reset
  deriving DecidableEq, Repr

/-- A value a HOST read returned, with the register it read. -/
structure ReadBack where
  port  : Port
  value : Word
  deriving DecidableEq, Repr

/-- The DDC and, as the model's own fields, the HOST's side of the port: the accesses it has yet to perform (log 1),
the values its reads returned (log 5), and who moves next (log 2). -/
structure State where
  /-- The DDC (10_state.md). -/
  ddc : Ddc
  /-- The HOST's accesses not yet performed, the next one first. -/
  bus : List BusAccess
  /-- The values returned by the HOST's reads, oldest first (70_reset_and_hazards.md R149). -/
  reads : List ReadBack
  /-- The turns to be taken, the next one first. -/
  turns : List Turn
  deriving DecidableEq, Repr

/-- Why a step stops with a fault. Both are raised only in states no run reaches. -/
inductive Fault where
  /-- A PBUF write at an address outside 0..8159, which does not exist (20_memory.md R41). Raised by WR_IN_DATA.
  Safe (log 8). -/
  | pbufOutOfRange
  /-- OSEQ[EIDX] with EIDX not below len(OSEQ), which 41_output_stream.md R80 does not define. Raised by the ENGINE's
  EMIT_BYTE. Safe (log 9). -/
  | oseqOutOfRange
  deriving DecidableEq, Repr

/-- Why a step is refused. -/
inductive Refusal where
  /-- The instruction has no meaning in the model. Raised by exec's arms only, and by none of them now. Safe. -/
  | notModelled (mnemonic : String)
  deriving DecidableEq, Repr

/-- The run-length machine with no run in progress and nothing counted: what RESET and LOAD_COMPLETE leave. -/
def RunState.empty : RunState := ⟨false, false, 0#8, 0#32⟩

/-- Every element at its reset value (10_state.md R39); the argument is the model's own counter of RESETs. -/
def Ddc.reset (epoch : Nat) : Ddc where
  dim := 0#32
  done := false
  err := 0#4
  runCount := 0#32
  outLen := 0#32
  phase := .idle
  opc := .none
  curW := 0#8
  curH := 0#8
  row := 0#8
  col := 0#8
  acc := 0#8
  hdrCnt := 0#2
  pidx := 0#13
  rs := RunState.empty
  bidx := 0#17
  eidx := 0#17
  pbuf := []
  pbufEpoch := epoch
  outq := []

/-- The machine right after reset (10_state.md R39, 70_reset_and_hazards.md R138), with nothing on the HOST's side
(log 16). -/
def State.reset : State := ⟨Ddc.reset 0, [], [], []⟩

end Sys2Proof.Machine
end

