-- ==== Sys2Proof/Machine/Flags.lean ====
section
/-! DEFINITION. The STATUS bits: the only flags of the DDC (10_state.md R22, R37; 30_encoding.md R60). -/

namespace Sys2Proof.Machine

/-- BUSY: computed from PHASE. -/
def Ddc.busy (d : Ddc) : Bool := d.phase != .idle

/-- IN_REQ: computed from PHASE. -/
def Ddc.inReq (d : Ddc) : Bool := d.phase == .load

/-- OUT_AVAIL: computed from OUTQ. -/
def Ddc.outAvail (d : Ddc) : Bool := !d.outq.isEmpty

/-- `bit(c)` as a word (00_scope.md R9). -/
def bitWord (c : Bool) : Word := (BitVec.ofBool c).setWidth 32

/-- The word a STATUS read returns (44_host_bus.md R110). -/
def statusWord (d : Ddc) : Word :=
  bitWord d.busy ||| (bitWord d.inReq <<< 1) ||| (bitWord d.outAvail <<< 2) ||| (bitWord d.done <<< 3)
    ||| (d.err.setWidth 32 <<< 4)

/-- The error codes of STATUS.ERR that are raised (60_exceptions.md R124); 0 is NONE, 5 to 15 are never produced. -/
inductive ErrCode where
  | dimTooLarge | illegalCmd | cmdWhileBusy | inUnexpected
  deriving DecidableEq, Repr

/-- The code STATUS.ERR holds (60_exceptions.md R124). -/
def ErrCode.code : ErrCode → BitVec 4
  | .dimTooLarge => 1#4
  | .illegalCmd => 2#4
  | .cmdWhileBusy => 3#4
  | .inUnexpected => 4#4

end Sys2Proof.Machine
end

