-- ==== Sys2Proof/Machine/Operands.lean ====
section
/-! DEFINITION. How each operand is assembled from the words of the port (30_encoding.md R56 to R66). -/

namespace Sys2Proof.Machine

/-- OP of a CMD word (30_encoding.md R56). -/
def opField (d : Word) : BitVec 4 := d.extractLsb' 0 4

/-- RSV of a CMD word, which must be zero (30_encoding.md R56). -/
def rsvField (d : Word) : BitVec 28 := d.extractLsb' 4 28

/-- WIDTH of a DIM word (30_encoding.md R57). -/
def widthField (d : Word) : BitVec 16 := d.extractLsb' 0 16

/-- HEIGHT of a DIM word (30_encoding.md R57). -/
def heightField (d : Word) : BitVec 16 := d.extractLsb' 16 16

/-- BYTE of an IN_DATA word; bits 31:8 are ignored (30_encoding.md R58). -/
def inByte (d : Word) : Byte := d.extractLsb' 0 8

/-- The pixel bit of an IN_DATA word: any nonzero byte is 1, zero is 0 (40_row_packer.md R69). -/
def pixelBit (d : Word) : Bool := inByte d != 0#8

/-- DONE_CLR of a STATUS write (30_encoding.md R60). -/
def doneClr (d : Word) : Bool := d.getLsbD 3

/-- ERR_CLR of a STATUS write (30_encoding.md R60). -/
def errClr (d : Word) : Bool := d.getLsbD 8

/-- The word an OUT_DATA read returns: VALID = bit 8, DATA = bits 7:0, and 0 when there is no byte (30_encoding.md
R59). -/
def outWord : Option Byte → Word
  | some b => 0x100#32 ||| b.setWidth 32
  | none => 0#32

/-- A bit in column j of its group of eight: column 0 is bit 7 (20_memory.md R43, 40_row_packer.md R74). -/
def placeBit (p : Bool) (j : Nat) : Byte := (BitVec.ofBool p).setWidth 8 <<< (7 - j % 8)

/-- The run-byte of a run of value v and length n (30_encoding.md R64): `(V << 7) | (N - 1)`. -/
def runByte (v : Bool) (n : BitVec 8) : Byte := ((BitVec.ofBool v).setWidth 8 <<< 7) ||| (n - 1#8)

/-- The run count as four bytes, most significant first (00_scope.md R15, 42_run_length.md R89). -/
def be32 (c : Word) : List Byte :=
  [c.extractLsb' 24 8, c.extractLsb' 16 8, c.extractLsb' 8 8, c.extractLsb' 0 8]

end Sys2Proof.Machine
end

