-- ==== Sys2Proof/Machine/Formats.lean ====
section
/-! DEFINITION. The output formats as functions of what they encode: Frame, run-byte list, RunStream (30_encoding.md
section 3, 40_row_packer.md section 1, 42_run_length.md section 1), and their readers, which 00_scope.md R6 keeps as
properties of the encoder. -/

namespace Sys2Proof.Machine

/-- `ceil_div(a, b)` (00_scope.md R9). -/
def ceilDiv (a b : Nat) : Nat := (a + b - 1) / b

/-- BPR, bytes per row (00_scope.md R7, 40_row_packer.md R70). -/
def bpr (w : Nat) : Nat := ceilDiv w 8

/-- The eight bits of a byte, bit 7 first. -/
def byteBits (b : Byte) : List Bool :=
  [b.getLsbD 7, b.getLsbD 6, b.getLsbD 5, b.getLsbD 4, b.getLsbD 3, b.getLsbD 2, b.getLsbD 1, b.getLsbD 0]

/-- `bits(bytes)`: each byte most significant bit first, bytes in list order (00_scope.md R11). -/
def bits (bytes : List Byte) : List Bool := bytes.flatMap byteBits

/-! ## Frame (40_row_packer.md R70) -/

/-- The pixel bit of row r at column c, or 0 in the row padding. -/
def paddedPixel (w : Nat) (p : Nat → Nat → Bool) (r c : Nat) : Bool := decide (c < w) && p r c

/-- `byte(r, k)`: column 8k + j in bit 7 - j. -/
def groupByte (w : Nat) (p : Nat → Nat → Bool) (r k : Nat) : Byte :=
  (List.range 8).foldl (fun b j => b ||| placeBit (paddedPixel w p r (8 * k + j)) j) 0#8

/-- `row(r)`. -/
def rowBytes (w : Nat) (p : Nat → Nat → Bool) (r : Nat) : List Byte :=
  (List.range (bpr w)).map (groupByte w p r)

/-- The payload: rows top to bottom. -/
def framePayload (w h : Nat) (p : Nat → Nat → Bool) : List Byte :=
  (List.range h).flatMap (rowBytes w p)

/-- `frame(W, H, p) = [W, H] ++ row(0) ++ ... ++ row(H-1)`. -/
def frame (w h : Nat) (p : Nat → Nat → Bool) : List Byte :=
  BitVec.ofNat 8 w :: BitVec.ofNat 8 h :: framePayload w h p

/-- The reader of 40_row_packer.md R77: pixel (r, c) of a Frame of width w. -/
def framePixel (f : List Byte) (w r c : Nat) : Option Bool :=
  f[2 + r * bpr w + c / 8]?.map (fun b => b.getLsbD (7 - c % 8))

/-! ## Runs (42_run_length.md R86) -/

/-- The longest run a run-byte holds (00_scope.md R7 RUN_LEN_MAX). -/
abbrev runLenMax : Nat := 128

/-- The maximal blocks of equal bits, left to right, each as its value and its length. -/
def blocks : List Bool → List (Bool × Nat)
  | [] => []
  | b :: bs =>
    match blocks bs with
    | [] => [(b, 1)]
    | (v, n) :: rest => if b = v then (v, n + 1) :: rest else (b, 1) :: (v, n) :: rest

/-- A block of length m as `m div 128` runs of 128 and, when it is not 0, one run of `m mod 128`. -/
def cutBlock (c : Bool × Nat) : List (Bool × Nat) :=
  List.replicate (c.2 / runLenMax) (c.1, runLenMax)
    ++ (if c.2 % runLenMax = 0 then [] else [(c.1, c.2 % runLenMax)])

/-- `runs(s)`. -/
def runs (s : List Bool) : List (Bool × Nat) := (blocks s).flatMap cutBlock

/-- `runbytes(s)`. -/
def runbytes (s : List Bool) : List Byte := (runs s).map (fun r => runByte r.1 (BitVec.ofNat 8 r.2))

/-- The bits a run-byte stands for: `rb[6:0] + 1` copies of `rb[7]` (42_run_length.md R94). -/
def expandRunByte (rb : Byte) : List Bool := List.replicate ((rb.extractLsb' 0 7).toNat + 1) (rb.getLsbD 7)

/-- The reader of 42_run_length.md R94: the bits a list of run-bytes stands for. -/
def expandRuns (rbs : List Byte) : List Bool := rbs.flatMap expandRunByte

/-- The RunStream of the Frame with width byte w, height byte h and payload P (30_encoding.md R65, 42_run_length.md
R89). -/
def runStream (w h : Byte) (payload : List Byte) : List Byte :=
  [w, h] ++ be32 (BitVec.ofNat 32 (runs (bits payload)).length) ++ runbytes (bits payload)

/-- `compress(F)` for a Frame given as its bytes (42_run_length.md R89). A list without two header bytes is no Frame. -/
def rleStream : List Byte → Option (List Byte)
  | w :: h :: payload => some (runStream w h payload)
  | _ => none

end Sys2Proof.Machine
end

