-- ==== Sys2Proof/Machine/Ops.lean ====
section
/-! DEFINITION. The shared operations: PBUF, errors and their acknowledgement, the port's reads, RESET, and the HOST's
access list. -/

namespace Sys2Proof.Machine

/-! ## PBUF (10_state.md R34, 20_memory.md R41) -/

/-- PBUF_BYTES (00_scope.md R7). -/
abbrev pbufBytes : Nat := 8160

/-- The byte written at an address, or none where nothing has been written. -/
def Memory.get? : Memory → Nat → Option Byte
  | [], _ => none
  | (a, b) :: m, x => if x = a then some b else Memory.get? m x

/-- Writing one byte, in the list's order. -/
def Memory.set : Memory → Nat → Byte → Memory
  | [], x, v => [(x, v)]
  | (a, b) :: m, x, v =>
    if x < a then (x, v) :: (a, b) :: m
    else if x = a then (a, v) :: m
    else (a, b) :: Memory.set m x v

/-- Every address of the list is above the bound, and they rise strictly. -/
def Memory.risesAbove : Nat → Memory → Bool
  | _, [] => true
  | n, (a, _) :: m => decide (n ≤ a) && Memory.risesAbove (a + 1) m

/-- The canonical form: addresses strictly rising, each one an address of PBUF. An unlisted address has no written
value, so no entry equals it (log 7). -/
def Memory.wf (m : Memory) : Bool := Memory.risesAbove 0 m && m.all (fun c => decide (c.1 < pbufBytes))

/-- `MemRead(PBUF, i, 1)` (00_scope.md R10). Where nothing has been written since RESET the byte is a free value
(log 7). Every index any step reads is below L <= 8160 (20_memory.md R41). -/
def pbufRead (d : Ddc) (i : Nat) : Byte := (d.pbuf.get? i).getD (Config.pbufFill d.pbufEpoch i)

/-- `MemWrite(PBUF, i, 1, v)` (00_scope.md R10). An address outside 0..8159 does not exist (log 8). -/
def pbufWrite (d : Ddc) (i : Nat) (v : Byte) : Except Fault Ddc :=
  if i < pbufBytes then .ok { d with pbuf := d.pbuf.set i v } else .error .pbufOutOfRange

/-- L, the payload length of the frame in progress: `CUR_H * ceil_div(CUR_W, 8)` (10_state.md R29). -/
def Ddc.len (d : Ddc) : Nat := d.curH.toNat * bpr d.curW.toNat

/-- `PBUF[0 .. L)`. -/
def Ddc.payload (d : Ddc) : List Byte := (List.range d.len).map (pbufRead d)

/-! ## Errors (60_exceptions.md R125, R130) -/

/-- `raise Err(code)`: the first error since the last clear is kept; nothing else changes (R125, R129). -/
def raiseErr (c : ErrCode) (d : Ddc) : Ddc := if d.err = 0#4 then { d with err := c.code } else d

/-- The acknowledgement of errors and of DONE: the effect of a STATUS write (R130; 44_host_bus.md R118). -/
def clearStatus (w : Word) (d : Ddc) : Ddc :=
  { d with
    done := if doneClr w then false else d.done
    err := if errClr w then 0#4 else d.err }

/-! ## The HOST's side -/

/-- A read of a register returns a value to the HOST. -/
def State.returns (s : State) (p : Port) (v : Word) : State := { s with reads := s.reads ++ [⟨p, v⟩] }

/-- The machine goes on with its DDC as the step left it, or stops with the step's fault. -/
def State.after (s : State) : Except Fault Ddc → Host.Outcome State Fault Refusal
  | .ok d => .next { s with ddc := d }
  | .error f => .fault f

/-- The HOST's next access leaves its list (log 1). -/
def State.fetch (s : State) : Option (BusAccess × State) :=
  match s.bus with
  | [] => none
  | a :: rest => some (a, { s with bus := rest })

/-! ## RESET (70_reset_and_hazards.md R138) -/

/-- Every state element takes its reset value; PBUF's content is free again. The HOST's side is outside the DDC and
stays (log 4). -/
def resetEvent (s : State) : State := { s with ddc := Ddc.reset (s.ddc.pbufEpoch + 1) }

end Sys2Proof.Machine
end

