-- ==== Sys2Proof/Machine/RowPacker.lean ====
section
/-! DEFINITION. The row-packer's steps (40_row_packer.md R74, R75). -/

namespace Sys2Proof.Machine

/-- LOAD_COMPLETE (R75): an ENC goes to EMIT, an ENC_RLE or RLE to COUNT. DEDUCED: the run-length registers are cleared
here, as R75's pseudocode says, although 10_state.md R32's list of their writers does not name R74, R75 and R90; no
ruling of 90_conflicts.md settles the two (log 22). -/
def loadComplete (d : Ddc) : Ddc :=
  if d.opc = .enc then
    { d with outLen := BitVec.ofNat 32 (2 + d.len), eidx := 0#17, phase := .emit }
  else
    { d with rs := RunState.empty, bidx := 0#17, phase := .count }

/-- The pixel goes to its column's bit of ACC, and COL moves on; its width is 8 bits (log 11). -/
def placePixel (p : Bool) (d : Ddc) : Ddc :=
  { d with acc := d.acc ||| placeBit p d.col.toNat, col := d.col + 1#8 }

/-- The PBUF address of the group that holds the pixel before COL: `ROW * BPR + (COL - 1) div 8`. -/
def groupAddr (d : Ddc) : Nat := d.row.toNat * bpr d.curW.toNat + (d.col - 1#8).toNat / 8

/-- The group is complete when eight columns are in it or the row ends. -/
def groupComplete (d : Ddc) : Bool := d.col.toNat % 8 == 0 || d.col == d.curW

/-- A complete group is stored, and ACC starts again. -/
def storeGroup (d : Ddc) : Except Fault Ddc :=
  if groupComplete d then (pbufWrite d (groupAddr d) d.acc).map (fun d' => { d' with acc := 0#8 })
  else .ok d

/-- At the end of a row COL starts again and ROW moves on; after the last row the load is complete. -/
def endRow (d : Ddc) : Ddc :=
  if d.col = d.curW then
    let d' := { d with col := 0#8, row := d.row + 1#8 }
    if d'.row = d'.curH then loadComplete d' else d'
  else d

/-- PACK_PIXEL (R74). -/
def packPixel (w : Word) (d : Ddc) : Except Fault Ddc := (storeGroup (placePixel (pixelBit w) d)).map endRow

end Sys2Proof.Machine
end

