-- ==== Sys2Proof/Machine/Commands.lean ====
section
/-! DEFINITION. Commands: the decode and acceptance of a CMD write, and the three commands (43_commands.md). -/

namespace Sys2Proof.Machine

/-- MAX_DIM (00_scope.md R7). -/
abbrev maxDim : Nat := 255

/-- The operation an OP field names, if it names one (30_encoding.md R61). -/
def opOf (op : BitVec 4) : Option Opc :=
  if op = 1#4 then some .enc
  else if op = 2#4 then some .encRle
  else if op = 3#4 then some .rle
  else none

/-- The operation of a CMD word, if the word is legal (30_encoding.md R56). -/
def legalOp (w : Word) : Option Opc := if rsvField w = 0#28 then opOf (opField w) else none

/-- The dimension check of R106. -/
def dimTooLarge (dim : Word) : Bool :=
  decide (maxDim < (widthField dim).toNat) || decide (maxDim < (heightField dim).toNat)

/-- ACCEPT_PIXELS (R99). The run-length registers are written here by LOAD_COMPLETE alone (log 22). -/
def acceptPixels (op : Opc) (d : Ddc) : Ddc :=
  let d' :=
    { d with
      opc := op
      curW := (widthField d.dim).setWidth 8
      curH := (heightField d.dim).setWidth 8
      row := 0#8
      col := 0#8
      acc := 0#8
      done := false }
  if d'.len = 0 then loadComplete d' else { d' with phase := .load }

/-- ACCEPT_FRAME (R100), which writes none of the run-length registers (log 22). -/
def acceptFrame (d : Ddc) : Ddc :=
  { d with opc := .rle, hdrCnt := 0#2, pidx := 0#13, done := false, phase := .load }

/-- The acceptance of a legal command, or the refusal of its dimensions (R98, R106). DIM is not read for RLE. -/
def accept (op : Opc) (d : Ddc) : Ddc :=
  if op = .rle then acceptFrame d
  else if dimTooLarge d.dim then raiseErr .dimTooLarge d
  else acceptPixels op d

/-- CMD_WRITE (R98): busy, then illegal, then dimensions; the first that holds decides (60_exceptions.md R126). -/
def cmdWrite (w : Word) (d : Ddc) : Ddc :=
  if d.phase ≠ .idle then raiseErr .cmdWhileBusy d
  else
    match legalOp w with
    | none => raiseErr .illegalCmd d
    | some op => accept op d

/-! ## The command words -/

/-- ENC (R101): the CMD write of 0x00000001. -/
def execEnc (s : State) : Host.Outcome State Fault Refusal := .next { s with ddc := cmdWrite 1#32 s.ddc }

/-- ENC_RLE (R102): the CMD write of 0x00000002. -/
def execEncRle (s : State) : Host.Outcome State Fault Refusal := .next { s with ddc := cmdWrite 2#32 s.ddc }

/-- RLE (R103): the CMD write of 0x00000003. -/
def execRle (s : State) : Host.Outcome State Fault Refusal := .next { s with ddc := cmdWrite 3#32 s.ddc }

end Sys2Proof.Machine
end

