-- ==== Sys2Proof/Machine/HostReads.lean ====
section
/-! DEFINITION. The eight reads of the port (44_host_bus.md R108 to R115). -/

namespace Sys2Proof.Machine

/-- RD_CMD (R108): CMD has no storage and reads 0. -/
def execRdCmd (s : State) : Host.Outcome State Fault Refusal := .next (s.returns .cmd 0#32)

/-- RD_DIM (R109). -/
def execRdDim (s : State) : Host.Outcome State Fault Refusal := .next (s.returns .dim s.ddc.dim)

/-- RD_STATUS (R110). -/
def execRdStatus (s : State) : Host.Outcome State Fault Refusal := .next (s.returns .status (statusWord s.ddc))

/-- RD_IN_DATA (R111): reads 0 and consumes no input. -/
def execRdInData (s : State) : Host.Outcome State Fault Refusal := .next (s.returns .inData 0#32)

/-- RD_OUT_DATA (R112): the head of OUTQ is removed and returned with VALID = 1; an empty queue returns 0. -/
def execRdOutData (s : State) : Host.Outcome State Fault Refusal :=
  .next ({ s with ddc := { s.ddc with outq := s.ddc.outq.tail } }.returns .outData (outWord s.ddc.outq.head?))

/-- RD_RUN_COUNT (R113). -/
def execRdRunCount (s : State) : Host.Outcome State Fault Refusal := .next (s.returns .runCount s.ddc.runCount)

/-- RD_OUT_LEN (R114). -/
def execRdOutLen (s : State) : Host.Outcome State Fault Refusal := .next (s.returns .outLen s.ddc.outLen)

/-- RD_RSV (R115): index 7 is reserved and reads 0. -/
def execRdRsv (s : State) : Host.Outcome State Fault Refusal := .next (s.returns .rsv 0#32)

end Sys2Proof.Machine
end

