-- ==== Sys2Proof/Machine/RunLength.lean ====
section
/-! DEFINITION. The run-length encoder's steps (42_run_length.md): loading a frame, the run-length state machine, and
the ENGINE's COUNT steps. -/

namespace Sys2Proof.Machine

/-! ## Loading a frame (R90) -/

/-- HDR_CNT = 0: Frame byte 0 is the width. -/
def loadWidth (v : Byte) (d : Ddc) : Ddc := { d with curW := v, hdrCnt := 1#2 }

/-- HDR_CNT = 1: Frame byte 1 is the height, and an empty payload is complete at once. -/
def loadHeight (v : Byte) (d : Ddc) : Ddc :=
  let d' := { d with curH := v, hdrCnt := 2#2, pidx := 0#13 }
  if d'.len = 0 then loadComplete d' else d'

/-- A payload byte has been stored: PIDX moves on, and the last one completes the load. -/
def advancePidx (d : Ddc) : Ddc :=
  let d' := { d with pidx := d.pidx + 1#13 }
  if d'.pidx.toNat = d'.len then loadComplete d' else d'

/-- LOAD_FRAME_BYTE (R90). -/
def loadFrameByte (w : Word) (d : Ddc) : Except Fault Ddc :=
  if d.hdrCnt = 0#2 then .ok (loadWidth (inByte w) d)
  else if d.hdrCnt = 1#2 then .ok (loadHeight (inByte w) d)
  else (pbufWrite d d.pidx.toNat (inByte w)).map advancePidx

/-! ## The run-length state machine (R87, R88) -/

/-- One bit (R87): the registers after it, and the run-byte emitted, if any. A run at the cap is emitted when the next
bit arrives (90_conflicts.md C2). -/
def rleBit (b : Bool) (r : RunState) : RunState × List Byte :=
  if r.rsValid = false then ({ r with rsValid := true, rsVal := b, rsLen := 1#8 }, [])
  else if b = r.rsVal ∧ r.rsLen.toNat < runLenMax then ({ r with rsLen := r.rsLen + 1#8 }, [])
  else ({ r with rcnt := r.rcnt + 1#32, rsVal := b, rsLen := 1#8 }, [runByte r.rsVal r.rsLen])

/-- End of stream (R88): the run in progress, if any, is emitted. -/
def rleFlush (r : RunState) : RunState × List Byte :=
  if r.rsValid = true then
    ({ r with rcnt := r.rcnt + 1#32, rsValid := false, rsLen := 0#8 }, [runByte r.rsVal r.rsLen])
  else (r, [])

/-- The machine over a bit list, with the run-bytes it emits in order. -/
def rleScan : List Bool → RunState → RunState × List Byte
  | [], r => (r, [])
  | b :: bs, r => ((rleScan bs (rleBit b r).1).1, (rleBit b r).2 ++ (rleScan bs (rleBit b r).1).2)

/-- The machine over a bit list and then flushed (R86). -/
def rleRun (s : List Bool) (r : RunState) : RunState × List Byte :=
  ((rleFlush (rleScan s r).1).1, (rleScan s r).2 ++ (rleFlush (rleScan s r).1).2)

/-! ## The ENGINE's COUNT steps (R91, R92) -/

/-- The payload bit at an index, most significant bit first: `PBUF[i div 8][7 - (i mod 8)]` (R91). -/
def payloadBit (d : Ddc) (i : Nat) : Bool := (pbufRead d (i / 8)).getLsbD (7 - i % 8)

/-- RLE_BIT (R91); the emitted bytes are discarded here. COUNT is bit-serial (log 15). -/
def countBit (d : Ddc) : Ddc :=
  { d with rs := (rleBit (payloadBit d d.bidx.toNat) d.rs).1, bidx := d.bidx + 1#17 }

/-- RLE_END (R92). -/
def countEnd (d : Ddc) : Ddc :=
  let r := (rleFlush d.rs).1
  { d with rs := r, runCount := r.rcnt, outLen := 6#32 + r.rcnt, eidx := 0#17, phase := .emit }

end Sys2Proof.Machine
end

