-- ==== Sys2Proof/Machine/HostWrites.lean ====
section
/-! DEFINITION. The eight writes of the port (44_host_bus.md R116 to R123). -/

namespace Sys2Proof.Machine

/-- The effect of an IN_DATA write (R119): a pixel, a frame byte, or an error (OPC = 0 in LOAD: log 17). -/
def inDataWrite (w : Word) (d : Ddc) : Except Fault Ddc :=
  if d.phase = .load ∧ (d.opc = .enc ∨ d.opc = .encRle) then packPixel w d
  else if d.phase = .load ∧ d.opc = .rle then loadFrameByte w d
  else .ok (raiseErr .inUnexpected d)

/-- WR_CMD (R116). -/
def execWrCmd (w : Word) (s : State) : Host.Outcome State Fault Refusal := .next { s with ddc := cmdWrite w s.ddc }

/-- WR_DIM (R117). -/
def execWrDim (w : Word) (s : State) : Host.Outcome State Fault Refusal :=
  .next { s with ddc := { s.ddc with dim := w } }

/-- WR_STATUS (R118). -/
def execWrStatus (w : Word) (s : State) : Host.Outcome State Fault Refusal :=
  .next { s with ddc := clearStatus w s.ddc }

/-- WR_IN_DATA (R119). -/
def execWrInData (w : Word) (s : State) : Host.Outcome State Fault Refusal := s.after (inDataWrite w s.ddc)

/-- WR_OUT_DATA (R120): no effect. -/
def execWrOutData (_ : Word) (s : State) : Host.Outcome State Fault Refusal := .next s

/-- WR_RUN_COUNT (R121): no effect. -/
def execWrRunCount (_ : Word) (s : State) : Host.Outcome State Fault Refusal := .next s

/-- WR_OUT_LEN (R122): no effect. -/
def execWrOutLen (_ : Word) (s : State) : Host.Outcome State Fault Refusal := .next s

/-- WR_RSV (R123): no effect. -/
def execWrRsv (_ : Word) (s : State) : Host.Outcome State Fault Refusal := .next s

end Sys2Proof.Machine
end

