-- ==== Sys2Proof/Machine/Dispatch.lean ====
section
/-! DEFINITION. One arm per instruction: the meaning each one calls. -/

namespace Sys2Proof.Machine

def exec (i : Instr) (s : State) : Host.Outcome State Fault Refusal :=
  match i with
  | .rdCmd => Sys2Proof.Machine.execRdCmd s
  | .rdDim => Sys2Proof.Machine.execRdDim s
  | .rdStatus => Sys2Proof.Machine.execRdStatus s
  | .rdInData => Sys2Proof.Machine.execRdInData s
  | .rdOutData => Sys2Proof.Machine.execRdOutData s
  | .rdRunCount => Sys2Proof.Machine.execRdRunCount s
  | .rdOutLen => Sys2Proof.Machine.execRdOutLen s
  | .rdRsv => Sys2Proof.Machine.execRdRsv s
  | .wrCmd d => Sys2Proof.Machine.execWrCmd d s
  | .wrDim d => Sys2Proof.Machine.execWrDim d s
  | .wrStatus d => Sys2Proof.Machine.execWrStatus d s
  | .wrInData d => Sys2Proof.Machine.execWrInData d s
  | .wrOutData d => Sys2Proof.Machine.execWrOutData d s
  | .wrRunCount d => Sys2Proof.Machine.execWrRunCount d s
  | .wrOutLen d => Sys2Proof.Machine.execWrOutLen d s
  | .wrRsv d => Sys2Proof.Machine.execWrRsv d s
  | .enc => Sys2Proof.Machine.execEnc s
  | .encRle => Sys2Proof.Machine.execEncRle s
  | .rle => Sys2Proof.Machine.execRle s

end Sys2Proof.Machine
end

