-- ==== Sys2Proof/Machine/OutputStream.lean ====
section
/-! DEFINITION. The output sequence of a command and the ENGINE's EMIT step (41_output_stream.md R79, R80). -/

namespace Sys2Proof.Machine

/-- OSEQ (R79): a Frame for ENC, a RunStream for ENC_RLE and RLE. -/
def oseq (d : Ddc) : List Byte :=
  if d.opc = .enc then d.curW :: d.curH :: d.payload
  else [d.curW, d.curH] ++ be32 d.runCount ++ runbytes (bits d.payload)

/-- The byte is pushed and EIDX moves on. -/
def pushOut (b : Byte) (d : Ddc) : Ddc := { d with outq := d.outq ++ [b], eidx := d.eidx + 1#17 }

/-- After the last byte the command is done. -/
def endEmit (d : Ddc) : Ddc :=
  if d.eidx.toNat = d.outLen.toNat then { d with phase := .idle, done := true } else d

/-- EMIT_BYTE (R80). EIDX beyond OSEQ is outside the rule (log 9). -/
def emitByte (d : Ddc) : Except Fault Ddc :=
  match (oseq d)[d.eidx.toNat]? with
  | some b => .ok (endEmit (pushOut b d))
  | none => .error .oseqOutOfRange

end Sys2Proof.Machine
end

