-- ==== Sys2Proof/Machine/Engine.lean ====
section
/-! DEFINITION. The ENGINE's steps and who moves next (00_scope.md R12, 10_state.md R17). -/

namespace Sys2Proof.Machine

/-- An ENGINE step is enabled: RLE_BIT or RLE_END in COUNT (42_run_length.md R91, R92), EMIT_BYTE in EMIT while OUTQ
has room (41_output_stream.md R80). With BIDX above 8L, which no run reaches, neither COUNT step is (log 10). -/
def engineEnabled (depth : Nat) (d : Ddc) : Bool :=
  match d.phase with
  | .idle => false
  | .load => false
  | .count => decide (d.bidx.toNat ≤ 8 * d.len)
  | .emit => decide (d.outq.length < depth)

/-- The ENGINE's step in its phase; it has none in IDLE and LOAD. -/
def engineAct (d : Ddc) : Except Fault Ddc :=
  match d.phase with
  | .idle => .ok d
  | .load => .ok d
  | .count => .ok (if d.bidx.toNat < 8 * d.len then countBit d else countEnd d)
  | .emit => emitByte d

/-- A turn of the ENGINE: its step, where one is enabled; else nothing moves (log 3). -/
def engineTurn (depth : Nat) (s : State) : Host.Outcome State Fault Refusal :=
  if engineEnabled depth s.ddc then s.after (engineAct s.ddc) else .next s

/-- Who moves next, and the state with that turn taken off the list. With no turn listed, an enabled ENGINE moves before
the HOST, so that a step that stays enabled is taken (00_scope.md R12; log 2). -/
def nextTurn (depth : Nat) (s : State) : Turn × State :=
  match s.turns with
  | t :: rest => (t, { s with turns := rest })
  | [] => (if engineEnabled depth s.ddc then .engine else .host, s)

end Sys2Proof.Machine
end

