-- ==== Sys2Proof/Machine/Step.lean ====
section
/-! DEFINITION. One step of the machine: an access of the HOST, a step of the ENGINE, or a RESET (00_scope.md R12). -/

namespace Sys2Proof.Machine

/-- One step with OUT_DEPTH given as an argument (00_scope.md R7). A HOST turn with no access left is an idle step
(log 3). -/
def stepAt (depth : Nat) (s : State) : Host.Outcome State Fault Refusal :=
  match nextTurn depth s with
  | (.host, s') =>
    match s'.fetch with
    | none => .next s'
    | some (a, s'') => exec (decode a) s''
  | (.engine, s') => engineTurn depth s'
  | (.reset, s') => .next (resetEvent s')

/-- One step of the DDC with its own OUT_DEPTH. A step takes no time (log 21). -/
def step (s : State) : Host.Outcome State Fault Refusal := stepAt Config.outDepth s

/-- The state whose next step performs the bus access of a table word: the access stands first in the HOST's list and the
HOST moves next. A number that is no table word places nothing. -/
def State.withFetchWord (s : State) (nbits w : Nat) : State :=
  match tableAccess nbits w with
  | .ok a => { s with bus := a :: s.bus, turns := .host :: s.turns }
  | .error _ => s

end Sys2Proof.Machine
end

