-- ==== Sys2Proof/Safety.lean ====
section
/-! DEFINITION. What claims are stated in: the invariant of reachable states, runs, what a HOST observes, and which
steps push an output byte. -/

namespace Sys2Proof.Machine

/-! ## The invariant -/

/-- Every PBUF byte below the bound has been written since the last RESET. -/
abbrev Ddc.writtenBelow (d : Ddc) (n : Nat) : Prop := ∀ i < n, (d.pbuf.get? i).isSome = true

/-- The states a run from reset can reach satisfy this, for an OUT_DEPTH of `depth`. It rules out the states in which a
step would fault, and it is what the ranges of 10_state.md and the guarantees of R34, R41 and R79 come to. -/
structure Ddc.Inv (depth : Nat) (d : Ddc) : Prop where
  /-- PBUF keeps its canonical form, and holds addresses 0..8159 only (R34). -/
  pbufWf : d.pbuf.wf = true
  /-- ERR codes 5 to 15 are never produced (60_exceptions.md R124). -/
  errLegal : d.err.toNat ≤ 4
  /-- R25. -/
  runCountBound : d.runCount.toNat ≤ 65280
  /-- R26; 0 until the first command reaches EMIT. -/
  outLenBound : d.outLen = 0#32 ∨ (2 ≤ d.outLen.toNat ∧ d.outLen.toNat ≤ 65286)
  /-- OUTQ never holds more than OUT_DEPTH bytes (R35). -/
  outqFits : d.outq.length ≤ depth
  /-- R31. -/
  hdrCntBound : d.hdrCnt.toNat ≤ 2
  /-- R31. -/
  pidxBound : d.pidx.toNat ≤ 8160
  /-- R32. -/
  rsShape : if d.rs.rsValid then 1 ≤ d.rs.rsLen.toNat ∧ d.rs.rsLen.toNat ≤ 128 else d.rs.rsLen = 0#8
  /-- R32. -/
  rcntBound : d.rs.rcnt.toNat ≤ 65280
  /-- R32. -/
  bidxBound : d.bidx.toNat ≤ 65280
  /-- R33. -/
  eidxBound : d.eidx.toNat ≤ 65286
  /-- "DONE = 1 with BUSY = 1 cannot occur" (44_host_bus.md R110). -/
  busyNotDone : d.phase ≠ .idle → d.done = false
  /-- A command in progress has an operation (R28). -/
  busyOpc : d.phase ≠ .idle → d.opc ≠ .none
  /-- COUNT is entered only by ENC_RLE and RLE (R27). -/
  countOpc : d.phase = .count → d.opc ≠ .enc
  /-- Loading pixels: ROW and COL are in range (R30, log 19), the groups before the one in ACC are stored, and the columns ACC
  does not hold yet are 0 in it. -/
  loadPixels : d.phase = .load → d.opc ≠ .rle →
    d.row.toNat < d.curH.toNat ∧ d.col.toNat < d.curW.toNat
      ∧ d.writtenBelow (d.row.toNat * bpr d.curW.toNat + d.col.toNat / 8)
      ∧ ∀ j < 8 - d.col.toNat % 8, d.acc.getLsbD j = false
  /-- Loading a frame's payload: PIDX is below L, and the bytes before it are stored (R31). -/
  loadFrame : d.phase = .load → d.opc = .rle → d.hdrCnt = 2#2 → d.pidx.toNat < d.len ∧ d.writtenBelow d.pidx.toNat
  /-- The whole payload is stored when it is scanned or output (R34). -/
  written : d.phase = .count ∨ d.phase = .emit → d.writtenBelow d.len
  /-- Counting: the machine's registers are those of 42_run_length.md R87 after the bits before BIDX. -/
  counting : d.phase = .count →
    d.bidx.toNat ≤ 8 * d.len ∧ d.rs = (rleScan ((bits d.payload).take d.bidx.toNat) RunState.empty).1
  /-- Output: OUT_LEN is the length of OSEQ, and EIDX is below it (41_output_stream.md R79). -/
  emitting : d.phase = .emit → d.outLen.toNat = (oseq d).length ∧ d.eidx.toNat < d.outLen.toNat
  /-- Output of a RunStream: RUN_COUNT is the number of runs (42_run_length.md R93). -/
  emittingRuns : d.phase = .emit → d.opc ≠ .enc → d.runCount.toNat = (runs (bits d.payload)).length

/-- A safe state of the machine. -/
def State.Inv (depth : Nat) (s : State) : Prop := s.ddc.Inv depth

/-! ## Runs and what the HOST observes -/

/-- Steps one after the other, stopping at the first fault or refusal. -/
def runAt (depth : Nat) : Nat → State → Host.Outcome State Fault Refusal
  | 0, s => .next s
  | n + 1, s =>
    match stepAt depth s with
    | .next s' => runAt depth n s'
    | .fault f => .fault f
    | .refused r => .refused r

/-- The byte an OUT_DATA read with VALID = 1 returned (20_memory.md R42, 30_encoding.md R59). -/
def ReadBack.outByte (r : ReadBack) : Option Byte :=
  if r.port = .outData ∧ r.value.getLsbD 8 = true then some (r.value.extractLsb' 0 8) else none

/-- The output stream: the bytes read from OUT_DATA with VALID = 1, in read order (20_memory.md R42). -/
def outputStream (rs : List ReadBack) : List Byte := rs.filterMap ReadBack.outByte

/-- The run is over: the HOST has performed its last access, PHASE = IDLE and OUTQ is empty
(70_reset_and_hazards.md R149). -/
def State.over (s : State) : Bool := s.bus.isEmpty && s.ddc.phase == .idle && s.ddc.outq.isEmpty

/-- A run's observation: the values the HOST's reads returned, and the final DIM, STATUS, RUN_COUNT and OUT_LEN
(70_reset_and_hazards.md R149). -/
structure Observation where
  reads    : List ReadBack
  dim      : Word
  status   : Word
  runCount : Word
  outLen   : Word
  deriving DecidableEq, Repr

/-- The observation of a state. -/
def State.observation (s : State) : Observation :=
  ⟨s.reads, s.ddc.dim, statusWord s.ddc, s.ddc.runCount, s.ddc.outLen⟩

/-- The next step is an EMIT_BYTE step. -/
def State.emitsNext (depth : Nat) (s : State) : Bool :=
  (nextTurn depth s).1 == .engine && s.ddc.phase == .emit && engineEnabled depth s.ddc

/-- The bytes the next step pushes into OUTQ: OSEQ[EIDX] for an EMIT_BYTE step, else none. -/
def State.pushesNext (depth : Nat) (s : State) : List Byte :=
  if s.emitsNext depth then ((oseq s.ddc)[s.ddc.eidx.toNat]?).toList else []

/-- The bytes pushed over a run of n steps, in order. -/
def pushedBy (depth : Nat) : Nat → State → List Byte
  | 0, _ => []
  | n + 1, s =>
    match stepAt depth s with
    | .next s' => s.pushesNext depth ++ pushedBy depth n s'
    | .fault _ => []
    | .refused _ => []

/-- The steps of the ENGINE alone, while one is enabled: n turns. -/
def engineRun (depth : Nat) : Nat → Ddc → Except Fault Ddc
  | 0, d => .ok d
  | n + 1, d =>
    if engineEnabled depth d then
      match engineAct d with
      | .ok d' => engineRun depth n d'
      | .error f => .error f
    else .ok d

/-- PACK_PIXEL applied to a list of IN_DATA words, in order (40_row_packer.md R76). -/
def packAll : List Word → Ddc → Except Fault Ddc
  | [], d => .ok d
  | w :: ws, d =>
    match packPixel w d with
    | .ok d' => packAll ws d'
    | .error f => .error f

/-- LOAD_FRAME_BYTE applied to a list of IN_DATA words, in order (42_run_length.md R90). -/
def loadAll : List Word → Ddc → Except Fault Ddc
  | [], d => .ok d
  | w :: ws, d =>
    match loadFrameByte w d with
    | .ok d' => loadAll ws d'
    | .error f => .error f

/-- The pixel bits of a row-major list of IN_DATA words for a grid of width w (40_row_packer.md R71). -/
def gridOf (w : Nat) (pixels : List Word) (r c : Nat) : Bool := ((pixels[r * w + c]?).map pixelBit).getD false

/-- The state with an error code recorded unless one is recorded already (60_exceptions.md R125), and nothing else
changed. -/
def State.recordErr (s : State) (code : BitVec 4) : State :=
  { s with ddc := { s.ddc with err := if s.ddc.err = 0#4 then code else s.ddc.err } }

/-- The state with another DIM. -/
def State.withDim (s : State) (w : Word) : State := { s with ddc := { s.ddc with dim := w } }

/-- The access the next step performs, if it is an access of the HOST. -/
def State.nextAccess (depth : Nat) (s : State) : Option Instr :=
  if (nextTurn depth s).1 = .host then s.bus.head?.map decode else none

/-! ## What the HOST can see of a state (10_state.md R38) -/

/-- Everything a read can return: the stored port registers, the STATUS bits computed from PHASE, and OUTQ. -/
structure HostView where
  dim      : Word
  status   : Word
  runCount : Word
  outLen   : Word
  outq     : List Byte
  deriving DecidableEq, Repr

/-- The HOST's view of a DDC. -/
def Ddc.hostView (d : Ddc) : HostView := ⟨d.dim, statusWord d, d.runCount, d.outLen, d.outq⟩

end Sys2Proof.Machine
end

