-- ==== Sys2Proof/Certificates/Slice0/Obligations.lean ====
section
/-! DEFINITION. The statements about the DDC, from the numbered rules of spec/. A claim about a step is made for every
OUT_DEPTH (`depth`) and every list of turns, so for every interleaving (00_scope.md R7, R12). -/

open Sys2Proof Sys2Proof.Machine

/-! ## Encoding -/

/-- No bit of an access is lost: every well-formed instruction is read back from its bus access (30_encoding.md R55,
R56, R61). -/
def Obligations.DecodingAnEncodedInstructionGivesItBack : Prop :=
  ∀ i : Instr, i.wf = true → decode (encode i) = i

/-- Every bus access reads as one well-formed instruction, a read or a write as its WE bit says, whose own selector is
the access's; a write's whole access is given back (30_encoding.md R55). -/
def Obligations.EverySelectorIsOneLegalAccess : Prop :=
  ∀ a : BusAccess,
    (decode a).wf = true ∧ (encode (decode a)).sel = a.sel ∧ (decode a).isRead = !a.we
      ∧ (a.we = true → encode (decode a) = a)

/-- Words written out from the opcode table's selectors and command words and from 30_encoding.md R68. The three clauses
about `decodeTableWord` (a row of 8 bits has data 0, 32 bits are a CMD word, 0x12 is refused) are the model's choice of
numbering, not the spec's (log 13). -/
def Obligations.SpecWordsDecodeToTheirInstructions : Prop :=
  decode ⟨0x9#4, 0x00020003#32⟩ = .wrDim 0x00020003#32
    ∧ decode ⟨0x4#4, 0#32⟩ = .rdOutData
    ∧ decode ⟨0xA#4, 0x108#32⟩ = .wrStatus 0x108#32
    ∧ decode ⟨0x8#4, 0x00000001#32⟩ = .enc
    ∧ decode ⟨0x8#4, 0x00000003#32⟩ = .rle
    ∧ decode ⟨0x8#4, 0x00000011#32⟩ = .wrCmd 0x11#32
    ∧ decodeTableWord 8 0xB = some (.wrInData 0#32)
    ∧ decodeTableWord 32 0x00000002 = some .encRle
    ∧ decodeTableWord 8 0x12 = none

/-! ## The step -/

/-- A step of the HOST performs the next access of its list, whichever way the turn comes to the HOST, and the access of
a placed table word is performed by the very next step (00_scope.md R12, R50; log 1, log 2). -/
def Obligations.StepPerformsTheNextAccess : Prop :=
  (∀ (depth : Nat) (s : State) (a : BusAccess) (rest : List BusAccess) (ts : List Turn),
    s.bus = a :: rest → s.turns = .host :: ts →
      stepAt depth s = exec (decode a) { s with bus := rest, turns := ts })
  ∧ (∀ (depth : Nat) (s : State) (a : BusAccess) (rest : List BusAccess),
    s.bus = a :: rest → s.turns = [] → engineEnabled depth s.ddc = false →
      stepAt depth s = exec (decode a) { s with bus := rest })
  ∧ (∀ (s : State) (nbits w : Nat) (i : Instr),
    decodeTableWord nbits w = some i → step (s.withFetchWord nbits w) = exec i s)
  ∧ (∀ s : State, step s = stepAt Config.outDepth s)
  ∧ 1 ≤ Config.outDepth

/-- A turn of the ENGINE is its step where one is enabled, and an agent with no enabled step leaves everything but the
list of turns as it is; with no turn listed an enabled ENGINE moves (00_scope.md R12; the last two are the model's, log
2 and log 3). -/
def Obligations.EngineTurnsAndIdleTurns : Prop :=
  ∀ (depth : Nat) (s : State),
    (engineEnabled depth s.ddc = true ↔
      (s.ddc.phase = .count ∧ s.ddc.bidx.toNat ≤ 8 * s.ddc.len)
        ∨ (s.ddc.phase = .emit ∧ s.ddc.outq.length < depth))
    ∧ (∀ (ts : List Turn) (d : Ddc), s.turns = .engine :: ts → engineEnabled depth s.ddc = true →
        engineAct s.ddc = .ok d → stepAt depth s = .next { s with ddc := d, turns := ts })
    ∧ (∀ d : Ddc, s.turns = [] → engineEnabled depth s.ddc = true →
        engineAct s.ddc = .ok d → stepAt depth s = .next { s with ddc := d })
    ∧ (∀ ts : List Turn, s.turns = .engine :: ts → engineEnabled depth s.ddc = false →
        stepAt depth s = .next { s with turns := ts })
    ∧ (∀ ts : List Turn, s.turns = .host :: ts → s.bus = [] → stepAt depth s = .next { s with turns := ts })

/-! ## Reads (44_host_bus.md section 1) -/

/-- R108, R109, R111, R113, R114, R115: what each plain read returns; nothing of the DDC changes. -/
def Obligations.PlainReadsReturnTheirRegister : Prop :=
  ∀ s : State,
    exec .rdCmd s = .next { s with reads := s.reads ++ [⟨.cmd, 0#32⟩] }
    ∧ exec .rdDim s = .next { s with reads := s.reads ++ [⟨.dim, s.ddc.dim⟩] }
    ∧ exec .rdInData s = .next { s with reads := s.reads ++ [⟨.inData, 0#32⟩] }
    ∧ exec .rdRunCount s = .next { s with reads := s.reads ++ [⟨.runCount, s.ddc.runCount⟩] }
    ∧ exec .rdOutLen s = .next { s with reads := s.reads ++ [⟨.outLen, s.ddc.outLen⟩] }
    ∧ exec .rdRsv s = .next { s with reads := s.reads ++ [⟨.rsv, 0#32⟩] }

/-- R110: the STATUS word's fields; nothing of the DDC changes; DONE and BUSY are not both 1; after reset it is 0. -/
def Obligations.StatusReadReturnsItsFields : Prop :=
  (∀ s : State, ∃ v : Word,
    exec .rdStatus s = .next { s with reads := s.reads ++ [⟨.status, v⟩] }
    ∧ v.getLsbD 0 = decide (s.ddc.phase ≠ .idle)
    ∧ v.getLsbD 1 = decide (s.ddc.phase = .load)
    ∧ v.getLsbD 2 = decide (0 < s.ddc.outq.length)
    ∧ v.getLsbD 3 = s.ddc.done
    ∧ v.extractLsb' 4 4 = s.ddc.err
    ∧ v.extractLsb' 8 24 = 0#24
    ∧ ∀ depth : Nat, s.Inv depth → ¬ (v.getLsbD 0 = true ∧ v.getLsbD 3 = true))
  ∧ exec .rdStatus State.reset = .next { State.reset with reads := [⟨.status, 0#32⟩] }

/-- R24, R59: a read of OUT_DATA removes the head of OUTQ and returns it with VALID = 1; with no byte queued it returns 0
and nothing of the DDC changes. -/
def Obligations.OutDataReadTakesTheHead : Prop :=
  ∀ s : State,
    (∀ (b : Byte) (q : List Byte), s.ddc.outq = b :: q → ∃ v : Word,
      exec .rdOutData s =
        .next { s with ddc := { s.ddc with outq := q }, reads := s.reads ++ [⟨.outData, v⟩] }
      ∧ v.extractLsb' 0 8 = b ∧ v.getLsbD 8 = true ∧ v.extractLsb' 9 23 = 0#23)
    ∧ (s.ddc.outq = [] → exec .rdOutData s = .next { s with reads := s.reads ++ [⟨.outData, 0#32⟩] })

/-! ## Writes (44_host_bus.md section 2) -/

/-- R57: the word for a W x H grid is stored whole, and its fields are W and H. Nothing else changes. -/
def Obligations.DimWriteStoresWidthAndHeight : Prop :=
  (∀ (w : Word) (s : State), exec (.wrDim w) s = .next { s with ddc := { s.ddc with dim := w } })
  ∧ ∀ (w h : BitVec 16), (dimWord w h).toNat = h.toNat * 2 ^ 16 + w.toNat
      ∧ (dimWord w h).extractLsb' 0 16 = w ∧ (dimWord w h).extractLsb' 16 16 = h

/-- R118: bit 3 clears DONE, bit 8 clears ERR, every other bit is ignored, and nothing else changes. -/
def Obligations.StatusWriteClearsWhatItSelects : Prop :=
  ∀ (w : Word) (s : State), ∃ t : Ddc,
    exec (.wrStatus w) s = .next { s with ddc := t }
    ∧ t = { s.ddc with done := t.done, err := t.err }
    ∧ t.done = (if w.getLsbD 3 = true then false else s.ddc.done)
    ∧ t.err = (if w.getLsbD 8 = true then 0#4 else s.ddc.err)

/-- R120, R123 and the no effect of R121 and R122: writes to OUT_DATA, RUN_COUNT, OUT_LEN and index 7 have none. Which
steps do write RUN_COUNT and OUT_LEN is `Obligations.DimRunCountAndOutLenHaveTheirWriters`. -/
def Obligations.WritesToReadOnlyRegistersDoNothing : Prop :=
  ∀ (w : Word) (s : State),
    exec (.wrOutData w) s = .next s ∧ exec (.wrRunCount w) s = .next s
      ∧ exec (.wrOutLen w) s = .next s ∧ exec (.wrRsv w) s = .next s

/-- R119, R124: an IN_DATA write while no input is expected records IN_UNEXPECTED (4) and discards the byte. -/
def Obligations.UnexpectedInputIsDiscarded : Prop :=
  ∀ (w : Word) (s : State), s.ddc.phase ≠ .load → exec (.wrInData w) s = .next (s.recordErr 4#4)

/-! ## Errors (60_exceptions.md) -/

/-- R125: the first error since the last clear is kept, and raising one changes nothing else. -/
def Obligations.TheFirstErrorIsKept : Prop :=
  ∀ (c : ErrCode) (d : Ddc),
    (d.err = 0#4 → raiseErr c d = { d with err := c.code })
    ∧ (d.err ≠ 0#4 → raiseErr c d = d)
    ∧ 1 ≤ c.code.toNat ∧ c.code.toNat ≤ 4

/-- R104, R105, R106: a CMD write is refused for a busy DDC (3), then for an illegal word (2), then for dimensions above
255 (1), and records that error alone. A command's own instruction is refused in the same cases. -/
def Obligations.CommandsAreRefusedInOrder : Prop :=
  ∀ (w : Word) (s : State),
    (s.ddc.phase ≠ .idle →
      exec (.wrCmd w) s = .next (s.recordErr 3#4) ∧ exec .enc s = .next (s.recordErr 3#4)
        ∧ exec .encRle s = .next (s.recordErr 3#4) ∧ exec .rle s = .next (s.recordErr 3#4))
    ∧ (s.ddc.phase = .idle →
        w.extractLsb' 4 28 ≠ 0#28 ∨ w.extractLsb' 0 4 ∉ [1#4, 2#4, 3#4] →
        exec (.wrCmd w) s = .next (s.recordErr 2#4))
    ∧ (s.ddc.phase = .idle →
        255 < (s.ddc.dim.extractLsb' 0 16).toNat ∨ 255 < (s.ddc.dim.extractLsb' 16 16).toNat →
        (w.extractLsb' 4 28 = 0#28 → w.extractLsb' 0 4 ∈ [1#4, 2#4] →
          exec (.wrCmd w) s = .next (s.recordErr 1#4))
        ∧ exec .enc s = .next (s.recordErr 1#4) ∧ exec .encRle s = .next (s.recordErr 1#4))

/-! ## Commands (43_commands.md) -/

/-- R99: an ENC or ENC_RLE is accepted by an idle DDC whose DIM fields are at most 255. The dimensions are latched, the
packer's registers and DONE are cleared, and the load begins, or is complete at once for an empty grid. -/
def Obligations.PixelCommandsAreAccepted : Prop :=
  ∀ (s : State) (i : Instr) (op : Opc),
    ((i = .enc ∨ i = .wrCmd 1#32) ∧ op = .enc) ∨ ((i = .encRle ∨ i = .wrCmd 2#32) ∧ op = .encRle) →
    s.ddc.phase = .idle →
    (s.ddc.dim.extractLsb' 0 16).toNat ≤ 255 → (s.ddc.dim.extractLsb' 16 16).toNat ≤ 255 →
    ∃ t : Ddc, exec i s = .next { s with ddc := t }
      ∧ t.curW.toNat = (s.ddc.dim.extractLsb' 0 16).toNat
      ∧ t.curH.toNat = (s.ddc.dim.extractLsb' 16 16).toNat
      ∧ (t.curW ≠ 0#8 → t.curH ≠ 0#8 →
          t = { s.ddc with
                opc := op, curW := t.curW, curH := t.curH, row := 0#8, col := 0#8, acc := 0#8, done := false,
                phase := .load })
      ∧ (t.curW = 0#8 ∨ t.curH = 0#8 →
          t = loadComplete { s.ddc with
                opc := op, curW := t.curW, curH := t.curH, row := 0#8, col := 0#8, acc := 0#8, done := false })

/-- R100: an RLE is accepted by an idle DDC whatever DIM holds. -/
def Obligations.FrameCommandIsAccepted : Prop :=
  ∀ (s : State) (i : Instr), i = .rle ∨ i = .wrCmd 3#32 → s.ddc.phase = .idle →
    exec i s =
      .next { s with
        ddc := { s.ddc with opc := .rle, hdrCnt := 0#2, pidx := 0#13, done := false, phase := .load } }

/-- R141, R146: for an idle DDC with DONE and ERR clear, a CMD write was accepted when STATUS then shows BUSY = 1 and
ERR = 0, and refused when it shows BUSY = 0, DONE = 0 and an error. The read follows with no ENGINE step between
(log 20). -/
def Obligations.AcceptanceShowsInStatus : Prop :=
  ∀ (w : Word) (s : State), s.ddc.phase = .idle → s.ddc.done = false → s.ddc.err = 0#4 →
    ∃ (t : State) (v : Word), exec (.wrCmd w) s = .next t
      ∧ exec .rdStatus t = .next { t with reads := t.reads ++ [⟨.status, v⟩] }
      ∧ ((w = 3#32 ∨ ((w = 1#32 ∨ w = 2#32) ∧ (s.ddc.dim.extractLsb' 0 16).toNat ≤ 255
            ∧ (s.ddc.dim.extractLsb' 16 16).toNat ≤ 255)) →
          v.getLsbD 0 = true ∧ v.extractLsb' 4 4 = 0#4)
      ∧ (¬ (w = 3#32 ∨ ((w = 1#32 ∨ w = 2#32) ∧ (s.ddc.dim.extractLsb' 0 16).toNat ≤ 255
            ∧ (s.ddc.dim.extractLsb' 16 16).toNat ≤ 255)) →
          v.getLsbD 0 = false ∧ v.getLsbD 3 = false ∧ v.extractLsb' 4 4 ≠ 0#4)

/-! ## The row-packer (40_row_packer.md) -/

/-- R74: the effect of a pixel. Its bit goes to bit 7 - (COL mod 8) of ACC; a complete group is stored at
ROW * BPR + COL div 8 and at no other address; the end of a row moves to the next one, and the last row's end completes
the load. -/
def Obligations.PixelInputPacksOneBit : Prop :=
  ∀ (w : Word) (s : State), s.ddc.phase = .load → s.ddc.opc = .enc ∨ s.ddc.opc = .encRle →
    s.ddc.row.toNat < s.ddc.curH.toNat → s.ddc.col.toNat < s.ddc.curW.toNat →
    ∃ (acc : Byte) (t : Ddc), exec (.wrInData w) s = .next { s with ddc := t }
      ∧ (∀ j < 8, acc.getLsbD j =
          (s.ddc.acc.getLsbD j || (decide (w.extractLsb' 0 8 ≠ 0#8) && decide (j = 7 - s.ddc.col.toNat % 8))))
      ∧ ((s.ddc.col.toNat + 1) % 8 ≠ 0 → s.ddc.col.toNat + 1 ≠ s.ddc.curW.toNat →
          t = { s.ddc with acc := acc, col := s.ddc.col + 1#8 })
      ∧ ((s.ddc.col.toNat + 1) % 8 = 0 ∨ s.ddc.col.toNat + 1 = s.ddc.curW.toNat →
          pbufRead t (s.ddc.row.toNat * ceilDiv s.ddc.curW.toNat 8 + s.ddc.col.toNat / 8) = acc
          ∧ (∀ a : Nat, a ≠ s.ddc.row.toNat * ceilDiv s.ddc.curW.toNat 8 + s.ddc.col.toNat / 8 →
              pbufRead t a = pbufRead s.ddc a)
          ∧ (s.ddc.col.toNat + 1 ≠ s.ddc.curW.toNat →
              t = { s.ddc with pbuf := t.pbuf, acc := 0#8, col := s.ddc.col + 1#8 })
          ∧ (s.ddc.col.toNat + 1 = s.ddc.curW.toNat → s.ddc.row.toNat + 1 ≠ s.ddc.curH.toNat →
              t = { s.ddc with pbuf := t.pbuf, acc := 0#8, col := 0#8, row := s.ddc.row + 1#8 })
          ∧ (s.ddc.col.toNat + 1 = s.ddc.curW.toNat → s.ddc.row.toNat + 1 = s.ddc.curH.toNat →
              t = loadComplete
                { s.ddc with pbuf := t.pbuf, acc := 0#8, col := 0#8, row := s.ddc.row + 1#8 }))

/-- R75: LOAD_COMPLETE, by the operation in progress. That it clears the run-length registers is R75's own pseudocode;
10_state.md R32 does not list it among their writers (log 22). -/
def Obligations.LoadCompleteEntersEmitOrCount : Prop :=
  ∀ d : Ddc,
    (d.opc = .enc → ∃ n : Word, n.toNat = 2 + d.curH.toNat * ceilDiv d.curW.toNat 8
      ∧ loadComplete d = { d with outLen := n, eidx := 0#17, phase := .emit })
    ∧ (d.opc ≠ .enc → loadComplete d =
        { d with
          rs := { rsValid := false, rsVal := false, rsLen := 0#8, rcnt := 0#32 }, bidx := 0#17, phase := .count })

/-- R76: the pixels of a grid in row-major order leave the payload of its Frame in PBUF, complete the load at the last
pixel and not before, and store nowhere else. -/
def Obligations.PackingAGridStoresItsFramePayload : Prop :=
  ∀ (d : Ddc) (pixels : List Word), d.phase = .load → d.opc = .enc ∨ d.opc = .encRle →
    d.row = 0#8 → d.col = 0#8 → d.acc = 0#8 → d.curW ≠ 0#8 → d.curH ≠ 0#8 →
    pixels.length = d.curW.toNat * d.curH.toNat →
    ∃ t : Ddc, packAll pixels d = .ok t
      ∧ t.payload = framePayload d.curW.toNat d.curH.toNat (gridOf d.curW.toNat pixels)
      ∧ t = loadComplete { d with pbuf := t.pbuf, row := d.curH, col := 0#8, acc := 0#8 }
      ∧ (∀ a : Nat, d.len ≤ a → pbufRead t a = pbufRead d a)
      ∧ ∀ n < pixels.length, ∃ u : Ddc, packAll (pixels.take n) d = .ok u ∧ u.phase = .load

/-- R63, R70, R72, R77: a Frame's length and header, its pixels where a reader finds them, and its padding bits, which
are 0. -/
def Obligations.AFrameHoldsItsPixelsAndZeroPadding : Prop :=
  ∀ (w h : Nat) (p : Nat → Nat → Bool), w ≤ 255 → h ≤ 255 →
    (frame w h p).length = 2 + h * ceilDiv w 8
    ∧ (frame w h p)[0]? = some (BitVec.ofNat 8 w) ∧ (frame w h p)[1]? = some (BitVec.ofNat 8 h)
    ∧ (∀ r c : Nat, r < h → c < w → framePixel (frame w h p) w r c = some (p r c))
    ∧ (∀ r c : Nat, r < h → w ≤ c → c < 8 * ceilDiv w 8 → framePixel (frame w h p) w r c = some false)

/-! ## The run-length encoder (42_run_length.md) -/

/-- R90: the effect of a frame byte: the width, the height, or a payload byte stored at PIDX and at no other address; the
byte that makes the frame whole completes the load. -/
def Obligations.FrameInputLoadsOneByte : Prop :=
  ∀ (w : Word) (s : State), s.ddc.phase = .load → s.ddc.opc = .rle →
    (s.ddc.hdrCnt = 0#2 →
      exec (.wrInData w) s =
        .next { s with ddc := { s.ddc with curW := w.extractLsb' 0 8, hdrCnt := 1#2 } })
    ∧ (s.ddc.hdrCnt = 1#2 → (w.extractLsb' 0 8).toNat * ceilDiv s.ddc.curW.toNat 8 ≠ 0 →
        exec (.wrInData w) s =
          .next { s with ddc := { s.ddc with curH := w.extractLsb' 0 8, hdrCnt := 2#2, pidx := 0#13 } })
    ∧ (s.ddc.hdrCnt = 1#2 → (w.extractLsb' 0 8).toNat * ceilDiv s.ddc.curW.toNat 8 = 0 →
        exec (.wrInData w) s =
          .next { s with
            ddc := loadComplete { s.ddc with curH := w.extractLsb' 0 8, hdrCnt := 2#2, pidx := 0#13 } })
    ∧ (s.ddc.hdrCnt = 2#2 → s.ddc.pidx.toNat < s.ddc.curH.toNat * ceilDiv s.ddc.curW.toNat 8 →
        ∃ t : Ddc, exec (.wrInData w) s = .next { s with ddc := t }
          ∧ pbufRead t s.ddc.pidx.toNat = w.extractLsb' 0 8
          ∧ (∀ a : Nat, a ≠ s.ddc.pidx.toNat → pbufRead t a = pbufRead s.ddc a)
          ∧ (s.ddc.pidx.toNat + 1 ≠ s.ddc.curH.toNat * ceilDiv s.ddc.curW.toNat 8 →
              t = { s.ddc with pbuf := t.pbuf, pidx := s.ddc.pidx + 1#13 })
          ∧ (s.ddc.pidx.toNat + 1 = s.ddc.curH.toNat * ceilDiv s.ddc.curW.toNat 8 →
              t = loadComplete { s.ddc with pbuf := t.pbuf, pidx := s.ddc.pidx + 1#13 }))

/-- R90 over a whole Frame: its bytes in order leave W, H and the payload as given, complete the load at the last byte and
not before, and store nowhere else. -/
def Obligations.LoadingAFrameStoresItsPayload : Prop :=
  ∀ (d : Ddc) (ws : List Word) (w h : Byte) (payload : List Byte),
    d.phase = .load → d.opc = .rle → d.hdrCnt = 0#2 →
    ws.map (fun x => x.extractLsb' 0 8) = w :: h :: payload →
    payload.length = h.toNat * ceilDiv w.toNat 8 →
    ∃ t : Ddc, loadAll ws d = .ok t
      ∧ t.payload = payload
      ∧ t = loadComplete
          { d with
            curW := w, curH := h, hdrCnt := 2#2, pidx := BitVec.ofNat 13 payload.length, pbuf := t.pbuf }
      ∧ (∀ a : Nat, payload.length ≤ a → pbufRead t a = pbufRead d a)
      ∧ ∀ n < ws.length, ∃ u : Ddc, loadAll (ws.take n) d = .ok u ∧ u.phase = .load

/-- R87, R88: one bit of the run-length state machine, the flush, and that a run in progress always has a length of 1 to
128. -/
def Obligations.RunLengthMachineExtendsEmitsAndFlushes : Prop :=
  (∀ (b : Bool) (r : RunState),
    (r.rsValid = false → rleBit b r = (⟨true, b, 1#8, r.rcnt⟩, []))
    ∧ (r.rsValid = true → b = r.rsVal → r.rsLen.toNat < 128 →
        rleBit b r = ({ r with rsLen := r.rsLen + 1#8 }, []))
    ∧ (r.rsValid = true → b ≠ r.rsVal ∨ 128 ≤ r.rsLen.toNat →
        rleBit b r = (⟨true, b, 1#8, r.rcnt + 1#32⟩, [runByte r.rsVal r.rsLen]))
    ∧ (r.rsValid = true → rleFlush r = (⟨false, r.rsVal, 0#8, r.rcnt + 1#32⟩, [runByte r.rsVal r.rsLen]))
    ∧ (r.rsValid = false → rleFlush r = (r, [])))
  ∧ (∀ s : List Bool, s ≠ [] →
      (rleScan s RunState.empty).1.rsValid = true
      ∧ 1 ≤ (rleScan s RunState.empty).1.rsLen.toNat ∧ (rleScan s RunState.empty).1.rsLen.toNat ≤ 128)
  ∧ rleRun [] RunState.empty = (RunState.empty, [])

/-- R91: one RLE_BIT step scans the payload bit at BIDX, most significant bit first, discards what the machine emits,
and changes nothing but the machine's registers and BIDX. RS_LEN stays at most 128 and RCNT at most 65280. -/
def Obligations.CountStepScansOneBit : Prop :=
  ∀ (depth : Nat) (s : State) (ts : List Turn), s.turns = .engine :: ts → s.ddc.phase = .count →
    s.ddc.bidx.toNat < 8 * s.ddc.len →
    ∃ t : Ddc, stepAt depth s = .next { s with ddc := t, turns := ts }
      ∧ t = { s.ddc with rs := t.rs, bidx := s.ddc.bidx + 1#17 }
      ∧ t.rs = (rleBit ((pbufRead s.ddc (s.ddc.bidx.toNat / 8)).getLsbD (7 - s.ddc.bidx.toNat % 8)) s.ddc.rs).1
      ∧ (s.Inv depth → t.rs.rsLen.toNat ≤ 128 ∧ t.rs.rcnt.toNat ≤ 65280)

/-- R92: RLE_END flushes the machine, records RUN_COUNT and OUT_LEN, and enters EMIT. With no bit scanned the count is 0
and the length 6. -/
def Obligations.CountEndRecordsTheRunCount : Prop :=
  ∀ (depth : Nat) (s : State) (ts : List Turn), s.turns = .engine :: ts → s.ddc.phase = .count →
    s.ddc.bidx.toNat = 8 * s.ddc.len →
    ∃ t : Ddc, stepAt depth s = .next { s with ddc := t, turns := ts }
      ∧ t = { s.ddc with
              rs := (rleFlush s.ddc.rs).1, runCount := t.runCount, outLen := t.outLen, eidx := 0#17, phase := .emit }
      ∧ t.runCount = (rleFlush s.ddc.rs).1.rcnt
      ∧ t.outLen = 6#32 + t.runCount
      ∧ (s.ddc.rs = RunState.empty → t.runCount = 0#32 ∧ t.outLen = 6#32)

/-- R86: the state machine run over a bit list and flushed emits exactly its run-bytes, and counts them. -/
def Obligations.StateMachineGivesTheRuns : Prop :=
  ∀ s : List Bool,
    (rleRun s RunState.empty).2 = runbytes s
    ∧ (rleRun s RunState.empty).1.rcnt = BitVec.ofNat 32 (runs s).length

/-- R93: from LOAD_COMPLETE the COUNT phase takes 8L + 1 ENGINE steps, which set RUN_COUNT to the number of runs and
OUT_LEN to that and 6; until the last of them no read can tell one COUNT state from another. -/
def Obligations.CountPhaseGivesTheRunCount : Prop :=
  ∀ (depth : Nat) (d : Ddc), d.phase = .count → d.rs = RunState.empty → d.bidx = 0#17 →
    (∃ t : Ddc, engineRun depth (8 * d.len + 1) d = .ok t
      ∧ t = { d with
              rs := t.rs, bidx := BitVec.ofNat 17 (8 * d.len), runCount := t.runCount, outLen := t.outLen,
              eidx := 0#17, phase := .emit }
      ∧ t.runCount.toNat = (runs (bits d.payload)).length
      ∧ t.outLen.toNat = 6 + (runs (bits d.payload)).length)
    ∧ ∀ n ≤ 8 * d.len, ∃ u : Ddc, engineRun depth n d = .ok u ∧ u.phase = .count ∧ u.hostView = d.hostView

/-- R94: the run-bytes of a bit list stand for exactly that list; every run's length is 1 to 128; and two neighbouring
runs of one value mean that the first is a full one. -/
def Obligations.RunBytesStandForTheirBits : Prop :=
  ∀ s : List Bool,
    expandRuns (runbytes s) = s
    ∧ (∀ r ∈ runs s, 1 ≤ r.2 ∧ r.2 ≤ 128)
    ∧ (∀ (i : Nat) (a b : Bool × Nat), (runs s)[i]? = some a → (runs s)[i + 1]? = some b → a.1 = b.1 → a.2 = 128)

/-- R94: "The runs are a greedy left-to-right cut, so the encoding of a given Frame is unique": any list of runs with the
three properties is `runs` of its bits. -/
def Obligations.TheGreedyCutIsUnique : Prop :=
  ∀ (rs : List (Bool × Nat)),
    (∀ r ∈ rs, 1 ≤ r.2 ∧ r.2 ≤ 128) →
    (∀ (i : Nat) (a b : Bool × Nat), rs[i]? = some a → rs[i + 1]? = some b → a.1 = b.1 → a.2 = 128) →
    rs = runs (rs.flatMap (fun r => List.replicate r.2 r.1))

/-- R95: the run count of a payload of L bytes lies between ceil_div(8L, 128) and 8L; with L <= 8160 it is at most 65280,
which the alternating 255 x 255 grid reaches and the empty payload's 0 bounds from below. -/
def Obligations.RunCountBounds : Prop :=
  (∀ payload : List Byte,
    ceilDiv (8 * payload.length) 128 ≤ (runs (bits payload)).length
    ∧ (runs (bits payload)).length ≤ 8 * payload.length)
  ∧ (∀ d : Ddc, (runs (bits d.payload)).length ≤ 65280)
  ∧ (runs (bits [])).length = 0
  ∧ (runs (bits (framePayload 255 255 (fun _ c => c % 2 == 0)))).length = 65280

/-- R64: the fields of a run-byte, and that every byte is one. -/
def Obligations.RunByteLayout : Prop :=
  (∀ (v : Bool) (n : Nat), 1 ≤ n → n ≤ 128 →
    (runByte v (BitVec.ofNat 8 n)).getLsbD 7 = v
    ∧ ((runByte v (BitVec.ofNat 8 n)).extractLsb' 0 7).toNat = n - 1)
  ∧ ∀ b : Byte, b = runByte (b.getLsbD 7) (BitVec.ofNat 8 ((b.extractLsb' 0 7).toNat + 1))

/-! ## The output stream (41_output_stream.md) -/

/-- R80: EMIT_BYTE pushes OSEQ[EIDX] and moves EIDX on; the last byte ends the command and sets DONE. With OUTQ full the
ENGINE waits. Every command outputs at least two bytes. -/
def Obligations.EmitStepPushesTheNextByte : Prop :=
  ∀ (depth : Nat) (s : State) (ts : List Turn), s.Inv depth → s.turns = .engine :: ts → s.ddc.phase = .emit →
    2 ≤ s.ddc.outLen.toNat
    ∧ (s.ddc.outq.length < depth → ∃ b : Byte, (oseq s.ddc)[s.ddc.eidx.toNat]? = some b
        ∧ (s.ddc.eidx.toNat + 1 ≠ s.ddc.outLen.toNat →
            stepAt depth s =
              .next { s with
                turns := ts, ddc := { s.ddc with outq := s.ddc.outq ++ [b], eidx := s.ddc.eidx + 1#17 } })
        ∧ (s.ddc.eidx.toNat + 1 = s.ddc.outLen.toNat →
            stepAt depth s =
              .next { s with
                turns := ts,
                ddc :=
                  { s.ddc with
                    outq := s.ddc.outq ++ [b], eidx := s.ddc.eidx + 1#17, phase := .idle, done := true } }))
    ∧ (¬ s.ddc.outq.length < depth → stepAt depth s = .next { s with turns := ts })

/-- R79, R89: while a command is in EMIT, its output sequence is a Frame for ENC, and for ENC_RLE and RLE the RunStream
of the Frame in CUR_W, CUR_H and PBUF; OUT_LEN is its length. -/
def Obligations.OutputSequenceIsAFrameOrARunStream : Prop :=
  ∀ (depth : Nat) (d : Ddc), d.Inv depth → d.phase = .emit →
    d.outLen.toNat = (oseq d).length
    ∧ (d.opc = .enc → oseq d = [d.curW, d.curH] ++ d.payload)
    ∧ (d.opc = .encRle ∨ d.opc = .rle →
        rleStream ([d.curW, d.curH] ++ d.payload) = some (oseq d)
        ∧ (oseq d).take 2 = [d.curW, d.curH]
        ∧ (oseq d).drop 6 = runbytes (bits d.payload)
        ∧ ∃ c3 c2 c1 c0 : Byte, ((oseq d).drop 2).take 4 = [c3, c2, c1, c0]
            ∧ c3.toNat * 2 ^ 24 + c2.toNat * 2 ^ 16 + c1.toNat * 2 ^ 8 + c0.toNat
                = (runs (bits d.payload)).length)

/-- R81: over every run without a RESET, the bytes the HOST has read and those still in OUTQ are the ones there were,
followed by the bytes EMIT_BYTE pushed, in push order. -/
def Obligations.OutputStreamIsWhatEmitPushed : Prop :=
  ∀ (depth n : Nat) (s t : State), Turn.reset ∉ s.turns → runAt depth n s = .next t →
    outputStream t.reads ++ t.ddc.outq = outputStream s.reads ++ s.ddc.outq ++ pushedBy depth n s

/-- R82, R83: while a command is in EMIT and no RESET comes, the bytes pushed are its OSEQ in order from the first, OSEQ
does not change, and when PHASE becomes IDLE all of it has been pushed and DONE is set. -/
def Obligations.EachCommandPushesItsOutputOnce : Prop :=
  ∀ (depth n : Nat) (s t : State), s.Inv depth → s.ddc.phase = .emit → s.ddc.eidx = 0#17 →
    Turn.reset ∉ s.turns → runAt depth n s = .next t →
    (∀ (m : Nat) (u : State), m < n → runAt depth m s = .next u → u.ddc.phase = .emit) →
    (t.ddc.phase = .emit ∧ oseq t.ddc = oseq s.ddc
        ∧ pushedBy depth n s = (oseq s.ddc).take t.ddc.eidx.toNat)
    ∨ (t.ddc.phase = .idle ∧ t.ddc.done = true ∧ pushedBy depth n s = oseq s.ddc)

/-- R80, D9: with room for the rest of its output, a command in EMIT ends after one ENGINE step a byte. -/
def Obligations.EmitEndsWhenOutqHasRoom : Prop :=
  ∀ (depth : Nat) (d : Ddc), d.Inv depth → d.phase = .emit →
    d.outq.length + (d.outLen.toNat - d.eidx.toNat) ≤ depth →
    ∃ t : Ddc, engineRun depth (d.outLen.toNat - d.eidx.toNat) d = .ok t
      ∧ t = { d with
              outq := d.outq ++ (oseq d).drop d.eidx.toNat, eidx := t.eidx, phase := .idle, done := true }
      ∧ t.eidx.toNat = d.outLen.toNat

/-! ## Whole-machine rules -/

/-- R21, R25, R26: which steps change DIM, RUN_COUNT and OUT_LEN: a DIM write, the RLE_END step, and the entry to EMIT;
besides them, only a RESET. -/
def Obligations.DimRunCountAndOutLenHaveTheirWriters : Prop :=
  ∀ (depth : Nat) (s t : State), stepAt depth s = .next t → (nextTurn depth s).1 ≠ .reset →
    (t.ddc.dim = s.ddc.dim ∨ s.nextAccess depth = some (.wrDim t.ddc.dim))
    ∧ (t.ddc.runCount = s.ddc.runCount
        ∨ ((nextTurn depth s).1 = .engine ∧ s.ddc.phase = .count ∧ s.ddc.bidx.toNat = 8 * s.ddc.len
            ∧ t.ddc.phase = .emit))
    ∧ (t.ddc.outLen = s.ddc.outLen ∨ (s.ddc.phase ≠ .emit ∧ t.ddc.phase = .emit))

/-- R37, R125, R126, R130: ERR changes only from 0 to a code, by a CMD or IN_DATA write, or to 0, by a STATUS write with
bit 8 = 1; besides them, only by a RESET. -/
def Obligations.ErrHasItsWriters : Prop :=
  ∀ (depth : Nat) (s t : State), stepAt depth s = .next t → (nextTurn depth s).1 ≠ .reset →
    t.ddc.err = s.ddc.err
    ∨ (s.ddc.err = 0#4 ∧ t.ddc.err ∈ [1#4, 2#4, 3#4, 4#4]
        ∧ ((∃ w, s.nextAccess depth = some (.wrCmd w)) ∨ s.nextAccess depth = some .enc
            ∨ s.nextAccess depth = some .encRle ∨ s.nextAccess depth = some .rle
            ∨ (t.ddc.err = 4#4 ∧ ∃ w, s.nextAccess depth = some (.wrInData w))))
    ∨ (t.ddc.err = 0#4 ∧ ∃ w : Word, w.getLsbD 8 = true ∧ s.nextAccess depth = some (.wrStatus w))

/-- R37: DONE is set only by the last EMIT_BYTE step of a command, and cleared only by the acceptance of a command or a
STATUS write with bit 3 = 1; besides them, only by a RESET. -/
def Obligations.DoneHasItsWriters : Prop :=
  ∀ (depth : Nat) (s t : State), stepAt depth s = .next t → (nextTurn depth s).1 ≠ .reset →
    t.ddc.done = s.ddc.done
    ∨ (t.ddc.done = true ∧ s.emitsNext depth = true ∧ t.ddc.phase = .idle)
    ∨ (t.ddc.done = false ∧ s.ddc.phase = .idle ∧ t.ddc.phase ≠ .idle)
    ∨ (t.ddc.done = false ∧ ∃ w : Word, w.getLsbD 3 = true ∧ s.nextAccess depth = some (.wrStatus w))

/-- R27: PHASE moves IDLE, LOAD, (COUNT,) EMIT, IDLE; COUNT is entered only by ENC_RLE and RLE; LOAD is skipped exactly
when a command has no input: it is entered by RLE, which reads two header bytes at least, and by a command with L not 0. -/
def Obligations.PhaseMovesInItsOrder : Prop :=
  State.reset.ddc.phase = .idle
  ∧ ∀ (depth : Nat) (s t : State), stepAt depth s = .next t → (nextTurn depth s).1 ≠ .reset →
    (s.ddc.phase = .idle →
      t.ddc.phase = .idle
      ∨ (t.ddc.phase = .load ∧ (t.ddc.opc = .rle ∨ t.ddc.len ≠ 0))
      ∨ (t.ddc.phase = .emit ∧ t.ddc.opc = .enc ∧ t.ddc.len = 0)
      ∨ (t.ddc.phase = .count ∧ t.ddc.opc = .encRle ∧ t.ddc.len = 0))
    ∧ (s.ddc.phase = .load →
      t.ddc.phase = .load ∨ (t.ddc.phase = .emit ∧ t.ddc.opc = .enc)
      ∨ (t.ddc.phase = .count ∧ (t.ddc.opc = .encRle ∨ t.ddc.opc = .rle)))
    ∧ (s.ddc.phase = .count → t.ddc.phase = .count ∨ t.ddc.phase = .emit)
    ∧ (s.ddc.phase = .emit → t.ddc.phase = .emit ∨ (t.ddc.phase = .idle ∧ t.ddc.done = true))

/-- The invariant holds of the reset state, for every OUT_DEPTH (10_state.md R39). -/
def Obligations.TheInvariantHoldsAtReset : Prop :=
  ∀ depth : Nat, State.reset.Inv depth

/-- From every state with the invariant a step answers a next state, and that state has it: no access faults, hangs or is
refused (44_host_bus.md), no PBUF access is out of range (R41), no byte is read that was not written (R34), and every
range of 10_state.md is kept. -/
def Obligations.EveryStepAnswersAndKeepsTheInvariant : Prop :=
  ∀ (depth : Nat) (s : State), s.Inv depth → ∃ t : State, stepAt depth s = .next t ∧ t.Inv depth

/-- R39, R138: RESET gives every state element its reset value, whatever the state was, and every read then returns 0
and leaves the DDC as it is. That RESET leaves the HOST's side (`bus`, `reads`, and the rest of `turns`) is the model's
choice (log 4). -/
def Obligations.ResetGivesEveryElementItsValue : Prop :=
  ∀ (depth : Nat) (s : State) (ts : List Turn), s.turns = .reset :: ts →
    ∃ t : State, stepAt depth s = .next t
      ∧ t.bus = s.bus ∧ t.reads = s.reads ∧ t.turns = ts
      ∧ t.ddc.phase = .idle ∧ t.ddc.opc = .none ∧ t.ddc.curW = 0#8 ∧ t.ddc.curH = 0#8
      ∧ t.ddc.row = 0#8 ∧ t.ddc.col = 0#8 ∧ t.ddc.acc = 0#8 ∧ t.ddc.hdrCnt = 0#2 ∧ t.ddc.pidx = 0#13
      ∧ t.ddc.rs = ⟨false, false, 0#8, 0#32⟩ ∧ t.ddc.bidx = 0#17 ∧ t.ddc.eidx = 0#17
      ∧ t.ddc.dim = 0#32 ∧ t.ddc.done = false ∧ t.ddc.err = 0#4 ∧ t.ddc.runCount = 0#32 ∧ t.ddc.outLen = 0#32
      ∧ t.ddc.outq = []
      ∧ ∀ i : Instr, i.isRead = true →
          ∃ p : Port, exec i t = .next { t with reads := t.reads ++ [⟨p, 0#32⟩] }

/-- R38: a read returns the same value in any two states the HOST cannot tell apart by reads, and leaves them so; COUNT
and EMIT are told apart by no read. -/
def Obligations.ReadsShowOnlyTheHostView : Prop :=
  (∀ (i : Instr) (s₁ s₂ : State), i.isRead = true → s₁.ddc.hostView = s₂.ddc.hostView → s₁.reads = s₂.reads →
    ∃ t₁ t₂ : State, exec i s₁ = .next t₁ ∧ exec i s₂ = .next t₂
      ∧ t₁.reads = t₂.reads ∧ t₁.ddc.hostView = t₂.ddc.hostView)
  ∧ ∀ d : Ddc, ({ d with phase := .count } : Ddc).hostView = ({ d with phase := .emit } : Ddc).hostView

/-- R147: while a command is in progress, no access but a DIM read or write and no ENGINE step depends on DIM: with
another DIM the step does the same. -/
def Obligations.DimIsNotReadDuringACommand : Prop :=
  ∀ (depth : Nat) (s t : State) (w : Word), s.ddc.phase ≠ .idle →
    (∀ i : Instr, i ≠ .rdDim → (∀ v : Word, i ≠ .wrDim v) → exec i s = .next t →
      exec i (s.withDim w) = .next (t.withDim w))
    ∧ (engineTurn depth s = .next t → engineTurn depth (s.withDim w) = .next (t.withDim w))

/-- R143: a command that is given no more input stays in LOAD and outputs nothing, over every run without a RESET. -/
def Obligations.TooLittleInputLeavesTheCommandWaiting : Prop :=
  ∀ (depth n : Nat) (s t : State), s.ddc.phase = .load → Turn.reset ∉ s.turns →
    (∀ a ∈ s.bus, ∀ w : Word, decode a ≠ .wrInData w) → runAt depth n s = .next t →
    t.ddc.phase = .load ∧ pushedBy depth n s = []
      ∧ t.ddc = { s.ddc with dim := t.ddc.dim, done := t.ddc.done, err := t.ddc.err, outq := t.ddc.outq }

/-- R101, R102: the commands of a grid with no pixel: ENC outputs [W, H], and ENC_RLE, after its one COUNT step, outputs
[W, H, 0, 0, 0, 0]. -/
def Obligations.EmptyGridsGiveTheirHeader : Prop :=
  ∀ (depth : Nat) (s : State), s.ddc.phase = .idle →
    (s.ddc.dim.extractLsb' 0 16).toNat ≤ 255 → (s.ddc.dim.extractLsb' 16 16).toNat ≤ 255 →
    s.ddc.dim.extractLsb' 0 16 = 0#16 ∨ s.ddc.dim.extractLsb' 16 16 = 0#16 →
    (∃ t : State, exec .enc s = .next t ∧ t.ddc.phase = .emit
      ∧ oseq t.ddc = [s.ddc.dim.extractLsb' 0 8, s.ddc.dim.extractLsb' 16 8] ∧ t.ddc.outLen = 2#32)
    ∧ (∃ (t : State) (d : Ddc), exec .encRle s = .next t ∧ t.ddc.phase = .count
      ∧ engineRun depth 1 t.ddc = .ok d ∧ d.phase = .emit
      ∧ oseq d = [s.ddc.dim.extractLsb' 0 8, s.ddc.dim.extractLsb' 16 8, 0#8, 0#8, 0#8, 0#8]
      ∧ d.outLen = 6#32 ∧ d.runCount = 0#32)

/-! ## End to end (43_commands.md R107) -/

/-- R107 for ENC and ENC_RLE: a HOST that writes DIM, the command and the grid's pixels, and then only reads OUT_DATA,
is given (in its reads, and in OUTQ for what it has not read) the Frame of the grid, or that Frame's RunStream, under
every interleaving of ENGINE steps and every OUT_DEPTH, by the time the command has ended. -/
def Obligations.PixelCommandsDeliverTheirOutput : Prop :=
  ∀ (depth k n : Nat) (compress : Bool) (w h : BitVec 8) (pixels : List Word) (s t : State),
    s.Inv depth → s.ddc.phase = .idle → s.ddc.outq = [] → Turn.reset ∉ s.turns →
    pixels.length = w.toNat * h.toNat →
    s.bus = [wr .dim (dimWord (w.setWidth 16) (h.setWidth 16)), wr .cmd (if compress then 2#32 else 1#32)]
      ++ pixels.map (wr .inData) ++ List.replicate n (rd .outData) →
    runAt depth k s = .next t → t.bus = [] → t.ddc.phase = .idle →
    t.ddc.done = true ∧ t.ddc.err = s.ddc.err
    ∧ ∃ out : List Byte, outputStream t.reads ++ t.ddc.outq = outputStream s.reads ++ out
        ∧ t.ddc.outLen.toNat = out.length
        ∧ (compress = false → out = frame w.toNat h.toNat (gridOf w.toNat pixels))
        ∧ (compress = true → rleStream (frame w.toNat h.toNat (gridOf w.toNat pixels)) = some out)

/-- R107 for RLE: a HOST that writes the command and a Frame's bytes, and then only reads OUT_DATA, is given that Frame's
RunStream. -/
def Obligations.FrameCommandDeliversItsRunStream : Prop :=
  ∀ (depth k n : Nat) (w h : Byte) (payload : List Byte) (ws : List Word) (s t : State),
    s.Inv depth → s.ddc.phase = .idle → s.ddc.outq = [] → Turn.reset ∉ s.turns →
    ws.map (fun x => x.extractLsb' 0 8) = w :: h :: payload →
    payload.length = h.toNat * ceilDiv w.toNat 8 →
    s.bus = [wr .cmd 3#32] ++ ws.map (wr .inData) ++ List.replicate n (rd .outData) →
    runAt depth k s = .next t → t.bus = [] → t.ddc.phase = .idle →
    t.ddc.done = true ∧ t.ddc.err = s.ddc.err
    ∧ ∃ out : List Byte, outputStream t.reads ++ t.ddc.outq = outputStream s.reads ++ out
        ∧ t.ddc.outLen.toNat = out.length ∧ rleStream (w :: h :: payload) = some out

/-- R144, R149: once a command's input is complete, a HOST that reads OUT_DATA often enough ends the run, for every
OUT_DEPTH of at least 1, when the ENGINE takes its enabled steps (the turns are the model's own here, log 2). -/
def Obligations.DrainingReadsEndTheRun : Prop :=
  ∀ (depth n : Nat) (s : State), 1 ≤ depth → s.Inv depth → s.ddc.phase ≠ .load → s.turns = [] →
    s.bus = List.replicate n (rd .outData) →
    s.ddc.outq.length
      + (if s.ddc.phase = .count then 6 + (runs (bits s.ddc.payload)).length
        else if s.ddc.phase = .emit then s.ddc.outLen.toNat - s.ddc.eidx.toNat else 0) ≤ n →
    ∃ (k : Nat) (t : State), runAt depth k s = .next t ∧ t.over = true
end

