-- ==== Sys2Proof/Laws/Decode.lean ====
section
/-! SUPPORT. The small lemmas of the selector fields and of the host notation. -/

namespace Sys2Proof

/-- Every register is the one its index selects (10_state.md section 3). -/
@[simp] theorem portOf_index (p : Port) : portOf p.index = p := by cases p <;> rfl

/-- Every index is the index of the register it selects. -/
@[simp] theorem index_portOf (i : BitVec 3) : (portOf i).index = i := by revert i; decide

@[simp] theorem wr_we (p : Port) (v : Word) : (wr p v).we = true := by
  show (0x8#4 ||| p.index.setWidth 4).getLsbD 3 = true
  cases p <;> rfl

@[simp] theorem wr_idx (p : Port) (v : Word) : (wr p v).idx = p.index := by
  show (0x8#4 ||| p.index.setWidth 4).extractLsb' 0 3 = p.index
  cases p <;> rfl

@[simp] theorem wr_data (p : Port) (v : Word) : (wr p v).data = v := rfl

@[simp] theorem rd_we (p : Port) : (rd p).we = false := by cases p <;> rfl

@[simp] theorem rd_idx (p : Port) : (rd p).idx = p.index := by cases p <;> rfl

@[simp] theorem rd_data (p : Port) : (rd p).data = 0#32 := rfl

/-- `rd REG` is the read of that register. -/
@[simp] theorem decode_rd (p : Port) : decode (rd p) = readInstr p := by simp [decode]

/-- `wr REG, v` is the write of that register. -/
@[simp] theorem decode_wr (p : Port) (v : Word) : decode (wr p v) = writeInstr p v := by simp [decode]

/-- A command word's reading, and every other word's (30_encoding.md R56, R61). -/
theorem commandOf_cases (d : Word) :
    (d = 1#32 ∧ commandOf d = .enc) ∨ (d = 2#32 ∧ commandOf d = .encRle) ∨ (d = 3#32 ∧ commandOf d = .rle) ∨
      (isCommandWord d = false ∧ commandOf d = .wrCmd d) := by
  unfold commandOf isCommandWord
  by_cases h1 : d = 1#32
  · simp [h1]
  · by_cases h2 : d = 2#32
    · simp [h2]
    · by_cases h3 : d = 3#32
      · simp [h3]
      · simp [h1, h2, h3]

end Sys2Proof
end

