-- ==== Sys2Proof/Laws/Formats.lean ====
section
/-! SUPPORT. Small laws of the formats: lengths, bits, and the arithmetic of a frame. -/

namespace Sys2Proof.Machine

theorem bpr_le (w : BitVec 8) : bpr w.toNat ≤ 32 := by
  have := w.isLt
  unfold bpr ceilDiv
  omega

theorem bpr_eq_zero_iff (w : Nat) : bpr w = 0 ↔ w = 0 := by
  unfold bpr ceilDiv
  omega

/-- A column of a row lies in one of the row's bytes. -/
theorem col_div_lt_bpr {w c : Nat} (h : c < w) : c / 8 < bpr w := by
  unfold bpr ceilDiv
  omega

/-- The group of column c is the last of its row exactly when the row's bytes end with it. -/
theorem bpr_eq_of_last {w c : Nat} (h : c + 1 = w) : bpr w = c / 8 + 1 := by
  unfold bpr ceilDiv
  omega

/-- L is at most PBUF_BYTES (00_scope.md R7). -/
theorem Ddc.len_le (d : Ddc) : d.len ≤ pbufBytes := by
  have hw := bpr_le d.curW
  have hh := d.curH.isLt
  calc d.len ≤ 255 * 32 := Nat.mul_le_mul (by omega) hw
    _ = pbufBytes := rfl

theorem Ddc.len_eq_zero_iff (d : Ddc) : d.len = 0 ↔ d.curW = 0#8 ∨ d.curH = 0#8 := by
  simp only [Ddc.len, Nat.mul_eq_zero, bpr_eq_zero_iff]
  constructor
  · rintro (h | h)
    · exact .inr (BitVec.eq_of_toNat_eq h)
    · exact .inl (BitVec.eq_of_toNat_eq h)
  · rintro (h | h) <;> simp [h]

@[simp] theorem byteBits_length (b : Byte) : (byteBits b).length = 8 := rfl

@[simp] theorem bits_nil : bits [] = [] := rfl

@[simp] theorem bits_cons (b : Byte) (bs : List Byte) : bits (b :: bs) = byteBits b ++ bits bs := rfl

@[simp] theorem bits_length (bs : List Byte) : (bits bs).length = 8 * bs.length := by
  induction bs with
  | nil => rfl
  | cons b bs ih => simp [ih]; omega

/-- Bit i of the stream is bit 7 - i mod 8 of byte i div 8 (00_scope.md R11). -/
theorem bits_getElem? (bs : List Byte) (i : Nat) : (bits bs)[i]? = bs[i / 8]?.map (fun b => b.getLsbD (7 - i % 8)) := by
  induction bs generalizing i with
  | nil => simp
  | cons b bs ih =>
    rw [bits_cons]
    by_cases h : i < 8
    · rw [List.getElem?_append_left (by simpa using h), Nat.div_eq_of_lt h, Nat.mod_eq_of_lt h]
      interval_cases i <;> rfl
    · rw [List.getElem?_append_right (by simpa using h), byteBits_length, ih]
      obtain ⟨k, rfl⟩ : ∃ k, i = k + 8 := ⟨i - 8, by omega⟩
      simp

@[simp] theorem Ddc.payload_length (d : Ddc) : d.payload.length = d.len := by simp [Ddc.payload]

theorem Ddc.payload_getElem? (d : Ddc) {i : Nat} (h : i < d.len) : d.payload[i]? = some (pbufRead d i) := by
  simp [Ddc.payload, h]

/-- The bit the COUNT phase reads at an index is that bit of the payload's bit stream (42_run_length.md R91). -/
theorem payloadBit_eq (d : Ddc) {i : Nat} (h : i < 8 * d.len) : (bits d.payload)[i]? = some (payloadBit d i) := by
  rw [bits_getElem?, d.payload_getElem? (by omega)]
  rfl

@[simp] theorem be32_length (c : Word) : (be32 c).length = 4 := rfl

@[simp] theorem runbytes_length (s : List Bool) : (runbytes s).length = (runs s).length := by simp [runbytes]

/-- A placed bit stands in its column's bit, most significant first (20_memory.md R43). -/
theorem placeBit_getLsbD (p : Bool) (j i : Nat) : (placeBit p j).getLsbD i = (p && decide (i = 7 - j % 8)) := by
  unfold placeBit
  by_cases hi : i < 8
  · have hj : j % 8 < 8 := Nat.mod_lt _ (by omega)
    generalize j % 8 = k at hj ⊢
    interval_cases k <;> interval_cases i <;> cases p <;> rfl
  · rw [BitVec.getLsbD_of_ge _ _ (by omega)]
    have : i ≠ 7 - j % 8 := by omega
    simp [this]

end Sys2Proof.Machine
end

