-- ==== Sys2Proof/Laws/Memory.lean ====
section
/-! SUPPORT. The laws of PBUF: read after write, and the canonical form that every write keeps. -/

namespace Sys2Proof.Machine

@[simp] theorem Memory.get?_nil (x : Nat) : Memory.get? [] x = none := rfl

@[simp] theorem Memory.wf_nil : Memory.wf [] = true := rfl

/-- The reset state's PBUF has the canonical form. -/
theorem State.reset_pbuf_wf : State.reset.ddc.pbuf.wf = true := rfl

@[simp] theorem Memory.get?_set_same (m : Memory) (x : Nat) (v : Byte) : (m.set x v).get? x = some v := by
  induction m with
  | nil => simp [Memory.set, Memory.get?]
  | cons c m ih =>
    obtain ⟨a, b⟩ := c
    simp only [Memory.set]
    split
    · simp [Memory.get?]
    · split
      · simp [Memory.get?, *]
      · simp [Memory.get?, *]

theorem Memory.get?_set_other (m : Memory) {x y : Nat} (v : Byte) (h : y ≠ x) : (m.set x v).get? y = m.get? y := by
  induction m with
  | nil => simp [Memory.set, Memory.get?, h]
  | cons c m ih =>
    obtain ⟨a, b⟩ := c
    simp only [Memory.set]
    split
    · simp [Memory.get?, h]
    · split
      · simp_all [Memory.get?]
      · simp [Memory.get?, ih]

theorem Memory.risesAbove_mono {n k : Nat} {m : Memory} (hk : k ≤ n) (h : Memory.risesAbove n m = true) :
    Memory.risesAbove k m = true := by
  cases m with
  | nil => rfl
  | cons c m =>
    simp only [Memory.risesAbove, Bool.and_eq_true, decide_eq_true_eq] at h ⊢
    exact ⟨by omega, h.2⟩

theorem Memory.risesAbove_set {m : Memory} {n x : Nat} (v : Byte) (hx : n ≤ x) (h : Memory.risesAbove n m = true) :
    Memory.risesAbove n (m.set x v) = true := by
  induction m generalizing n with
  | nil => simp [Memory.set, Memory.risesAbove, hx]
  | cons c m ih =>
    obtain ⟨a, b⟩ := c
    simp only [Memory.risesAbove, Bool.and_eq_true, decide_eq_true_eq] at h
    simp only [Memory.set]
    split
    · simp only [Memory.risesAbove, Bool.and_eq_true, decide_eq_true_eq]
      exact ⟨hx, by omega, h.2⟩
    · split
      · simp only [Memory.risesAbove, Bool.and_eq_true, decide_eq_true_eq]
        exact h
      · simp only [Memory.risesAbove, Bool.and_eq_true, decide_eq_true_eq]
        exact ⟨h.1, ih (by omega) h.2⟩

theorem Memory.all_set {m : Memory} {x : Nat} (v : Byte) (q : Host.Cell → Bool) (hx : q (x, v) = true)
    (h : m.all q = true) : (m.set x v).all q = true := by
  induction m with
  | nil => simpa [Memory.set] using hx
  | cons c m ih =>
    obtain ⟨a, b⟩ := c
    simp only [List.all_cons, Bool.and_eq_true] at h
    simp only [Memory.set]
    split
    · simp [hx, h.1, h.2]
    · split
      · next ha => subst ha; simp [hx, h.2]
      · simp [h.1, ih h.2]

/-- A write at an address of PBUF keeps the canonical form. -/
theorem Memory.wf_set {m : Memory} {x : Nat} (v : Byte) (hx : x < pbufBytes) (h : m.wf = true) :
    (m.set x v).wf = true := by
  simp only [Memory.wf, Bool.and_eq_true] at h ⊢
  exact ⟨Memory.risesAbove_set v (Nat.zero_le x) h.1, Memory.all_set v _ (by simpa using hx) h.2⟩

theorem Memory.get?_below {m : Memory} {n x : Nat} (h : Memory.risesAbove n m = true) (hx : x < n) :
    m.get? x = none := by
  induction m generalizing n with
  | nil => rfl
  | cons c m ih =>
    obtain ⟨a, b⟩ := c
    simp only [Memory.risesAbove, Bool.and_eq_true, decide_eq_true_eq] at h
    rw [Memory.get?, if_neg (by omega)]
    exact ih h.2 (by omega)

theorem Memory.ext_of_risesAbove {m k : Memory} {n : Nat} (hm : Memory.risesAbove n m = true)
    (hk : Memory.risesAbove n k = true) (h : ∀ x, m.get? x = k.get? x) : m = k := by
  induction m generalizing k n with
  | nil =>
    cases k with
    | nil => rfl
    | cons c k => have := h c.1; simp [Memory.get?] at this
  | cons c m ih =>
    obtain ⟨a, b⟩ := c
    cases k with
    | nil => have := h a; simp [Memory.get?] at this
    | cons e k =>
      obtain ⟨a', b'⟩ := e
      simp only [Memory.risesAbove, Bool.and_eq_true, decide_eq_true_eq] at hm hk
      have hab : a = a' := by
        rcases Nat.lt_trichotomy a a' with hlt | heq | hgt
        · have := h a
          rw [Memory.get?, if_pos rfl, Memory.get?, if_neg (by omega), Memory.get?_below hk.2 (by omega)] at this
          cases this
        · exact heq
        · have := h a'
          rw [Memory.get?, if_neg (by omega), Memory.get?_below hm.2 (by omega), Memory.get?, if_pos rfl] at this
          cases this
      subst hab
      have hb : b = b' := by simpa [Memory.get?] using h a
      subst hb
      congr 1
      refine ih hm.2 hk.2 fun x => ?_
      by_cases hx : x = a
      · subst hx
        rw [Memory.get?_below hm.2 (by omega), Memory.get?_below hk.2 (by omega)]
      · simpa [Memory.get?, hx] using h x

/-- In canonical form, memories that hold the same bytes are the same list. -/
theorem Memory.ext {m k : Memory} (hm : m.wf = true) (hk : k.wf = true) (h : ∀ x, m.get? x = k.get? x) : m = k := by
  simp only [Memory.wf, Bool.and_eq_true] at hm hk
  exact Memory.ext_of_risesAbove hm.1 hk.1 h

/-- What a PBUF write can do: in range it sets that byte alone, out of range it faults. -/
theorem pbufWrite_cases (d : Ddc) (i : Nat) (v : Byte) :
    (i < pbufBytes ∧ pbufWrite d i v = .ok { d with pbuf := d.pbuf.set i v }) ∨
      (pbufBytes ≤ i ∧ pbufWrite d i v = .error .pbufOutOfRange) := by
  unfold pbufWrite
  split
  · exact .inl ⟨‹_›, rfl⟩
  · exact .inr ⟨by omega, rfl⟩

/-- Reading back a byte that was set gives it. -/
theorem pbufRead_set_same (d : Ddc) (i : Nat) (v : Byte) : pbufRead { d with pbuf := d.pbuf.set i v } i = v := by
  simp [pbufRead]

/-- Setting a byte leaves every other byte as it reads. -/
theorem pbufRead_set_other (d : Ddc) {i a : Nat} (v : Byte) (h : a ≠ i) :
    pbufRead { d with pbuf := d.pbuf.set i v } a = pbufRead d a := by
  simp [pbufRead, Memory.get?_set_other _ _ h]

end Sys2Proof.Machine
end

