-- ==== Sys2Proof/Laws/Ops.lean ====
section
/-! SUPPORT. What each shared operation can do, said once. -/

namespace Sys2Proof.Machine

/-- `raise Err`: the first error is kept, and nothing else changes (60_exceptions.md R125). -/
theorem raiseErr_cases (c : ErrCode) (d : Ddc) :
    (d.err = 0#4 ∧ raiseErr c d = { d with err := c.code }) ∨ (d.err ≠ 0#4 ∧ raiseErr c d = d) := by
  unfold raiseErr
  split
  · exact .inl ⟨‹_›, rfl⟩
  · exact .inr ⟨‹_›, rfl⟩

theorem raiseErr_eq (c : ErrCode) (d : Ddc) :
    raiseErr c d = { d with err := if d.err = 0#4 then c.code else d.err } := by
  unfold raiseErr
  split <;> rfl

/-- LOAD_COMPLETE, by the operation in progress (40_row_packer.md R75). -/
theorem loadComplete_cases (d : Ddc) :
    (d.opc = .enc ∧
      loadComplete d = { d with outLen := BitVec.ofNat 32 (2 + d.len), eidx := 0#17, phase := .emit }) ∨
    (d.opc ≠ .enc ∧ loadComplete d = { d with rs := RunState.empty, bidx := 0#17, phase := .count }) := by
  unfold loadComplete
  split
  · exact .inl ⟨‹_›, rfl⟩
  · exact .inr ⟨‹_›, rfl⟩

/-- A CMD word is its two fields (30_encoding.md R56). -/
theorem cmdWord_fields (w : Word) : w = rsvField w ++ opField w := by
  apply BitVec.eq_of_getLsbD_eq
  intro i hi
  rw [BitVec.getLsbD_append]
  by_cases h : i < 4
  · simp [h, opField]
  · simp only [h, if_false, rsvField, BitVec.getLsbD_extractLsb']
    rw [show 4 + (i - 4) = i by omega]
    simp [show i - 4 < 28 by omega]

/-- The legal CMD words are 1, 2 and 3 (30_encoding.md R56, R61). -/
theorem legalOp_eq (w : Word) :
    legalOp w =
      if w = 1#32 then some .enc else if w = 2#32 then some .encRle else if w = 3#32 then some .rle else none := by
  have hw := cmdWord_fields w
  unfold legalOp
  generalize rsvField w = hi at hw ⊢
  generalize opField w = lo at hw ⊢
  subst hw
  by_cases hh : hi = 0#28
  · subst hh; revert lo; decide
  · have key : ∀ n : Nat, n < 16 → hi ++ lo ≠ BitVec.ofNat 32 n := by
      intro n hn e
      have e := congrArg BitVec.toNat e
      rw [BitVec.toNat_append, Nat.shiftLeft_eq, Nat.mul_comm, ← Nat.two_pow_add_eq_or_of_lt lo.isLt] at e
      have hp : 0 < hi.toNat := Nat.pos_of_ne_zero fun h0 => hh (BitVec.eq_of_toNat_eq (by simpa using h0))
      simp at e
      omega
    rw [if_neg hh, if_neg (key 1 (by omega)), if_neg (key 2 (by omega)), if_neg (key 3 (by omega))]

theorem cmdWrite_busy {d : Ddc} (w : Word) (h : d.phase ≠ .idle) : cmdWrite w d = raiseErr .cmdWhileBusy d := by
  simp [cmdWrite, h]

theorem cmdWrite_illegal {w : Word} {d : Ddc} (h : d.phase = .idle) (hl : legalOp w = none) :
    cmdWrite w d = raiseErr .illegalCmd d := by
  simp [cmdWrite, h, hl]

theorem cmdWrite_legal {w : Word} {d : Ddc} {op : Opc} (h : d.phase = .idle) (hl : legalOp w = some op) :
    cmdWrite w d = accept op d := by
  simp [cmdWrite, h, hl]

theorem dimTooLarge_eq_false_iff (w : Word) :
    dimTooLarge w = false ↔ (widthField w).toNat ≤ 255 ∧ (heightField w).toNat ≤ 255 := by
  simp [dimTooLarge]

/-- A CMD write, by the condition that decides (43_commands.md R98). -/
theorem cmdWrite_cases (w : Word) (d : Ddc) :
    (d.phase ≠ .idle ∧ cmdWrite w d = raiseErr .cmdWhileBusy d) ∨
    (d.phase = .idle ∧ legalOp w = none ∧ cmdWrite w d = raiseErr .illegalCmd d) ∨
    (∃ op, d.phase = .idle ∧ legalOp w = some op ∧ op ≠ .rle ∧ dimTooLarge d.dim = true ∧
      cmdWrite w d = raiseErr .dimTooLarge d) ∨
    (∃ op, d.phase = .idle ∧ legalOp w = some op ∧ op ≠ .rle ∧ dimTooLarge d.dim = false ∧
      cmdWrite w d = acceptPixels op d) ∨
    (d.phase = .idle ∧ legalOp w = some .rle ∧ cmdWrite w d = acceptFrame d) := by
  unfold cmdWrite
  by_cases hp : d.phase = .idle
  · simp only [hp, ne_eq, not_true, if_false]
    cases hl : legalOp w with
    | none => simp
    | some op =>
      by_cases hr : op = .rle
      · simp [accept, hr]
      · cases hd : dimTooLarge d.dim <;> simp [accept, hr, hd]
  · simp [hp]

/-- A legal word names ENC, ENC_RLE or RLE (30_encoding.md R56). -/
theorem legalOp_ne_none {w : Word} {op : Opc} (h : legalOp w = some op) : op ≠ .none := by
  unfold legalOp opOf at h
  repeat' split at h
  all_goals simp_all
  all_goals subst h; simp

/-- What a complete group's store can do (40_row_packer.md R74). -/
theorem storeGroup_cases (d : Ddc) :
    (groupComplete d = false ∧ storeGroup d = .ok d) ∨
    (groupComplete d = true ∧ groupAddr d < pbufBytes ∧
      storeGroup d = .ok { d with pbuf := d.pbuf.set (groupAddr d) d.acc, acc := 0#8 }) ∨
    (groupComplete d = true ∧ pbufBytes ≤ groupAddr d ∧ storeGroup d = .error .pbufOutOfRange) := by
  unfold storeGroup
  cases hg : groupComplete d with
  | false => simp
  | true =>
    rcases pbufWrite_cases d (groupAddr d) d.acc with ⟨h, he⟩ | ⟨h, he⟩
    · simp [he, h, Except.map]
    · simp [he, h, Except.map]

/-- What the end of a pixel's step can do (40_row_packer.md R74). -/
theorem endRow_cases (d : Ddc) :
    (d.col ≠ d.curW ∧ endRow d = d) ∨
    (d.col = d.curW ∧ d.row + 1#8 ≠ d.curH ∧ endRow d = { d with col := 0#8, row := d.row + 1#8 }) ∨
    (d.col = d.curW ∧ d.row + 1#8 = d.curH ∧ endRow d = loadComplete { d with col := 0#8, row := d.row + 1#8 }) := by
  unfold endRow
  by_cases hc : d.col = d.curW
  · by_cases hr : d.row + 1#8 = d.curH
    · simp [hc, hr]
    · simp [hc, hr]
  · simp [hc]

/-- What a frame byte's step can do (42_run_length.md R90). -/
theorem loadFrameByte_cases (w : Word) (d : Ddc) :
    (d.hdrCnt = 0#2 ∧ loadFrameByte w d = .ok (loadWidth (inByte w) d)) ∨
    (d.hdrCnt = 1#2 ∧ loadFrameByte w d = .ok (loadHeight (inByte w) d)) ∨
    (d.hdrCnt ≠ 0#2 ∧ d.hdrCnt ≠ 1#2 ∧ d.pidx.toNat < pbufBytes ∧
      loadFrameByte w d = .ok (advancePidx { d with pbuf := d.pbuf.set d.pidx.toNat (inByte w) })) ∨
    (d.hdrCnt ≠ 0#2 ∧ d.hdrCnt ≠ 1#2 ∧ pbufBytes ≤ d.pidx.toNat ∧ loadFrameByte w d = .error .pbufOutOfRange) := by
  unfold loadFrameByte
  by_cases h0 : d.hdrCnt = 0#2
  · simp [h0]
  · by_cases h1 : d.hdrCnt = 1#2
    · simp [h1]
    · rcases pbufWrite_cases d d.pidx.toNat (inByte w) with ⟨h, he⟩ | ⟨h, he⟩
      · simp [h0, h1, he, h, Except.map]
      · simp [h0, h1, he, h, Except.map]

/-- What an IN_DATA write can do (44_host_bus.md R119). -/
theorem inDataWrite_cases (w : Word) (d : Ddc) :
    (d.phase = .load ∧ (d.opc = .enc ∨ d.opc = .encRle) ∧ inDataWrite w d = packPixel w d) ∨
    (d.phase = .load ∧ d.opc = .rle ∧ inDataWrite w d = loadFrameByte w d) ∨
    ((d.phase ≠ .load ∨ d.opc = .none) ∧ inDataWrite w d = .ok (raiseErr .inUnexpected d)) := by
  unfold inDataWrite
  by_cases hp : d.phase = .load
  · cases ho : d.opc <;> simp [hp]
  · simp [hp]

end Sys2Proof.Machine
end

