-- ==== Sys2Proof/Laws/PerInstr.lean ====
section
/-! SUPPORT. Statements made for every instruction, one lemma per constructor. -/

namespace Sys2Proof.Laws.SelectorFields

/-- The selector of an instruction's bus access has WE = 0 for a read and 1 for a write, and the index of a register
(30_encoding.md R55; 10_state.md section 3); a read presents no data. -/
def Statement (i : Instr) : Prop :=
  (encode i).we = !i.isRead ∧ (portOf (encode i).idx).index = (encode i).idx ∧ (i.isRead = true → (encode i).data = 0#32)

theorem rdCmd : Statement .rdCmd := ⟨rd_we _, index_portOf _, fun _ => rfl⟩
theorem rdDim : Statement .rdDim := ⟨rd_we _, index_portOf _, fun _ => rfl⟩
theorem rdStatus : Statement .rdStatus := ⟨rd_we _, index_portOf _, fun _ => rfl⟩
theorem rdInData : Statement .rdInData := ⟨rd_we _, index_portOf _, fun _ => rfl⟩
theorem rdOutData : Statement .rdOutData := ⟨rd_we _, index_portOf _, fun _ => rfl⟩
theorem rdRunCount : Statement .rdRunCount := ⟨rd_we _, index_portOf _, fun _ => rfl⟩
theorem rdOutLen : Statement .rdOutLen := ⟨rd_we _, index_portOf _, fun _ => rfl⟩
theorem rdRsv : Statement .rdRsv := ⟨rd_we _, index_portOf _, fun _ => rfl⟩
theorem wrCmd (d : Word) : Statement (.wrCmd d) := ⟨wr_we _ _, index_portOf _, fun h => by cases h⟩
theorem wrDim (d : Word) : Statement (.wrDim d) := ⟨wr_we _ _, index_portOf _, fun h => by cases h⟩
theorem wrStatus (d : Word) : Statement (.wrStatus d) := ⟨wr_we _ _, index_portOf _, fun h => by cases h⟩
theorem wrInData (d : Word) : Statement (.wrInData d) := ⟨wr_we _ _, index_portOf _, fun h => by cases h⟩
theorem wrOutData (d : Word) : Statement (.wrOutData d) := ⟨wr_we _ _, index_portOf _, fun h => by cases h⟩
theorem wrRunCount (d : Word) : Statement (.wrRunCount d) := ⟨wr_we _ _, index_portOf _, fun h => by cases h⟩
theorem wrOutLen (d : Word) : Statement (.wrOutLen d) := ⟨wr_we _ _, index_portOf _, fun h => by cases h⟩
theorem wrRsv (d : Word) : Statement (.wrRsv d) := ⟨wr_we _ _, index_portOf _, fun h => by cases h⟩
theorem enc : Statement .enc := ⟨wr_we _ _, index_portOf _, fun h => by cases h⟩
theorem encRle : Statement .encRle := ⟨wr_we _ _, index_portOf _, fun h => by cases h⟩
theorem rle : Statement .rle := ⟨wr_we _ _, index_portOf _, fun h => by cases h⟩

end Sys2Proof.Laws.SelectorFields
end

