-- ==== Sys2Proof/Laws/State.lean ====
section
/-! SUPPORT. One lemma per field for each named update of the state, so that no proof unfolds a record update. -/

namespace Sys2Proof.Machine

/-! ## The HOST's side -/

@[simp] theorem State.returns_ddc (s : State) (p : Port) (v : Word) : (s.returns p v).ddc = s.ddc := rfl
@[simp] theorem State.returns_bus (s : State) (p : Port) (v : Word) : (s.returns p v).bus = s.bus := rfl
@[simp] theorem State.returns_reads (s : State) (p : Port) (v : Word) : (s.returns p v).reads = s.reads ++ [⟨p, v⟩] :=
  rfl
@[simp] theorem State.returns_turns (s : State) (p : Port) (v : Word) : (s.returns p v).turns = s.turns := rfl

@[simp] theorem resetEvent_ddc (s : State) : (resetEvent s).ddc = Ddc.reset (s.ddc.pbufEpoch + 1) := rfl
@[simp] theorem resetEvent_bus (s : State) : (resetEvent s).bus = s.bus := rfl
@[simp] theorem resetEvent_reads (s : State) : (resetEvent s).reads = s.reads := rfl
@[simp] theorem resetEvent_turns (s : State) : (resetEvent s).turns = s.turns := rfl

theorem State.after_ok (s : State) (d : Ddc) : s.after (.ok d) = .next { s with ddc := d } := rfl

theorem State.after_error (s : State) (f : Fault) : s.after (.error f) = .fault f := rfl

/-- What an access list gives up: nothing, or its head. -/
theorem State.fetch_cons {s : State} {a : BusAccess} {rest : List BusAccess} (h : s.bus = a :: rest) :
    s.fetch = some (a, { s with bus := rest }) := by simp [State.fetch, h]

theorem State.fetch_nil {s : State} (h : s.bus = []) : s.fetch = none := by simp [State.fetch, h]

/-! ## Errors -/

@[simp] theorem raiseErr_dim (c : ErrCode) (d : Ddc) : (raiseErr c d).dim = d.dim := by unfold raiseErr; split <;> rfl
@[simp] theorem raiseErr_done (c : ErrCode) (d : Ddc) : (raiseErr c d).done = d.done :=
  by unfold raiseErr; split <;> rfl
@[simp] theorem raiseErr_err (c : ErrCode) (d : Ddc) : (raiseErr c d).err = if d.err = 0#4 then c.code else d.err :=
  by unfold raiseErr; split <;> simp_all
@[simp] theorem raiseErr_runCount (c : ErrCode) (d : Ddc) : (raiseErr c d).runCount = d.runCount :=
  by unfold raiseErr; split <;> rfl
@[simp] theorem raiseErr_outLen (c : ErrCode) (d : Ddc) : (raiseErr c d).outLen = d.outLen :=
  by unfold raiseErr; split <;> rfl
@[simp] theorem raiseErr_phase (c : ErrCode) (d : Ddc) : (raiseErr c d).phase = d.phase :=
  by unfold raiseErr; split <;> rfl
@[simp] theorem raiseErr_opc (c : ErrCode) (d : Ddc) : (raiseErr c d).opc = d.opc := by unfold raiseErr; split <;> rfl
@[simp] theorem raiseErr_curW (c : ErrCode) (d : Ddc) : (raiseErr c d).curW = d.curW :=
  by unfold raiseErr; split <;> rfl
@[simp] theorem raiseErr_curH (c : ErrCode) (d : Ddc) : (raiseErr c d).curH = d.curH :=
  by unfold raiseErr; split <;> rfl
@[simp] theorem raiseErr_row (c : ErrCode) (d : Ddc) : (raiseErr c d).row = d.row := by unfold raiseErr; split <;> rfl
@[simp] theorem raiseErr_col (c : ErrCode) (d : Ddc) : (raiseErr c d).col = d.col := by unfold raiseErr; split <;> rfl
@[simp] theorem raiseErr_acc (c : ErrCode) (d : Ddc) : (raiseErr c d).acc = d.acc := by unfold raiseErr; split <;> rfl
@[simp] theorem raiseErr_hdrCnt (c : ErrCode) (d : Ddc) : (raiseErr c d).hdrCnt = d.hdrCnt :=
  by unfold raiseErr; split <;> rfl
@[simp] theorem raiseErr_pidx (c : ErrCode) (d : Ddc) : (raiseErr c d).pidx = d.pidx :=
  by unfold raiseErr; split <;> rfl
@[simp] theorem raiseErr_rs (c : ErrCode) (d : Ddc) : (raiseErr c d).rs = d.rs := by unfold raiseErr; split <;> rfl
@[simp] theorem raiseErr_bidx (c : ErrCode) (d : Ddc) : (raiseErr c d).bidx = d.bidx :=
  by unfold raiseErr; split <;> rfl
@[simp] theorem raiseErr_eidx (c : ErrCode) (d : Ddc) : (raiseErr c d).eidx = d.eidx :=
  by unfold raiseErr; split <;> rfl
@[simp] theorem raiseErr_pbuf (c : ErrCode) (d : Ddc) : (raiseErr c d).pbuf = d.pbuf :=
  by unfold raiseErr; split <;> rfl
@[simp] theorem raiseErr_pbufEpoch (c : ErrCode) (d : Ddc) : (raiseErr c d).pbufEpoch = d.pbufEpoch :=
  by unfold raiseErr; split <;> rfl
@[simp] theorem raiseErr_outq (c : ErrCode) (d : Ddc) : (raiseErr c d).outq = d.outq :=
  by unfold raiseErr; split <;> rfl

@[simp] theorem clearStatus_dim (w : Word) (d : Ddc) : (clearStatus w d).dim = d.dim := rfl
@[simp] theorem clearStatus_done (w : Word) (d : Ddc) : (clearStatus w d).done = if doneClr w then false else d.done :=
  rfl
@[simp] theorem clearStatus_err (w : Word) (d : Ddc) : (clearStatus w d).err = if errClr w then 0#4 else d.err := rfl
@[simp] theorem clearStatus_runCount (w : Word) (d : Ddc) : (clearStatus w d).runCount = d.runCount := rfl
@[simp] theorem clearStatus_outLen (w : Word) (d : Ddc) : (clearStatus w d).outLen = d.outLen := rfl
@[simp] theorem clearStatus_phase (w : Word) (d : Ddc) : (clearStatus w d).phase = d.phase := rfl
@[simp] theorem clearStatus_opc (w : Word) (d : Ddc) : (clearStatus w d).opc = d.opc := rfl
@[simp] theorem clearStatus_curW (w : Word) (d : Ddc) : (clearStatus w d).curW = d.curW := rfl
@[simp] theorem clearStatus_curH (w : Word) (d : Ddc) : (clearStatus w d).curH = d.curH := rfl
@[simp] theorem clearStatus_row (w : Word) (d : Ddc) : (clearStatus w d).row = d.row := rfl
@[simp] theorem clearStatus_col (w : Word) (d : Ddc) : (clearStatus w d).col = d.col := rfl
@[simp] theorem clearStatus_acc (w : Word) (d : Ddc) : (clearStatus w d).acc = d.acc := rfl
@[simp] theorem clearStatus_hdrCnt (w : Word) (d : Ddc) : (clearStatus w d).hdrCnt = d.hdrCnt := rfl
@[simp] theorem clearStatus_pidx (w : Word) (d : Ddc) : (clearStatus w d).pidx = d.pidx := rfl
@[simp] theorem clearStatus_rs (w : Word) (d : Ddc) : (clearStatus w d).rs = d.rs := rfl
@[simp] theorem clearStatus_bidx (w : Word) (d : Ddc) : (clearStatus w d).bidx = d.bidx := rfl
@[simp] theorem clearStatus_eidx (w : Word) (d : Ddc) : (clearStatus w d).eidx = d.eidx := rfl
@[simp] theorem clearStatus_pbuf (w : Word) (d : Ddc) : (clearStatus w d).pbuf = d.pbuf := rfl
@[simp] theorem clearStatus_pbufEpoch (w : Word) (d : Ddc) : (clearStatus w d).pbufEpoch = d.pbufEpoch := rfl
@[simp] theorem clearStatus_outq (w : Word) (d : Ddc) : (clearStatus w d).outq = d.outq := rfl

/-! ## Loading -/

@[simp] theorem placePixel_dim (p : Bool) (d : Ddc) : (placePixel p d).dim = d.dim := rfl
@[simp] theorem placePixel_done (p : Bool) (d : Ddc) : (placePixel p d).done = d.done := rfl
@[simp] theorem placePixel_err (p : Bool) (d : Ddc) : (placePixel p d).err = d.err := rfl
@[simp] theorem placePixel_runCount (p : Bool) (d : Ddc) : (placePixel p d).runCount = d.runCount := rfl
@[simp] theorem placePixel_outLen (p : Bool) (d : Ddc) : (placePixel p d).outLen = d.outLen := rfl
@[simp] theorem placePixel_phase (p : Bool) (d : Ddc) : (placePixel p d).phase = d.phase := rfl
@[simp] theorem placePixel_opc (p : Bool) (d : Ddc) : (placePixel p d).opc = d.opc := rfl
@[simp] theorem placePixel_curW (p : Bool) (d : Ddc) : (placePixel p d).curW = d.curW := rfl
@[simp] theorem placePixel_curH (p : Bool) (d : Ddc) : (placePixel p d).curH = d.curH := rfl
@[simp] theorem placePixel_row (p : Bool) (d : Ddc) : (placePixel p d).row = d.row := rfl
@[simp] theorem placePixel_col (p : Bool) (d : Ddc) : (placePixel p d).col = d.col + 1#8 := rfl
@[simp] theorem placePixel_acc (p : Bool) (d : Ddc) : (placePixel p d).acc = d.acc ||| placeBit p d.col.toNat := rfl
@[simp] theorem placePixel_hdrCnt (p : Bool) (d : Ddc) : (placePixel p d).hdrCnt = d.hdrCnt := rfl
@[simp] theorem placePixel_pidx (p : Bool) (d : Ddc) : (placePixel p d).pidx = d.pidx := rfl
@[simp] theorem placePixel_rs (p : Bool) (d : Ddc) : (placePixel p d).rs = d.rs := rfl
@[simp] theorem placePixel_bidx (p : Bool) (d : Ddc) : (placePixel p d).bidx = d.bidx := rfl
@[simp] theorem placePixel_eidx (p : Bool) (d : Ddc) : (placePixel p d).eidx = d.eidx := rfl
@[simp] theorem placePixel_pbuf (p : Bool) (d : Ddc) : (placePixel p d).pbuf = d.pbuf := rfl
@[simp] theorem placePixel_pbufEpoch (p : Bool) (d : Ddc) : (placePixel p d).pbufEpoch = d.pbufEpoch := rfl
@[simp] theorem placePixel_outq (p : Bool) (d : Ddc) : (placePixel p d).outq = d.outq := rfl

@[simp] theorem loadWidth_dim (v : Byte) (d : Ddc) : (loadWidth v d).dim = d.dim := rfl
@[simp] theorem loadWidth_done (v : Byte) (d : Ddc) : (loadWidth v d).done = d.done := rfl
@[simp] theorem loadWidth_err (v : Byte) (d : Ddc) : (loadWidth v d).err = d.err := rfl
@[simp] theorem loadWidth_runCount (v : Byte) (d : Ddc) : (loadWidth v d).runCount = d.runCount := rfl
@[simp] theorem loadWidth_outLen (v : Byte) (d : Ddc) : (loadWidth v d).outLen = d.outLen := rfl
@[simp] theorem loadWidth_phase (v : Byte) (d : Ddc) : (loadWidth v d).phase = d.phase := rfl
@[simp] theorem loadWidth_opc (v : Byte) (d : Ddc) : (loadWidth v d).opc = d.opc := rfl
@[simp] theorem loadWidth_curW (v : Byte) (d : Ddc) : (loadWidth v d).curW = v := rfl
@[simp] theorem loadWidth_curH (v : Byte) (d : Ddc) : (loadWidth v d).curH = d.curH := rfl
@[simp] theorem loadWidth_row (v : Byte) (d : Ddc) : (loadWidth v d).row = d.row := rfl
@[simp] theorem loadWidth_col (v : Byte) (d : Ddc) : (loadWidth v d).col = d.col := rfl
@[simp] theorem loadWidth_acc (v : Byte) (d : Ddc) : (loadWidth v d).acc = d.acc := rfl
@[simp] theorem loadWidth_hdrCnt (v : Byte) (d : Ddc) : (loadWidth v d).hdrCnt = 1#2 := rfl
@[simp] theorem loadWidth_pidx (v : Byte) (d : Ddc) : (loadWidth v d).pidx = d.pidx := rfl
@[simp] theorem loadWidth_rs (v : Byte) (d : Ddc) : (loadWidth v d).rs = d.rs := rfl
@[simp] theorem loadWidth_bidx (v : Byte) (d : Ddc) : (loadWidth v d).bidx = d.bidx := rfl
@[simp] theorem loadWidth_eidx (v : Byte) (d : Ddc) : (loadWidth v d).eidx = d.eidx := rfl
@[simp] theorem loadWidth_pbuf (v : Byte) (d : Ddc) : (loadWidth v d).pbuf = d.pbuf := rfl
@[simp] theorem loadWidth_pbufEpoch (v : Byte) (d : Ddc) : (loadWidth v d).pbufEpoch = d.pbufEpoch := rfl
@[simp] theorem loadWidth_outq (v : Byte) (d : Ddc) : (loadWidth v d).outq = d.outq := rfl

@[simp] theorem acceptFrame_dim (d : Ddc) : (acceptFrame d).dim = d.dim := rfl
@[simp] theorem acceptFrame_done (d : Ddc) : (acceptFrame d).done = false := rfl
@[simp] theorem acceptFrame_err (d : Ddc) : (acceptFrame d).err = d.err := rfl
@[simp] theorem acceptFrame_runCount (d : Ddc) : (acceptFrame d).runCount = d.runCount := rfl
@[simp] theorem acceptFrame_outLen (d : Ddc) : (acceptFrame d).outLen = d.outLen := rfl
@[simp] theorem acceptFrame_phase (d : Ddc) : (acceptFrame d).phase = .load := rfl
@[simp] theorem acceptFrame_opc (d : Ddc) : (acceptFrame d).opc = .rle := rfl
@[simp] theorem acceptFrame_curW (d : Ddc) : (acceptFrame d).curW = d.curW := rfl
@[simp] theorem acceptFrame_curH (d : Ddc) : (acceptFrame d).curH = d.curH := rfl
@[simp] theorem acceptFrame_row (d : Ddc) : (acceptFrame d).row = d.row := rfl
@[simp] theorem acceptFrame_col (d : Ddc) : (acceptFrame d).col = d.col := rfl
@[simp] theorem acceptFrame_acc (d : Ddc) : (acceptFrame d).acc = d.acc := rfl
@[simp] theorem acceptFrame_hdrCnt (d : Ddc) : (acceptFrame d).hdrCnt = 0#2 := rfl
@[simp] theorem acceptFrame_pidx (d : Ddc) : (acceptFrame d).pidx = 0#13 := rfl
@[simp] theorem acceptFrame_rs (d : Ddc) : (acceptFrame d).rs = d.rs := rfl
@[simp] theorem acceptFrame_bidx (d : Ddc) : (acceptFrame d).bidx = d.bidx := rfl
@[simp] theorem acceptFrame_eidx (d : Ddc) : (acceptFrame d).eidx = d.eidx := rfl
@[simp] theorem acceptFrame_pbuf (d : Ddc) : (acceptFrame d).pbuf = d.pbuf := rfl
@[simp] theorem acceptFrame_pbufEpoch (d : Ddc) : (acceptFrame d).pbufEpoch = d.pbufEpoch := rfl
@[simp] theorem acceptFrame_outq (d : Ddc) : (acceptFrame d).outq = d.outq := rfl

@[simp] theorem loadComplete_dim (d : Ddc) : (loadComplete d).dim = d.dim := by unfold loadComplete; split <;> rfl
@[simp] theorem loadComplete_done (d : Ddc) : (loadComplete d).done = d.done := by unfold loadComplete; split <;> rfl
@[simp] theorem loadComplete_err (d : Ddc) : (loadComplete d).err = d.err := by unfold loadComplete; split <;> rfl
@[simp] theorem loadComplete_runCount (d : Ddc) : (loadComplete d).runCount = d.runCount :=
  by unfold loadComplete; split <;> rfl
@[simp] theorem loadComplete_outLen (d : Ddc) : (loadComplete d).outLen = if d.opc = .enc then BitVec.ofNat 32 (2 + d.len) else d.outLen :=
  by unfold loadComplete; split <;> rfl
@[simp] theorem loadComplete_phase (d : Ddc) : (loadComplete d).phase = if d.opc = .enc then .emit else .count :=
  by unfold loadComplete; split <;> rfl
@[simp] theorem loadComplete_opc (d : Ddc) : (loadComplete d).opc = d.opc := by unfold loadComplete; split <;> rfl
@[simp] theorem loadComplete_curW (d : Ddc) : (loadComplete d).curW = d.curW := by unfold loadComplete; split <;> rfl
@[simp] theorem loadComplete_curH (d : Ddc) : (loadComplete d).curH = d.curH := by unfold loadComplete; split <;> rfl
@[simp] theorem loadComplete_row (d : Ddc) : (loadComplete d).row = d.row := by unfold loadComplete; split <;> rfl
@[simp] theorem loadComplete_col (d : Ddc) : (loadComplete d).col = d.col := by unfold loadComplete; split <;> rfl
@[simp] theorem loadComplete_acc (d : Ddc) : (loadComplete d).acc = d.acc := by unfold loadComplete; split <;> rfl
@[simp] theorem loadComplete_hdrCnt (d : Ddc) : (loadComplete d).hdrCnt = d.hdrCnt :=
  by unfold loadComplete; split <;> rfl
@[simp] theorem loadComplete_pidx (d : Ddc) : (loadComplete d).pidx = d.pidx := by unfold loadComplete; split <;> rfl
@[simp] theorem loadComplete_rs (d : Ddc) : (loadComplete d).rs = if d.opc = .enc then d.rs else RunState.empty :=
  by unfold loadComplete; split <;> rfl
@[simp] theorem loadComplete_bidx (d : Ddc) : (loadComplete d).bidx = if d.opc = .enc then d.bidx else 0#17 :=
  by unfold loadComplete; split <;> rfl
@[simp] theorem loadComplete_eidx (d : Ddc) : (loadComplete d).eidx = if d.opc = .enc then 0#17 else d.eidx :=
  by unfold loadComplete; split <;> rfl
@[simp] theorem loadComplete_pbuf (d : Ddc) : (loadComplete d).pbuf = d.pbuf := by unfold loadComplete; split <;> rfl
@[simp] theorem loadComplete_pbufEpoch (d : Ddc) : (loadComplete d).pbufEpoch = d.pbufEpoch :=
  by unfold loadComplete; split <;> rfl
@[simp] theorem loadComplete_outq (d : Ddc) : (loadComplete d).outq = d.outq := by unfold loadComplete; split <;> rfl

/-! ## The ENGINE -/

@[simp] theorem countBit_dim (d : Ddc) : (countBit d).dim = d.dim := rfl
@[simp] theorem countBit_done (d : Ddc) : (countBit d).done = d.done := rfl
@[simp] theorem countBit_err (d : Ddc) : (countBit d).err = d.err := rfl
@[simp] theorem countBit_runCount (d : Ddc) : (countBit d).runCount = d.runCount := rfl
@[simp] theorem countBit_outLen (d : Ddc) : (countBit d).outLen = d.outLen := rfl
@[simp] theorem countBit_phase (d : Ddc) : (countBit d).phase = d.phase := rfl
@[simp] theorem countBit_opc (d : Ddc) : (countBit d).opc = d.opc := rfl
@[simp] theorem countBit_curW (d : Ddc) : (countBit d).curW = d.curW := rfl
@[simp] theorem countBit_curH (d : Ddc) : (countBit d).curH = d.curH := rfl
@[simp] theorem countBit_row (d : Ddc) : (countBit d).row = d.row := rfl
@[simp] theorem countBit_col (d : Ddc) : (countBit d).col = d.col := rfl
@[simp] theorem countBit_acc (d : Ddc) : (countBit d).acc = d.acc := rfl
@[simp] theorem countBit_hdrCnt (d : Ddc) : (countBit d).hdrCnt = d.hdrCnt := rfl
@[simp] theorem countBit_pidx (d : Ddc) : (countBit d).pidx = d.pidx := rfl
@[simp] theorem countBit_rs (d : Ddc) : (countBit d).rs = (rleBit (payloadBit d d.bidx.toNat) d.rs).1 := rfl
@[simp] theorem countBit_bidx (d : Ddc) : (countBit d).bidx = d.bidx + 1#17 := rfl
@[simp] theorem countBit_eidx (d : Ddc) : (countBit d).eidx = d.eidx := rfl
@[simp] theorem countBit_pbuf (d : Ddc) : (countBit d).pbuf = d.pbuf := rfl
@[simp] theorem countBit_pbufEpoch (d : Ddc) : (countBit d).pbufEpoch = d.pbufEpoch := rfl
@[simp] theorem countBit_outq (d : Ddc) : (countBit d).outq = d.outq := rfl

@[simp] theorem countEnd_dim (d : Ddc) : (countEnd d).dim = d.dim := rfl
@[simp] theorem countEnd_done (d : Ddc) : (countEnd d).done = d.done := rfl
@[simp] theorem countEnd_err (d : Ddc) : (countEnd d).err = d.err := rfl
@[simp] theorem countEnd_runCount (d : Ddc) : (countEnd d).runCount = (rleFlush d.rs).1.rcnt := rfl
@[simp] theorem countEnd_outLen (d : Ddc) : (countEnd d).outLen = 6#32 + (rleFlush d.rs).1.rcnt := rfl
@[simp] theorem countEnd_phase (d : Ddc) : (countEnd d).phase = .emit := rfl
@[simp] theorem countEnd_opc (d : Ddc) : (countEnd d).opc = d.opc := rfl
@[simp] theorem countEnd_curW (d : Ddc) : (countEnd d).curW = d.curW := rfl
@[simp] theorem countEnd_curH (d : Ddc) : (countEnd d).curH = d.curH := rfl
@[simp] theorem countEnd_row (d : Ddc) : (countEnd d).row = d.row := rfl
@[simp] theorem countEnd_col (d : Ddc) : (countEnd d).col = d.col := rfl
@[simp] theorem countEnd_acc (d : Ddc) : (countEnd d).acc = d.acc := rfl
@[simp] theorem countEnd_hdrCnt (d : Ddc) : (countEnd d).hdrCnt = d.hdrCnt := rfl
@[simp] theorem countEnd_pidx (d : Ddc) : (countEnd d).pidx = d.pidx := rfl
@[simp] theorem countEnd_rs (d : Ddc) : (countEnd d).rs = (rleFlush d.rs).1 := rfl
@[simp] theorem countEnd_bidx (d : Ddc) : (countEnd d).bidx = d.bidx := rfl
@[simp] theorem countEnd_eidx (d : Ddc) : (countEnd d).eidx = 0#17 := rfl
@[simp] theorem countEnd_pbuf (d : Ddc) : (countEnd d).pbuf = d.pbuf := rfl
@[simp] theorem countEnd_pbufEpoch (d : Ddc) : (countEnd d).pbufEpoch = d.pbufEpoch := rfl
@[simp] theorem countEnd_outq (d : Ddc) : (countEnd d).outq = d.outq := rfl

@[simp] theorem pushOut_dim (b : Byte) (d : Ddc) : (pushOut b d).dim = d.dim := rfl
@[simp] theorem pushOut_done (b : Byte) (d : Ddc) : (pushOut b d).done = d.done := rfl
@[simp] theorem pushOut_err (b : Byte) (d : Ddc) : (pushOut b d).err = d.err := rfl
@[simp] theorem pushOut_runCount (b : Byte) (d : Ddc) : (pushOut b d).runCount = d.runCount := rfl
@[simp] theorem pushOut_outLen (b : Byte) (d : Ddc) : (pushOut b d).outLen = d.outLen := rfl
@[simp] theorem pushOut_phase (b : Byte) (d : Ddc) : (pushOut b d).phase = d.phase := rfl
@[simp] theorem pushOut_opc (b : Byte) (d : Ddc) : (pushOut b d).opc = d.opc := rfl
@[simp] theorem pushOut_curW (b : Byte) (d : Ddc) : (pushOut b d).curW = d.curW := rfl
@[simp] theorem pushOut_curH (b : Byte) (d : Ddc) : (pushOut b d).curH = d.curH := rfl
@[simp] theorem pushOut_row (b : Byte) (d : Ddc) : (pushOut b d).row = d.row := rfl
@[simp] theorem pushOut_col (b : Byte) (d : Ddc) : (pushOut b d).col = d.col := rfl
@[simp] theorem pushOut_acc (b : Byte) (d : Ddc) : (pushOut b d).acc = d.acc := rfl
@[simp] theorem pushOut_hdrCnt (b : Byte) (d : Ddc) : (pushOut b d).hdrCnt = d.hdrCnt := rfl
@[simp] theorem pushOut_pidx (b : Byte) (d : Ddc) : (pushOut b d).pidx = d.pidx := rfl
@[simp] theorem pushOut_rs (b : Byte) (d : Ddc) : (pushOut b d).rs = d.rs := rfl
@[simp] theorem pushOut_bidx (b : Byte) (d : Ddc) : (pushOut b d).bidx = d.bidx := rfl
@[simp] theorem pushOut_eidx (b : Byte) (d : Ddc) : (pushOut b d).eidx = d.eidx + 1#17 := rfl
@[simp] theorem pushOut_pbuf (b : Byte) (d : Ddc) : (pushOut b d).pbuf = d.pbuf := rfl
@[simp] theorem pushOut_pbufEpoch (b : Byte) (d : Ddc) : (pushOut b d).pbufEpoch = d.pbufEpoch := rfl
@[simp] theorem pushOut_outq (b : Byte) (d : Ddc) : (pushOut b d).outq = d.outq ++ [b] := rfl

@[simp] theorem endEmit_dim (d : Ddc) : (endEmit d).dim = d.dim := by unfold endEmit; split <;> rfl
@[simp] theorem endEmit_done (d : Ddc) : (endEmit d).done = if d.eidx.toNat = d.outLen.toNat then true else d.done :=
  by unfold endEmit; split <;> rfl
@[simp] theorem endEmit_err (d : Ddc) : (endEmit d).err = d.err := by unfold endEmit; split <;> rfl
@[simp] theorem endEmit_runCount (d : Ddc) : (endEmit d).runCount = d.runCount := by unfold endEmit; split <;> rfl
@[simp] theorem endEmit_outLen (d : Ddc) : (endEmit d).outLen = d.outLen := by unfold endEmit; split <;> rfl
@[simp] theorem endEmit_phase (d : Ddc) : (endEmit d).phase = if d.eidx.toNat = d.outLen.toNat then .idle else d.phase :=
  by unfold endEmit; split <;> rfl
@[simp] theorem endEmit_opc (d : Ddc) : (endEmit d).opc = d.opc := by unfold endEmit; split <;> rfl
@[simp] theorem endEmit_curW (d : Ddc) : (endEmit d).curW = d.curW := by unfold endEmit; split <;> rfl
@[simp] theorem endEmit_curH (d : Ddc) : (endEmit d).curH = d.curH := by unfold endEmit; split <;> rfl
@[simp] theorem endEmit_row (d : Ddc) : (endEmit d).row = d.row := by unfold endEmit; split <;> rfl
@[simp] theorem endEmit_col (d : Ddc) : (endEmit d).col = d.col := by unfold endEmit; split <;> rfl
@[simp] theorem endEmit_acc (d : Ddc) : (endEmit d).acc = d.acc := by unfold endEmit; split <;> rfl
@[simp] theorem endEmit_hdrCnt (d : Ddc) : (endEmit d).hdrCnt = d.hdrCnt := by unfold endEmit; split <;> rfl
@[simp] theorem endEmit_pidx (d : Ddc) : (endEmit d).pidx = d.pidx := by unfold endEmit; split <;> rfl
@[simp] theorem endEmit_rs (d : Ddc) : (endEmit d).rs = d.rs := by unfold endEmit; split <;> rfl
@[simp] theorem endEmit_bidx (d : Ddc) : (endEmit d).bidx = d.bidx := by unfold endEmit; split <;> rfl
@[simp] theorem endEmit_eidx (d : Ddc) : (endEmit d).eidx = d.eidx := by unfold endEmit; split <;> rfl
@[simp] theorem endEmit_pbuf (d : Ddc) : (endEmit d).pbuf = d.pbuf := by unfold endEmit; split <;> rfl
@[simp] theorem endEmit_pbufEpoch (d : Ddc) : (endEmit d).pbufEpoch = d.pbufEpoch := by unfold endEmit; split <;> rfl
@[simp] theorem endEmit_outq (d : Ddc) : (endEmit d).outq = d.outq := by unfold endEmit; split <;> rfl

/-! ## What OSEQ and L depend on -/

/-- L depends on CUR_W and CUR_H alone. -/
theorem Ddc.len_congr {d e : Ddc} (hw : d.curW = e.curW) (hh : d.curH = e.curH) : d.len = e.len := by
  simp [Ddc.len, hw, hh]

/-- The payload depends on CUR_W, CUR_H and PBUF alone. -/
theorem Ddc.payload_congr {d e : Ddc} (hw : d.curW = e.curW) (hh : d.curH = e.curH) (hp : d.pbuf = e.pbuf)
    (he : d.pbufEpoch = e.pbufEpoch) : d.payload = e.payload := by
  have hr : pbufRead d = pbufRead e := by funext i; simp [pbufRead, hp, he]
  simp [Ddc.payload, Ddc.len_congr hw hh, hr]

/-- OSEQ depends on OPC, CUR_W, CUR_H, PBUF and RUN_COUNT alone (41_output_stream.md R79). -/
theorem oseq_congr {d e : Ddc} (ho : d.opc = e.opc) (hw : d.curW = e.curW) (hh : d.curH = e.curH)
    (hp : d.pbuf = e.pbuf) (he : d.pbufEpoch = e.pbufEpoch) (hr : d.runCount = e.runCount) : oseq d = oseq e := by
  simp [oseq, ho, hw, hh, hr, Ddc.payload_congr hw hh hp he]

end Sys2Proof.Machine
end

