-- ==== Sys2Proof/Laws/Step.lean ====
section
/-! SUPPORT. What a step can do, said once: provers cite these instead of unfolding the step. -/

namespace Sys2Proof.Machine

/-- A turn leaves the DDC, the access list and the reads as they are. -/
theorem nextTurn_keeps (depth : Nat) (s : State) :
    (nextTurn depth s).2.ddc = s.ddc ∧ (nextTurn depth s).2.bus = s.bus ∧ (nextTurn depth s).2.reads = s.reads := by
  unfold nextTurn
  split <;> exact ⟨rfl, rfl, rfl⟩

theorem nextTurn_cons {depth : Nat} {s : State} {t : Turn} {ts : List Turn} (h : s.turns = t :: ts) :
    nextTurn depth s = (t, { s with turns := ts }) := by simp [nextTurn, h]

theorem nextTurn_nil {depth : Nat} {s : State} (h : s.turns = []) :
    nextTurn depth s = (if engineEnabled depth s.ddc then .engine else .host, s) := by simp [nextTurn, h]

/-- No turn but a listed one is a RESET. -/
theorem nextTurn_reset {depth : Nat} {s : State} (h : Turn.reset ∉ s.turns) : (nextTurn depth s).1 ≠ .reset := by
  unfold nextTurn
  split
  · next t rest e =>
    intro ht
    exact h (by simp [e, ← ht])
  · split <;> simp

/-- The turns that are left are among those there were. -/
theorem nextTurn_turns {depth : Nat} {s : State} {t : Turn} (h : t ∈ (nextTurn depth s).2.turns) : t ∈ s.turns := by
  unfold nextTurn at h
  split at h
  · next e => rw [e]; exact List.mem_cons_of_mem _ h
  · exact h

/-- What a turn of the ENGINE can do. -/
theorem engineTurn_cases (depth : Nat) (s : State) :
    (engineEnabled depth s.ddc = false ∧ engineTurn depth s = .next s) ∨
    (engineEnabled depth s.ddc = true ∧ engineTurn depth s = s.after (engineAct s.ddc)) := by
  unfold engineTurn
  cases h : engineEnabled depth s.ddc <;> simp

/-- What an enabled ENGINE step is: RLE_BIT, RLE_END or EMIT_BYTE (10_state.md R17). -/
theorem engineAct_cases {depth : Nat} {d : Ddc} (h : engineEnabled depth d = true) :
    (d.phase = .count ∧ d.bidx.toNat < 8 * d.len ∧ engineAct d = .ok (countBit d)) ∨
    (d.phase = .count ∧ d.bidx.toNat = 8 * d.len ∧ engineAct d = .ok (countEnd d)) ∨
    (d.phase = .emit ∧ d.outq.length < depth ∧ engineAct d = emitByte d) := by
  unfold engineEnabled at h
  unfold engineAct
  cases hp : d.phase <;> simp only [hp] at h ⊢
  · simp at h
  · simp at h
  · have hle : d.bidx.toNat ≤ 8 * d.len := by simpa using h
    by_cases hlt : d.bidx.toNat < 8 * d.len
    · simp [hlt]
    · right; left; exact ⟨trivial, by omega, by simp [hlt]⟩
  · simpa using h

/-- What EMIT_BYTE can do (41_output_stream.md R80). -/
theorem emitByte_cases (d : Ddc) :
    (∃ b, (oseq d)[d.eidx.toNat]? = some b ∧ emitByte d = .ok (endEmit (pushOut b d))) ∨
    ((oseq d).length ≤ d.eidx.toNat ∧ emitByte d = .error .oseqOutOfRange) := by
  unfold emitByte
  cases h : (oseq d)[d.eidx.toNat]? with
  | some b => exact .inl ⟨b, rfl, rfl⟩
  | none => exact .inr ⟨by simpa using h, rfl⟩

/-- What a step can do: an access of the HOST, an idle turn of it, a turn of the ENGINE, or a RESET. -/
theorem stepAt_cases (depth : Nat) (s : State) :
    (∃ a rest, (nextTurn depth s).1 = .host ∧ s.bus = a :: rest ∧
      stepAt depth s = exec (decode a) { (nextTurn depth s).2 with bus := rest }) ∨
    ((nextTurn depth s).1 = .host ∧ s.bus = [] ∧ stepAt depth s = .next (nextTurn depth s).2) ∨
    ((nextTurn depth s).1 = .engine ∧ stepAt depth s = engineTurn depth (nextTurn depth s).2) ∨
    ((nextTurn depth s).1 = .reset ∧ stepAt depth s = .next (resetEvent (nextTurn depth s).2)) := by
  have hb := (nextTurn_keeps depth s).2.1
  unfold stepAt
  generalize nextTurn depth s = p at hb ⊢
  obtain ⟨t, s'⟩ := p
  simp only at hb ⊢
  cases t with
  | host =>
    cases hs : s'.bus with
    | nil => right; left; rw [hs] at hb; simp [State.fetch_nil hs, ← hb]
    | cons a rest => left; rw [hs] at hb; exact ⟨a, rest, rfl, hb.symm, by simp [State.fetch_cons hs]⟩
  | engine => right; right; left; exact ⟨rfl, rfl⟩
  | reset => right; right; right; exact ⟨rfl, rfl⟩

/-- What an access leaves on the HOST's side: its list and the turns, and the reads with at most one more value. -/
theorem exec_host_side {i : Instr} {s t : State} (h : exec i s = .next t) :
    t.bus = s.bus ∧ t.turns = s.turns ∧ (t.reads = s.reads ∨ ∃ r, t.reads = s.reads ++ [r]) := by
  cases i
  case wrInData d =>
    simp only [exec, execWrInData] at h
    cases e : inDataWrite d s.ddc with
    | ok d' => rw [e, State.after_ok] at h; cases h; exact ⟨rfl, rfl, .inl rfl⟩
    | error f => rw [e, State.after_error] at h; cases h
  case wrCmd => cases h; exact ⟨rfl, rfl, .inl rfl⟩
  case wrDim => cases h; exact ⟨rfl, rfl, .inl rfl⟩
  case wrStatus => cases h; exact ⟨rfl, rfl, .inl rfl⟩
  case wrOutData => cases h; exact ⟨rfl, rfl, .inl rfl⟩
  case wrRunCount => cases h; exact ⟨rfl, rfl, .inl rfl⟩
  case wrOutLen => cases h; exact ⟨rfl, rfl, .inl rfl⟩
  case wrRsv => cases h; exact ⟨rfl, rfl, .inl rfl⟩
  case enc => cases h; exact ⟨rfl, rfl, .inl rfl⟩
  case encRle => cases h; exact ⟨rfl, rfl, .inl rfl⟩
  case rle => cases h; exact ⟨rfl, rfl, .inl rfl⟩
  all_goals cases h; exact ⟨rfl, rfl, .inr ⟨_, rfl⟩⟩

/-- A property of states that every step keeps holds after any run. -/
theorem runAt_induction {depth : Nat} {P : State → Prop} (hs : ∀ s t, P s → stepAt depth s = .next t → P t)
    {n : Nat} {s t : State} (h0 : P s) (h : runAt depth n s = .next t) : P t := by
  induction n generalizing s with
  | zero => cases h; exact h0
  | succ n ih =>
    rw [runAt] at h
    cases e : stepAt depth s with
    | next s' => rw [e] at h; exact ih (hs s s' h0 e) h
    | fault f => rw [e] at h; cases h
    | refused r => rw [e] at h; cases h

/-- A run of one step and the rest. -/
theorem runAt_succ {depth n : Nat} {s s' : State} (h : stepAt depth s = .next s') :
    runAt depth (n + 1) s = runAt depth n s' := by simp [runAt, h]

end Sys2Proof.Machine
end

