-- ==== Sys2Proof/Tests/Slice0.lean ====
section
/-! SUPPORT. The model's own tests: the words of 30_encoding.md and the opcode table, the vectors of 95_test_vectors.md
(expected values are the spec's), and a witness for the hypotheses of every obligation. -/

namespace Sys2Proof.Tests
open Sys2Proof Sys2Proof.Machine

/-! ## Helpers -/

/-- The state an outcome goes on with. -/
def nextOf (o : Host.Outcome State Fault Refusal) : Option State :=
  match o with
  | .next s => some s
  | .fault _ => none
  | .refused _ => none

/-- The DDC an instruction leaves. -/
def ddcOf (i : Instr) (s : State) : Option Ddc := (nextOf (exec i s)).map (fun t => t.ddc)

/-- The value a read returns as the last of the HOST's reads. -/
def readOf (i : Instr) (s : State) : Option Word := (nextOf (exec i s)).bind (fun t => t.reads.getLast?.map (fun r => r.value))

/-- The reset state with its DDC changed. -/
def ofDdc (d : Ddc) : State := { State.reset with ddc := d }

/-- A DDC loading pixels of a w x h grid. -/
def loadingPixels (op : Opc) (w h row col acc : Byte) (pbuf : Memory) : Ddc :=
  { Ddc.reset 0 with phase := .load, opc := op, curW := w, curH := h, row := row, col := col, acc := acc, pbuf := pbuf }

/-- A DDC loading a Frame. -/
def loadingFrame (hdr : BitVec 2) (w h : Byte) (pidx : BitVec 13) (pbuf : Memory) : Ddc :=
  { Ddc.reset 0 with phase := .load, opc := .rle, hdrCnt := hdr, curW := w, curH := h, pidx := pidx, pbuf := pbuf }

/-- A DDC counting the runs of a Frame. -/
def counting (w h : Byte) (pbuf : Memory) (rs : RunState) (bidx : BitVec 17) : Ddc :=
  { Ddc.reset 0 with phase := .count, opc := .rle, curW := w, curH := h, pbuf := pbuf, rs := rs, bidx := bidx }

/-- A DDC that puts out a Frame (OPC = ENC), with the given queue. -/
def emittingFrame (w h : Byte) (pbuf : Memory) (outLen : Word) (eidx : BitVec 17) (q : List Byte) : Ddc :=
  { Ddc.reset 0 with
    phase := .emit, opc := .enc, curW := w, curH := h, pbuf := pbuf, outLen := outLen, eidx := eidx, outq := q }

/-- A DDC that puts out a RunStream. -/
def emittingRuns (op : Opc) (w h : Byte) (pbuf : Memory) (count : Word) (eidx : BitVec 17) : Ddc :=
  { Ddc.reset 0 with
    phase := .emit, opc := op, curW := w, curH := h, pbuf := pbuf, runCount := count, outLen := 6#32 + count,
    eidx := eidx }

/-- The payload of W1 in PBUF (95_test_vectors.md section 1). -/
def w1 : Memory := [(0, 0xA0#8), (1, 0x40#8)]

/-! ## Well-formedness: a CMD write of a legal command word is refused -/

theorem test_wf_refuses_wrCmd_enc : (Instr.wrCmd 1#32).wf = false := by decide
theorem test_wf_refuses_wrCmd_encRle : (Instr.wrCmd 2#32).wf = false := by decide
theorem test_wf_refuses_wrCmd_rle : (Instr.wrCmd 3#32).wf = false := by decide
theorem test_wf_takes_wrCmd_illegal : (Instr.wrCmd 0#32).wf = true ∧ (Instr.wrCmd 0x11#32).wf = true := by decide

/-! ## Decoding (30_encoding.md R55: SEL = WE:IDX; R56, R61; opcode_table.json) -/

theorem test_decode_reads :
    decodeTableWord 8 0b0000 = some .rdCmd ∧ decodeTableWord 8 0b0001 = some .rdDim
      ∧ decodeTableWord 8 0b0010 = some .rdStatus ∧ decodeTableWord 8 0b0011 = some .rdInData
      ∧ decodeTableWord 8 0b0100 = some .rdOutData ∧ decodeTableWord 8 0b0101 = some .rdRunCount
      ∧ decodeTableWord 8 0b0110 = some .rdOutLen ∧ decodeTableWord 8 0b0111 = some .rdRsv := by decide

theorem test_decode_writes :
    decodeTableWord 8 0b1000 = some (.wrCmd 0#32) ∧ decodeTableWord 8 0b1001 = some (.wrDim 0#32)
      ∧ decodeTableWord 8 0b1010 = some (.wrStatus 0#32) ∧ decodeTableWord 8 0b1011 = some (.wrInData 0#32)
      ∧ decodeTableWord 8 0b1100 = some (.wrOutData 0#32) ∧ decodeTableWord 8 0b1101 = some (.wrRunCount 0#32)
      ∧ decodeTableWord 8 0b1110 = some (.wrOutLen 0#32) ∧ decodeTableWord 8 0b1111 = some (.wrRsv 0#32) := by decide

theorem test_decode_commands :
    decodeTableWord 32 0x00000001 = some .enc ∧ decodeTableWord 32 0x00000002 = some .encRle
      ∧ decodeTableWord 32 0x00000003 = some .rle ∧ decodeTableWord 32 0x00000004 = some (.wrCmd 4#32) := by decide

/-- Words that are no table word are refused: a selector of more than four bits, a number that is too long. -/
theorem test_decode_refuses :
    decodeTableWord 8 0x12 = none ∧ decodeTableWord 32 0x100000000 = none ∧ decodeTableWord 40 0x10000000008 = none := by
  decide

/-- `9:00020003`, `8:00000001`, `4:-` (30_encoding.md R68; 95_test_vectors.md P1). -/
theorem test_decode_host_lines :
    decode ⟨0x9#4, 0x00020003#32⟩ = .wrDim 0x00020003#32 ∧ decode ⟨0x8#4, 0x00000001#32⟩ = .enc
      ∧ decode ⟨0x4#4, 0#32⟩ = .rdOutData ∧ decode ⟨0xB#4, 0xFF#32⟩ = .wrInData 0xFF#32 := by decide

/-- The expansions of 30_encoding.md R68. -/
theorem test_pseudo :
    (Pseudo.dim 3#16 2#16).expand = ⟨0x9#4, 0x00020003#32⟩ ∧ Pseudo.cmdRle.expand = ⟨0x8#4, 3#32⟩
      ∧ Pseudo.clrErr.expand = ⟨0xA#4, 0x100#32⟩ ∧ Pseudo.pop.expand = ⟨0x4#4, 0#32⟩ := by decide

/-! ## Formats -/

/-- Section 2.1. -/
theorem test_binarization :
    pixelBit 0x00000000#32 = false ∧ pixelBit 0x00000001#32 = true ∧ pixelBit 0x00000080#32 = true
      ∧ pixelBit 0xFFFFFF00#32 = false ∧ pixelBit 0x00000100#32 = false := by decide

/-- W1 of section 1. -/
theorem test_frame_w1 : frame 3 2 (gridOf 3 [1#32, 0#32, 1#32, 0#32, 1#32, 0#32]) = [0x03#8, 0x02#8, 0xA0#8, 0x40#8] := by
  decide

/-- "width 10, two rows" of section 2.2. -/
theorem test_frame_row_padding :
    frame 10 2 (fun r c => r == 0 || c == 9) = [0x0A#8, 0x02#8, 0xFF#8, 0xC0#8, 0x00#8, 0x40#8] := by decide

/-- Section 2.3. -/
theorem test_run_bytes :
    runByte false 1#8 = 0x00#8 ∧ runByte false 6#8 = 0x05#8 ∧ runByte false 128#8 = 0x7F#8 ∧ runByte true 1#8 = 0x80#8
      ∧ runByte true 16#8 = 0x8F#8 ∧ runByte true 127#8 = 0xFE#8 ∧ runByte true 128#8 = 0xFF#8 := by decide

/-- W1 of section 2.4. -/
theorem test_runStream_w1 :
    runStream 3#8 2#8 [0xA0#8, 0x40#8] = [3#8, 2#8, 0#8, 0#8, 0#8, 6#8, 0x80#8, 0#8, 0x80#8, 5#8, 0x80#8, 5#8] := by decide

/-- W2 of section 2.4. -/
theorem test_runStream_w2 :
    runStream 0x10#8 1#8 [0xFF#8, 0xFF#8] = [0x10#8, 1#8, 0#8, 0#8, 0#8, 1#8, 0x8F#8] := by decide

/-- The bits of "cap + 1" of section 2.4: 129 ones and 7 zeros. -/
def capPlusOne : List Bool := List.replicate 129 true ++ List.replicate 7 false

/-- "cap + 1" of section 2.4. -/
theorem test_runbytes_cap : runbytes capPlusOne = [0xFF#8, 0x80#8, 0x06#8] := by decide

/-- The state-machine trace of section 2.4: at the cap, at the value change, and the flush. -/
theorem test_trace_cap :
    rleBit true ⟨true, true, 128#8, 0#32⟩ = (⟨true, true, 1#8, 1#32⟩, [0xFF#8])
      ∧ rleBit false ⟨true, true, 1#8, 1#32⟩ = (⟨true, false, 1#8, 2#32⟩, [0x80#8])
      ∧ rleFlush ⟨true, false, 7#8, 2#32⟩ = (⟨false, false, 0#8, 3#32⟩, [0x06#8]) := by decide

/-! ## Reads (section 2.6) -/

theorem test_rdCmd : readOf .rdCmd State.reset = some 0#32 := by decide
theorem test_rdDim : readOf .rdDim (ofDdc { Ddc.reset 0 with dim := 0x01000100#32 }) = some 0x01000100#32 := by decide
theorem test_rdStatus_reset : readOf .rdStatus State.reset = some 0#32 := by decide

/-- 0x33 of P5: BUSY, IN_REQ, ERR = 3. -/
theorem test_rdStatus_busy :
    readOf .rdStatus (ofDdc { loadingPixels .enc 1#8 3#8 1#8 0#8 0#8 [] with err := 3#4 }) = some 0x33#32 := by decide

theorem test_rdInData : readOf .rdInData (ofDdc (loadingPixels .enc 1#8 3#8 1#8 0#8 0#8 [])) = some 0#32 := by decide

/-- OUTQ = [00]: 0x100, and the queue is empty then. -/
theorem test_rdOutData :
    readOf .rdOutData (ofDdc { Ddc.reset 0 with outq := [0#8] }) = some 0x100#32
      ∧ (ddcOf .rdOutData (ofDdc { Ddc.reset 0 with outq := [0#8] })).map (fun d => d.outq) = some [] := by decide

theorem test_rdOutData_empty : readOf .rdOutData State.reset = some 0#32 := by decide
theorem test_rdRunCount : readOf .rdRunCount (ofDdc { Ddc.reset 0 with runCount := 6#32 }) = some 6#32 := by decide
theorem test_rdOutLen : readOf .rdOutLen (ofDdc { Ddc.reset 0 with outLen := 4#32 }) = some 4#32 := by decide
theorem test_rdRsv : readOf .rdRsv (ofDdc { Ddc.reset 0 with outLen := 4#32 }) = some 0#32 := by decide

/-! ## Writes (sections 2.5 and 2.6) -/

/-- 0x11 is illegal; with ERR = 1 it is not recorded. -/
theorem test_wrCmd_illegal :
    (ddcOf (.wrCmd 0x11#32) State.reset).map (fun d => (d.phase, d.err)) = some (.idle, 2#4)
      ∧ (ddcOf (.wrCmd 0#32) (ofDdc { Ddc.reset 0 with err := 1#4 })).map (fun d => d.err) = some 1#4 := by decide

/-- 0x80000001 with DIM = 0x100: ILLEGAL_CMD before DIM_TOO_LARGE. In EMIT, 0 is CMD_WHILE_BUSY. -/
theorem test_wrCmd_order :
    (ddcOf (.wrCmd 0x80000001#32) (ofDdc { Ddc.reset 0 with dim := 0x100#32 })).map (fun d => d.err) = some 2#4
      ∧ (ddcOf (.wrCmd 0#32) (ofDdc (emittingFrame 0#8 0#8 [] 2#32 0#17 []))).map (fun d => d.err) = some 3#4 := by decide

theorem test_wrDim :
    (ddcOf (.wrDim 0x01000100#32) State.reset).map (fun d => d.dim) = some 0x01000100#32 := by decide

/-- DONE = 1, ERR = 2: 0x008 clears DONE, 0x0F0 nothing, 0x108 both. -/
theorem test_wrStatus :
    [0x008#32, 0x0F0#32, 0x108#32].map (fun w =>
        (ddcOf (.wrStatus w) (ofDdc { Ddc.reset 0 with done := true, err := 2#4 })).map (fun d => (d.done, d.err)))
      = [some (false, 2#4), some (true, 2#4), some (false, 0#4)] := by decide

/-- R74's example: the third pixel of W1 stores 0xA0 and moves to row 1. -/
theorem test_wrInData_pixel :
    (ddcOf (.wrInData 1#32) (ofDdc (loadingPixels .enc 3#8 2#8 0#8 2#8 0x80#8 []))).map
        (fun d => (d.pbuf, d.row, d.col, d.acc)) = some ([(0, 0xA0#8)], 1#8, 0#8, 0#8) := by decide

/-- R90's example: the fourth byte of W1's Frame stores 0x40 and completes the load. -/
theorem test_wrInData_frame :
    (ddcOf (.wrInData 0x40#32) (ofDdc (loadingFrame 2#2 3#8 2#8 1#13 [(0, 0xA0#8)]))).map
        (fun d => (d.pbuf, d.phase)) = some (w1, .count) := by decide

/-- In IDLE an input byte is IN_UNEXPECTED. -/
theorem test_wrInData_idle : (ddcOf (.wrInData 5#32) State.reset).map (fun d => d.err) = some 4#4 := by decide

theorem test_wrOutData :
    ddcOf (.wrOutData 0x55#32) (ofDdc { Ddc.reset 0 with outq := [1#8] }) = some { Ddc.reset 0 with outq := [1#8] } := by
  decide

theorem test_wrRunCount :
    ddcOf (.wrRunCount 0#32) (ofDdc { Ddc.reset 0 with runCount := 6#32 }) = some { Ddc.reset 0 with runCount := 6#32 } := by
  decide

theorem test_wrOutLen :
    ddcOf (.wrOutLen 0#32) (ofDdc { Ddc.reset 0 with outLen := 4#32 }) = some { Ddc.reset 0 with outLen := 4#32 } := by decide

theorem test_wrRsv : ddcOf (.wrRsv 0xFFFFFFFF#32) State.reset = some (Ddc.reset 0) := by decide

/-! ## Commands (section 2.5) -/

/-- DIM = 0x00020003: accepted with W = 3, H = 2. -/
theorem test_enc :
    (ddcOf .enc (ofDdc { Ddc.reset 0 with dim := 0x00020003#32 })).map (fun d => (d.phase, d.curW, d.curH, d.err))
      = some (.load, 3#8, 2#8, 0#4) := by decide

/-- W = 256 with H = 0 is DIM_TOO_LARGE. -/
theorem test_enc_too_large :
    (ddcOf .enc (ofDdc { Ddc.reset 0 with dim := 0x00000100#32 })).map (fun d => (d.phase, d.err)) = some (.idle, 1#4) := by
  decide

/-- W = 0, H = 5: no input, COUNT at once. -/
theorem test_encRle :
    (ddcOf .encRle (ofDdc { Ddc.reset 0 with dim := 0x00050000#32 })).map (fun d => (d.phase, d.curH)) = some (.count, 5#8) := by
  decide

theorem test_encRle_too_large :
    (ddcOf .encRle (ofDdc { Ddc.reset 0 with dim := 0x01000001#32 })).map (fun d => (d.phase, d.err)) = some (.idle, 1#4) := by
  decide

/-- DIM = 0xFFFFFFFF is not read. -/
theorem test_rle :
    (ddcOf .rle (ofDdc { Ddc.reset 0 with dim := 0xFFFFFFFF#32 })).map (fun d => (d.phase, d.err)) = some (.load, 0#4) := by
  decide

/-- While busy: 3, and the load goes on. -/
theorem test_rle_busy :
    (ddcOf .rle (ofDdc (loadingPixels .enc 3#8 2#8 0#8 2#8 0x80#8 []))).map (fun d => (d.phase, d.opc, d.err))
      = some (.load, .enc, 3#4) := by decide

/-! ## ENGINE steps -/

/-- R80's example: the fourth byte of W1 ends the command. -/
theorem test_emit_last :
    (engineAct (emittingFrame 3#8 2#8 w1 4#32 3#17 [])).toOption.map (fun d => (d.outq, d.phase, d.done))
      = some ([0x40#8], .idle, true) := by decide

/-- R92's example: after the sixteen ones, RLE_END gives 1 and 7. -/
theorem test_count_end :
    (engineAct (counting 16#8 1#8 [(0, 0xFF#8), (1, 0xFF#8)] ⟨true, true, 16#8, 0#32⟩ 16#17)).toOption.map
        (fun d => (d.runCount, d.outLen, d.phase)) = some (1#32, 7#32, .emit) := by decide

/-- The placed word runs as the first step after reset. -/
theorem test_withFetchWord :
    (nextOf (step (State.reset.withFetchWord 8 0xB))).map (fun t => (t.ddc.err, t.bus, t.turns)) = some (4#4, [], []) := by
  decide

/-! ## States with the invariant, one of each phase -/

/-- The reset state. -/
theorem inv_reset : (Ddc.reset 0).Inv 1 := by constructor <;> decide

/-- Before the last pixel of a 9 x 2 grid of ones. -/
def lastPixel : Ddc :=
  loadingPixels .encRle 9#8 2#8 1#8 8#8 0#8 [(0, 0xFF#8), (1, 0x80#8), (2, 0xFF#8)]

theorem inv_lastPixel : lastPixel.Inv 1 := by constructor <;> decide

/-- Before the last byte of W1's Frame. -/
def lastFrameByte : Ddc := loadingFrame 2#2 3#8 2#8 1#13 [(0, 0xA0#8)]

theorem inv_lastFrameByte : lastFrameByte.Inv 1 := by constructor <;> decide

/-- Before the last bit of W1's payload is scanned. -/
def lastBit : Ddc := counting 3#8 2#8 w1 ⟨true, false, 5#8, 5#32⟩ 15#17

theorem inv_lastBit : lastBit.Inv 1 := by constructor <;> decide

/-- All sixteen bits of W1's payload are scanned. -/
def bitsDone : Ddc := counting 3#8 2#8 w1 ⟨true, false, 6#8, 5#32⟩ 16#17

theorem inv_bitsDone : bitsDone.Inv 1 := by constructor <;> decide

/-- W1's Frame, nothing output. -/
def emitFirst : Ddc := emittingFrame 3#8 2#8 w1 4#32 0#17 []

theorem inv_emitFirst : emitFirst.Inv 4 := by constructor <;> decide

/-- W1's Frame, three bytes output and read. -/
def emitLast : Ddc := emittingFrame 3#8 2#8 w1 4#32 3#17 []

theorem inv_emitLast : emitLast.Inv 1 := by constructor <;> decide

/-- W1's Frame with a full OUTQ of one byte. -/
def emitFull : Ddc := emittingFrame 3#8 2#8 w1 4#32 1#17 [3#8]

theorem inv_emitFull : emitFull.Inv 1 := by constructor <;> decide

/-- W1's RunStream, for either command. -/
theorem inv_emitRuns (op : Opc) (h : op = .encRle ∨ op = .rle) : (emittingRuns op 3#8 2#8 w1 6#32 0#17).Inv 1 := by
  obtain rfl | rfl := h <;> constructor <;> decide

/-! ## Witnesses: a state and operands that meet the hypotheses of each obligation, or of each of its clauses -/

theorem witness_DecodingAnEncodedInstructionGivesItBack :
    (Instr.wrCmd 0#32).wf = true ∧ (Instr.wrCmd 4#32).wf = true ∧ Instr.rle.wf = true ∧ (Instr.wrDim 1#32).wf = true := by
  decide

theorem witness_EverySelectorIsOneLegalAccess : (⟨0x8#4, 3#32⟩ : BusAccess).we = true := by decide

/-- A HOST with one access. -/
def oneAccess (a : BusAccess) (ts : List Turn) (d : Ddc) : State := ⟨d, [a], [], ts⟩

theorem witness_StepPerformsTheNextAccess :
    ((oneAccess (rd .status) [.host] emitFull).bus = rd .status :: []
      ∧ (oneAccess (rd .status) [.host] emitFull).turns = .host :: [])
    ∧ ((oneAccess (rd .status) [] emitFull).turns = [] ∧ engineEnabled 1 emitFull = false)
    ∧ decodeTableWord 8 0x9 = some (.wrDim 0#32) := by decide

theorem witness_EngineTurnsAndIdleTurns :
    ((oneAccess (rd .dim) [.engine] lastBit).turns = .engine :: [] ∧ engineEnabled 1 lastBit = true
      ∧ ∃ d, engineAct lastBit = .ok d)
    ∧ ((oneAccess (rd .dim) [] emitLast).turns = [] ∧ engineEnabled 1 emitLast = true ∧ ∃ d, engineAct emitLast = .ok d)
    ∧ ((oneAccess (rd .dim) [.engine] emitFull).turns = .engine :: [] ∧ engineEnabled 1 emitFull = false)
    ∧ ((⟨lastBit, [], [], [.host]⟩ : State).turns = .host :: []) :=
  ⟨⟨rfl, by decide, _, rfl⟩, ⟨rfl, by decide, _, rfl⟩, ⟨rfl, by decide⟩, rfl⟩

theorem witness_StatusReadReturnsItsFields : (ofDdc emitFirst).Inv 4 := inv_emitFirst

theorem witness_OutDataReadTakesTheHead : emitFull.outq = 3#8 :: [] ∧ emitLast.outq = [] := by decide

theorem witness_UnexpectedInputIsDiscarded :
    (ofDdc (Ddc.reset 0)).ddc.phase ≠ .load ∧ (ofDdc lastBit).ddc.phase ≠ .load ∧ (ofDdc emitFirst).ddc.phase ≠ .load := by
  decide

theorem witness_TheFirstErrorIsKept : (Ddc.reset 0).err = 0#4 ∧ ({ Ddc.reset 0 with err := 4#4 } : Ddc).err ≠ 0#4 := by decide

/-- A DDC in IDLE with a given DIM. -/
def idleDim (dim : Word) : Ddc := { Ddc.reset 0 with dim := dim }

theorem witness_CommandsAreRefusedInOrder_busy :
    lastPixel.phase ≠ .idle ∧ lastBit.phase ≠ .idle ∧ emitFull.phase ≠ .idle := by decide

theorem witness_CommandsAreRefusedInOrder_illegal :
    (Ddc.reset 0).phase = .idle ∧ (0x11#32).extractLsb' 4 28 ≠ 0#28
      ∧ (0#32).extractLsb' 0 4 ∉ [1#4, 2#4, 3#4] ∧ (4#32).extractLsb' 0 4 ∉ [1#4, 2#4, 3#4] := by decide

theorem witness_CommandsAreRefusedInOrder_dimensions :
    (idleDim 0x100#32).phase = .idle ∧ 255 < ((idleDim 0x100#32).dim.extractLsb' 0 16).toNat
      ∧ 255 < ((idleDim 0x01000001#32).dim.extractLsb' 16 16).toNat
      ∧ (2#32).extractLsb' 4 28 = 0#28 ∧ (2#32).extractLsb' 0 4 ∈ [1#4, 2#4] := by decide

/-- The largest grid, and an empty one: both ways the acceptance goes on. -/
theorem witness_PixelCommandsAreAccepted :
    ((Instr.wrCmd 2#32 = .encRle ∨ Instr.wrCmd 2#32 = .wrCmd 2#32) ∧ Opc.encRle = .encRle)
    ∧ ((Instr.enc = .enc ∨ Instr.enc = .wrCmd 1#32) ∧ Opc.enc = .enc)
    ∧ (idleDim 0x00FF00FF#32).phase = .idle
    ∧ ((idleDim 0x00FF00FF#32).dim.extractLsb' 0 16).toNat ≤ 255
    ∧ ((idleDim 0x00FF00FF#32).dim.extractLsb' 16 16).toNat ≤ 255
    ∧ (ddcOf (.wrCmd 2#32) (ofDdc (idleDim 0x00FF00FF#32))).map (fun t => (t.curW, t.curH)) = some (0xFF#8, 0xFF#8)
    ∧ (ddcOf .enc (ofDdc (idleDim 0x00050000#32))).map (fun t => (t.curW, t.curH)) = some (0#8, 5#8) := by decide

theorem witness_FrameCommandIsAccepted : (Instr.rle = .rle ∨ Instr.rle = .wrCmd 3#32) ∧ (Ddc.reset 0).phase = .idle := by
  decide

theorem witness_AcceptanceShowsInStatus :
    (idleDim 0x00FF00FF#32).phase = .idle ∧ (idleDim 0x00FF00FF#32).done = false ∧ (idleDim 0x00FF00FF#32).err = 0#4
      ∧ ((idleDim 0x00FF00FF#32).dim.extractLsb' 0 16).toNat ≤ 255
      ∧ ((idleDim 0x00FF00FF#32).dim.extractLsb' 16 16).toNat ≤ 255
      ∧ ¬ ((idleDim 0x00000100#32).dim.extractLsb' 0 16).toNat ≤ 255 := by decide

/-- The hypotheses of R74's statement, for the pixel before each way it goes on: within a group, a full group inside a
row, the end of a row (the last column of the widest grid), and the last pixel. -/
theorem witness_PixelInputPacksOneBit :
    [loadingPixels .enc 3#8 2#8 0#8 0#8 0#8 [], loadingPixels .encRle 9#8 2#8 0#8 7#8 0xFE#8 [],
        loadingPixels .enc 255#8 255#8 253#8 254#8 0#8 [], lastPixel].all (fun d =>
      decide (d.phase = .load ∧ (d.opc = .enc ∨ d.opc = .encRle) ∧ d.row.toNat < d.curH.toNat
        ∧ d.col.toNat < d.curW.toNat)) = true
    ∧ (0 + 1) % 8 ≠ 0 ∧ 0 + 1 ≠ (3#8).toNat
    ∧ (7 + 1) % 8 = 0 ∧ 7 + 1 ≠ (9#8).toNat
    ∧ 254 + 1 = (255#8).toNat ∧ 253 + 1 ≠ (255#8).toNat
    ∧ lastPixel.col.toNat + 1 = lastPixel.curW.toNat ∧ lastPixel.row.toNat + 1 = lastPixel.curH.toNat := by decide

theorem witness_LoadCompleteEntersEmitOrCount : emitFirst.opc = .enc ∧ lastPixel.opc ≠ .enc ∧ lastFrameByte.opc ≠ .enc := by
  decide

theorem witness_PackingAGridStoresItsFramePayload :
    [loadingPixels .enc 1#8 1#8 0#8 0#8 0#8 [], loadingPixels .encRle 1#8 1#8 0#8 0#8 0#8 []].all (fun d =>
      decide (d.phase = .load ∧ (d.opc = .enc ∨ d.opc = .encRle) ∧ d.row = 0#8 ∧ d.col = 0#8 ∧ d.acc = 0#8
        ∧ d.curW ≠ 0#8 ∧ d.curH ≠ 0#8 ∧ [0x80#32].length = d.curW.toNat * d.curH.toNat)) = true
    ∧ 0 < [0x80#32].length := by decide

theorem witness_AFrameHoldsItsPixelsAndZeroPadding :
    (255 ≤ 255) ∧ (254 < 255 ∧ 254 < 255) ∧ (254 < 255 ∧ 255 ≤ 255 ∧ 255 < 8 * ceilDiv 255 8) := by decide

/-- The four clauses of R90's statement, the last one with the payload's last byte and the one before it. -/
theorem witness_FrameInputLoadsOneByte :
    ((loadingFrame 0#2 0#8 0#8 0#13 []).phase = .load ∧ (loadingFrame 0#2 0#8 0#8 0#13 []).opc = .rle
      ∧ (loadingFrame 0#2 0#8 0#8 0#13 []).hdrCnt = 0#2)
    ∧ ((loadingFrame 1#2 1#8 0#8 0#13 []).hdrCnt = 1#2 ∧ ((1#32).extractLsb' 0 8).toNat * ceilDiv (1#8).toNat 8 ≠ 0)
    ∧ ((loadingFrame 1#2 0#8 0#8 0#13 []).hdrCnt = 1#2 ∧ ((5#32).extractLsb' 0 8).toNat * ceilDiv (0#8).toNat 8 = 0)
    ∧ (lastFrameByte.phase = .load ∧ lastFrameByte.opc = .rle ∧ lastFrameByte.hdrCnt = 2#2
        ∧ lastFrameByte.pidx.toNat + 1 = lastFrameByte.curH.toNat * ceilDiv lastFrameByte.curW.toNat 8)
    ∧ ((loadingFrame 2#2 3#8 2#8 0#13 []).pidx.toNat + 1 ≠ (2#8).toNat * ceilDiv (3#8).toNat 8) := by decide

theorem witness_LoadingAFrameStoresItsPayload :
    (loadingFrame 0#2 0#8 0#8 0#13 []).phase = .load ∧ (loadingFrame 0#2 0#8 0#8 0#13 []).opc = .rle
      ∧ (loadingFrame 0#2 0#8 0#8 0#13 []).hdrCnt = 0#2
      ∧ [3#32, 2#32, 0xA0#32, 0x40#32].map (fun x => x.extractLsb' 0 8) = 3#8 :: 2#8 :: [0xA0#8, 0x40#8]
      ∧ [0xA0#8, 0x40#8].length = (2#8).toNat * ceilDiv (3#8).toNat 8 ∧ [0xA0#8, 0x40#8].length ≤ 2
      ∧ [0#32, 5#32].map (fun x => x.extractLsb' 0 8) = 0#8 :: 5#8 :: []
      ∧ ([] : List Byte).length = (5#8).toNat * ceilDiv (0#8).toNat 8 := by decide

theorem witness_RunLengthMachineExtendsEmitsAndFlushes :
    RunState.empty.rsValid = false ∧ (⟨true, true, 127#8, 0#32⟩ : RunState).rsLen.toNat < 128
      ∧ 128 ≤ (⟨true, true, 128#8, 0#32⟩ : RunState).rsLen.toNat ∧ [true] ≠ [] := by decide

theorem witness_CountStepScansOneBit :
    (⟨lastBit, [], [], [.engine]⟩ : State).turns = .engine :: [] ∧ lastBit.phase = .count
      ∧ lastBit.bidx.toNat < 8 * lastBit.len ∧ (ofDdc lastBit).Inv 1 :=
  ⟨rfl, rfl, by decide, inv_lastBit⟩

theorem witness_CountEndRecordsTheRunCount :
    (⟨bitsDone, [], [], [.engine]⟩ : State).turns = .engine :: [] ∧ bitsDone.phase = .count
      ∧ bitsDone.bidx.toNat = 8 * bitsDone.len
      ∧ (counting 0#8 5#8 [] RunState.empty 0#17).bidx.toNat = 8 * (counting 0#8 5#8 [] RunState.empty 0#17).len
      ∧ (counting 0#8 5#8 [] RunState.empty 0#17).rs = RunState.empty := by decide

theorem witness_CountPhaseGivesTheRunCount :
    (counting 3#8 2#8 w1 RunState.empty 0#17).phase = .count ∧ (counting 3#8 2#8 w1 RunState.empty 0#17).rs = RunState.empty
      ∧ (counting 3#8 2#8 w1 RunState.empty 0#17).bidx = 0#17
      ∧ 16 ≤ 8 * (counting 3#8 2#8 w1 RunState.empty 0#17).len := by decide

theorem witness_RunBytesStandForTheirBits :
    (true, 128) ∈ runs capPlusOne ∧ (runs capPlusOne)[0]? = some (true, 128) ∧ (runs capPlusOne)[1]? = some (true, 1) := by
  decide

theorem witness_TheGreedyCutIsUnique :
    (∀ r ∈ [(true, 128), (true, 1)], 1 ≤ r.2 ∧ r.2 ≤ 128)
      ∧ ∀ (i : Nat) (a b : Bool × Nat), [(true, 128), (true, 1)][i]? = some a → [(true, 128), (true, 1)][i + 1]? = some b →
          a.1 = b.1 → a.2 = 128 := by
  refine ⟨by decide, fun i a b ha hb _ => ?_⟩
  match i with
  | 0 => simp only [List.getElem?_cons_zero, Option.some.injEq] at ha; exact ha ▸ rfl
  | i + 1 => simp at hb

theorem witness_RunByteLayout : (1 ≤ 1 ∧ 1 ≤ 128) ∧ (1 ≤ 128 ∧ 128 ≤ 128) := by decide

/-- The three ways the EMIT step goes: the first byte, the last byte, a full queue. -/
theorem witness_EmitStepPushesTheNextByte :
    (emitFirst.Inv 4 ∧ emitFirst.phase = .emit ∧ emitFirst.outq.length < 4
      ∧ emitFirst.eidx.toNat + 1 ≠ emitFirst.outLen.toNat)
    ∧ (emitLast.Inv 1 ∧ emitLast.phase = .emit ∧ emitLast.outq.length < 1
      ∧ emitLast.eidx.toNat + 1 = emitLast.outLen.toNat)
    ∧ (emitFull.Inv 1 ∧ emitFull.phase = .emit ∧ ¬ emitFull.outq.length < 1)
    ∧ (⟨emitFull, [], [], [.engine]⟩ : State).turns = .engine :: [] :=
  ⟨⟨inv_emitFirst, by decide⟩, ⟨inv_emitLast, by decide⟩, ⟨inv_emitFull, by decide⟩, rfl⟩

theorem witness_OutputSequenceIsAFrameOrARunStream :
    (emitFirst.Inv 4 ∧ emitFirst.phase = .emit ∧ emitFirst.opc = .enc)
    ∧ ((emittingRuns .encRle 3#8 2#8 w1 6#32 0#17).Inv 1 ∧ (emittingRuns .encRle 3#8 2#8 w1 6#32 0#17).phase = .emit
      ∧ (emittingRuns .encRle 3#8 2#8 w1 6#32 0#17).opc = .encRle)
    ∧ ((emittingRuns .rle 3#8 2#8 w1 6#32 0#17).Inv 1 ∧ (emittingRuns .rle 3#8 2#8 w1 6#32 0#17).opc = .rle) :=
  ⟨⟨inv_emitFirst, rfl, rfl⟩, ⟨inv_emitRuns _ (.inl rfl), rfl, rfl⟩, ⟨inv_emitRuns _ (.inr rfl), rfl⟩⟩

/-- The last byte is pushed and then read. -/
theorem witness_OutputStreamIsWhatEmitPushed :
    ∃ t : State, Turn.reset ∉ (oneAccess (rd .outData) [] emitLast).turns
      ∧ runAt 1 2 (oneAccess (rd .outData) [] emitLast) = .next t ∧ outputStream t.reads = [0x40#8] :=
  ⟨_, by decide, rfl, by decide⟩

/-- Both ends: one byte out of four, and all four. -/
theorem witness_EachCommandPushesItsOutputOnce :
    (ofDdc emitFirst).Inv 4 ∧ emitFirst.phase = .emit ∧ emitFirst.eidx = 0#17 ∧ Turn.reset ∉ (ofDdc emitFirst).turns
      ∧ (∃ t : State, runAt 4 1 (ofDdc emitFirst) = .next t ∧ t.ddc.phase = .emit)
      ∧ (∃ t : State, runAt 4 4 (ofDdc emitFirst) = .next t ∧ t.ddc.phase = .idle)
      ∧ ∀ (m : Nat) (u : State), m < 4 → runAt 4 m (ofDdc emitFirst) = .next u → u.ddc.phase = .emit := by
  refine ⟨inv_emitFirst, rfl, rfl, by decide, ⟨_, rfl, rfl⟩, ⟨_, rfl, rfl⟩, fun m u hm hu => ?_⟩
  have key : ∀ m < 4, ((nextOf (runAt 4 m (ofDdc emitFirst))).map (fun t => t.ddc.phase)) = some .emit := by decide
  have hk := key m hm
  rw [hu] at hk
  exact Option.some.inj hk

theorem witness_EmitEndsWhenOutqHasRoom :
    emitFirst.Inv 4 ∧ emitFirst.phase = .emit
      ∧ emitFirst.outq.length + (emitFirst.outLen.toNat - emitFirst.eidx.toNat) ≤ 4 :=
  ⟨inv_emitFirst, by decide⟩

/-- The writers' own steps: a DIM write, RLE_END, and the last input byte of an ENC. -/
theorem witness_DimRunCountAndOutLenHaveTheirWriters :
    (∃ t : State, stepAt 1 (oneAccess (wr .dim 7#32) [] (Ddc.reset 0)) = .next t ∧ t.ddc.dim = 7#32
      ∧ (nextTurn 1 (oneAccess (wr .dim 7#32) [] (Ddc.reset 0))).1 ≠ .reset)
    ∧ (∃ t : State, stepAt 1 (ofDdc bitsDone) = .next t ∧ t.ddc.runCount = 6#32 ∧ t.ddc.outLen = 12#32
      ∧ (nextTurn 1 (ofDdc bitsDone)).1 ≠ .reset) :=
  ⟨⟨_, rfl, by decide⟩, ⟨_, rfl, by decide⟩⟩

/-- A CMD write, an input byte and a STATUS write. -/
theorem witness_ErrHasItsWriters :
    (∃ t : State, stepAt 1 (oneAccess (wr .cmd 0x11#32) [] (Ddc.reset 0)) = .next t ∧ t.ddc.err = 2#4)
    ∧ (∃ t : State, stepAt 1 (oneAccess (wr .inData 5#32) [] (Ddc.reset 0)) = .next t ∧ t.ddc.err = 4#4)
    ∧ (∃ t : State, stepAt 1 (oneAccess (wr .status 0x100#32) [] { Ddc.reset 0 with err := 3#4 }) = .next t
      ∧ t.ddc.err = 0#4)
    ∧ (nextTurn 1 (oneAccess (wr .inData 5#32) [] (Ddc.reset 0))).1 ≠ .reset :=
  ⟨⟨_, rfl, by decide⟩, ⟨_, rfl, by decide⟩, ⟨_, rfl, by decide⟩, by decide⟩

/-- The last EMIT_BYTE, an acceptance and a STATUS write. -/
theorem witness_DoneHasItsWriters :
    (∃ t : State, stepAt 1 (ofDdc emitLast) = .next t ∧ t.ddc.done = true)
    ∧ (∃ t : State, stepAt 1 (oneAccess (wr .cmd 3#32) [] { Ddc.reset 0 with done := true }) = .next t
      ∧ t.ddc.done = false)
    ∧ (∃ t : State, stepAt 1 (oneAccess (wr .status 0x008#32) [] { Ddc.reset 0 with done := true }) = .next t
      ∧ t.ddc.done = false)
    ∧ (nextTurn 1 (ofDdc emitLast)).1 ≠ .reset :=
  ⟨⟨_, rfl, by decide⟩, ⟨_, rfl, by decide⟩, ⟨_, rfl, by decide⟩, by decide⟩

/-- A step from each phase; from IDLE, one that skips LOAD and two that do not. -/
theorem witness_PhaseMovesInItsOrder :
    (∃ t : State, stepAt 1 (oneAccess (wr .cmd 3#32) [] (Ddc.reset 0)) = .next t ∧ t.ddc.phase = .load ∧ t.ddc.opc = .rle)
    ∧ (∃ t : State, stepAt 1 (oneAccess (wr .cmd 1#32) [] (idleDim 0x00010001#32)) = .next t ∧ t.ddc.phase = .load
      ∧ t.ddc.len ≠ 0)
    ∧ (∃ t : State, stepAt 1 (oneAccess (wr .cmd 1#32) [] (Ddc.reset 0)) = .next t ∧ t.ddc.phase = .emit)
    ∧ (∃ t : State, stepAt 1 (oneAccess (wr .inData 1#32) [] lastPixel) = .next t ∧ t.ddc.phase = .count)
    ∧ (∃ t : State, stepAt 1 (ofDdc bitsDone) = .next t ∧ t.ddc.phase = .emit)
    ∧ (∃ t : State, stepAt 1 (ofDdc emitLast) = .next t ∧ t.ddc.phase = .idle)
    ∧ (nextTurn 1 (ofDdc bitsDone)).1 ≠ .reset :=
  ⟨⟨_, rfl, by decide⟩, ⟨_, rfl, by decide⟩, ⟨_, rfl, by decide⟩, ⟨_, rfl, by decide⟩, ⟨_, rfl, by decide⟩,
    ⟨_, rfl, by decide⟩, by decide⟩

/-- States with the invariant in every phase. -/
theorem witness_EveryStepAnswersAndKeepsTheInvariant :
    (ofDdc (Ddc.reset 0)).Inv 1 ∧ (ofDdc lastPixel).Inv 1 ∧ (ofDdc lastFrameByte).Inv 1 ∧ (ofDdc lastBit).Inv 1
      ∧ (ofDdc bitsDone).Inv 1 ∧ (ofDdc emitLast).Inv 1 ∧ (ofDdc emitFull).Inv 1 :=
  ⟨inv_reset, inv_lastPixel, inv_lastFrameByte, inv_lastBit, inv_bitsDone, inv_emitLast, inv_emitFull⟩

theorem witness_ResetGivesEveryElementItsValue :
    (⟨emitFull, [], [], [.reset]⟩ : State).turns = .reset :: [] ∧ Instr.rdOutData.isRead = true := by decide

theorem witness_ReadsShowOnlyTheHostView :
    Instr.rdStatus.isRead = true ∧ lastBit.hostView = bitsDone.hostView ∧ (ofDdc lastBit).reads = (ofDdc bitsDone).reads := by
  decide

theorem witness_DimIsNotReadDuringACommand :
    lastPixel.phase ≠ .idle ∧ (∃ t : State, exec (.wrInData 1#32) (ofDdc lastPixel) = .next t)
      ∧ ∃ t : State, engineTurn 1 (ofDdc lastBit) = .next t :=
  ⟨by decide, ⟨_, rfl⟩, ⟨_, rfl⟩⟩

/-- A command one pixel short, and a HOST that only reads. -/
theorem witness_TooLittleInputLeavesTheCommandWaiting :
    lastPixel.phase = .load ∧ Turn.reset ∉ (oneAccess (rd .outData) [.engine, .host] lastPixel).turns
      ∧ (∀ a ∈ (oneAccess (rd .outData) [.engine, .host] lastPixel).bus, ∀ w : Word, decode a ≠ .wrInData w)
      ∧ ∃ t : State, runAt 1 2 (oneAccess (rd .outData) [.engine, .host] lastPixel) = .next t := by
  refine ⟨by decide, by decide, fun a ha w => ?_, _, rfl⟩
  obtain rfl : a = rd .outData := by simpa [oneAccess] using ha
  have hd : decode (rd .outData) = .rdOutData := by decide
  rw [hd]
  exact fun h => Instr.noConfusion h

theorem witness_EmptyGridsGiveTheirHeader :
    (idleDim 0x00FF0000#32).phase = .idle ∧ ((idleDim 0x00FF0000#32).dim.extractLsb' 0 16).toNat ≤ 255
      ∧ ((idleDim 0x00FF0000#32).dim.extractLsb' 16 16).toNat ≤ 255
      ∧ (idleDim 0x00FF0000#32).dim.extractLsb' 0 16 = 0#16 := by decide

/-- The HOST of R107 for the 1 x 1 grid with one white pixel, then reads. -/
def onePixel (command : Word) (n : Nat) : State :=
  ⟨Ddc.reset 0, [wr .dim (dimWord 1#16 1#16), wr .cmd command] ++ [0x80#32].map (wr .inData)
    ++ List.replicate n (rd .outData), [], []⟩

/-- ENC: two set-up writes, a pixel, three EMIT steps, and one byte is read. -/
theorem witness_PixelCommandsDeliverTheirOutput_enc :
    (onePixel 1#32 1).Inv 4 ∧ (onePixel 1#32 1).ddc.phase = .idle ∧ (onePixel 1#32 1).ddc.outq = []
      ∧ Turn.reset ∉ (onePixel 1#32 1).turns ∧ [0x80#32].length = (1#8).toNat * (1#8).toNat
      ∧ ∃ t : State, runAt 4 7 (onePixel 1#32 1) = .next t ∧ t.bus = [] ∧ t.ddc.phase = .idle
          ∧ outputStream t.reads = [1#8] ∧ t.ddc.outq = [1#8, 0x80#8] :=
  ⟨by constructor <;> decide, by decide, by decide, by decide, by decide, _, rfl, by decide, by decide, by decide, by decide⟩

/-- ENC_RLE: two set-up writes, a pixel, nine COUNT steps, eight EMIT steps (section 2.4). -/
theorem witness_PixelCommandsDeliverTheirOutput_encRle :
    (onePixel 2#32 0).Inv 8 ∧ (onePixel 2#32 0).ddc.phase = .idle
      ∧ ∃ t : State, runAt 8 20 (onePixel 2#32 0) = .next t ∧ t.bus = [] ∧ t.ddc.phase = .idle
          ∧ t.ddc.outq = [1#8, 1#8, 0#8, 0#8, 0#8, 2#8, 0x80#8, 6#8] :=
  ⟨by constructor <;> decide, by decide, _, rfl, by decide, by decide, by decide⟩

/-- The HOST of R107 for an empty Frame of width 0 and height 5, then no read. -/
def emptyFrame : State := ⟨Ddc.reset 0, [wr .cmd 3#32] ++ [0#32, 5#32].map (wr .inData) ++ List.replicate 0 (rd .outData), [], []⟩

/-- RLE: the command, two header bytes, one COUNT step, six EMIT steps (W3). -/
theorem witness_FrameCommandDeliversItsRunStream :
    emptyFrame.Inv 6 ∧ emptyFrame.ddc.phase = .idle ∧ emptyFrame.ddc.outq = [] ∧ Turn.reset ∉ emptyFrame.turns
      ∧ [0#32, 5#32].map (fun x => x.extractLsb' 0 8) = 0#8 :: 5#8 :: []
      ∧ ([] : List Byte).length = (5#8).toNat * ceilDiv (0#8).toNat 8
      ∧ ∃ t : State, runAt 6 10 emptyFrame = .next t ∧ t.bus = [] ∧ t.ddc.phase = .idle
          ∧ t.ddc.outq = [0#8, 5#8, 0#8, 0#8, 0#8, 0#8] :=
  ⟨by constructor <;> decide, by decide, by decide, by decide, by decide, by decide, _, rfl, by decide, by decide, by decide⟩

/-- From COUNT, from EMIT with a full queue, and from IDLE. -/
theorem witness_DrainingReadsEndTheRun :
    ((ofDdc bitsDone).Inv 1 ∧ bitsDone.phase ≠ .load ∧ (ofDdc bitsDone).turns = []
      ∧ bitsDone.outq.length + (6 + (runs (bits bitsDone.payload)).length) ≤ 12)
    ∧ ((ofDdc emitFull).Inv 1 ∧ emitFull.phase ≠ .load
      ∧ emitFull.outq.length + (emitFull.outLen.toNat - emitFull.eidx.toNat) ≤ 4)
    ∧ ((ofDdc (Ddc.reset 0)).Inv 1 ∧ (Ddc.reset 0).phase ≠ .load ∧ (Ddc.reset 0).outq.length + 0 ≤ 0) :=
  ⟨⟨inv_bitsDone, by decide⟩, ⟨inv_emitFull, by decide⟩, ⟨inv_reset, by decide⟩⟩

end Sys2Proof.Tests
end

section
/-! The inversion lemmas of the step that name what becomes of the DDC. -/

namespace Sys2Proof.Machine

/-- A step that goes on has not faulted, and its DDC is the one the operation gave. -/
theorem State.ddc_of_after_eq_next {s t : State} {r : Except Fault Ddc} (h : s.after r = .next t) : r = .ok t.ddc := by
  cases r with
  | ok d => rw [State.after_ok] at h; cases h; rfl
  | error f => rw [State.after_error] at h; cases h

/-- What an access can do to the DDC (44_host_bus.md R108 to R123): a command's own instruction is the CMD write of its
word. -/
theorem exec_ddc_cases {i : Instr} {s t : State} (h : exec i s = .next t) :
    t.ddc = s.ddc ∨
    (i = .rdOutData ∧ t.ddc = { s.ddc with outq := s.ddc.outq.tail }) ∨
    (∃ w, i = .wrDim w ∧ t.ddc = { s.ddc with dim := w }) ∨
    (∃ w, i = .wrStatus w ∧ t.ddc = clearStatus w s.ddc) ∨
    (∃ w, i = .wrInData w ∧ inDataWrite w s.ddc = .ok t.ddc) ∨
    (∃ w, (i = .wrCmd w ∨ i = commandOf w) ∧ t.ddc = cmdWrite w s.ddc) := by
  cases i
  case rdOutData => cases h; exact .inr (.inl ⟨rfl, rfl⟩)
  case wrDim w => cases h; exact .inr (.inr (.inl ⟨w, rfl, rfl⟩))
  case wrStatus w => cases h; exact .inr (.inr (.inr (.inl ⟨w, rfl, rfl⟩)))
  case wrInData w => exact .inr (.inr (.inr (.inr (.inl ⟨w, rfl, State.ddc_of_after_eq_next h⟩))))
  case wrCmd w => cases h; exact .inr (.inr (.inr (.inr (.inr ⟨w, .inl rfl, rfl⟩))))
  case enc => cases h; exact .inr (.inr (.inr (.inr (.inr ⟨1#32, .inr (by decide), rfl⟩))))
  case encRle => cases h; exact .inr (.inr (.inr (.inr (.inr ⟨2#32, .inr (by decide), rfl⟩))))
  case rle => cases h; exact .inr (.inr (.inr (.inr (.inr ⟨3#32, .inr (by decide), rfl⟩))))
  all_goals cases h; exact .inl rfl

/-- What a step that is no RESET can do to the DDC: nothing, the next access of the HOST, or the ENGINE's step. -/
theorem stepAt_ddc_cases {depth : Nat} {s t : State} (h : stepAt depth s = .next t)
    (hr : (nextTurn depth s).1 ≠ .reset) :
    t.ddc = s.ddc ∨
    (∃ i s', s.nextAccess depth = some i ∧ s'.ddc = s.ddc ∧ exec i s' = .next t) ∨
    ((nextTurn depth s).1 = .engine ∧ engineEnabled depth s.ddc = true ∧ engineAct s.ddc = .ok t.ddc) := by
  obtain ⟨hddc, -, -⟩ := nextTurn_keeps depth s
  rcases stepAt_cases depth s with ⟨a, rest, ht, hb, e⟩ | ⟨-, -, e⟩ | ⟨ht, e⟩ | ⟨ht, -⟩
  · exact .inr (.inl ⟨decode a, { (nextTurn depth s).2 with bus := rest }, by simp [State.nextAccess, ht, hb], hddc,
      e.symm.trans h⟩)
  · rw [e] at h; cases h; exact .inl hddc
  · rw [e] at h
    rcases engineTurn_cases depth (nextTurn depth s).2 with ⟨-, e'⟩ | ⟨hen, e'⟩
    · rw [e'] at h; cases h; exact .inl hddc
    · rw [e'] at h
      have hact := State.ddc_of_after_eq_next h
      rw [hddc] at hen hact
      exact .inr (.inr ⟨ht, hen, hact⟩)
  · exact absurd ht hr

/-- Storing a group writes PBUF and ACC, and nothing else (40_row_packer.md R74). -/
theorem storeGroup_frame {d e : Ddc} (h : storeGroup d = .ok e) : e = { d with pbuf := e.pbuf, acc := e.acc } := by
  rcases storeGroup_cases d with ⟨-, he⟩ | ⟨-, -, he⟩ | ⟨-, -, he⟩ <;> rw [he] at h <;> cases h <;> rfl

/-- PACK_PIXEL that goes on has stored its group, if there was one to store, and then moved on in the row. -/
theorem packPixel_eq_ok {w : Word} {d e : Ddc} (h : packPixel w d = .ok e) :
    ∃ g, storeGroup (placePixel (pixelBit w) d) = .ok g ∧ e = endRow g := by
  unfold packPixel at h
  cases hg : storeGroup (placePixel (pixelBit w) d) with
  | ok g => rw [hg] at h; cases h; exact ⟨g, rfl, rfl⟩
  | error f => rw [hg] at h; cases h

/-- A legal word that is not RLE's names a command that reads pixels (30_encoding.md R61). -/
theorem legalOp_pixels {w : Word} {op : Opc} (hl : legalOp w = some op) (hr : op ≠ .rle) : op = .enc ∨ op = .encRle := by
  cases op with
  | none => exact absurd rfl (legalOp_ne_none hl)
  | enc => exact .inl rfl
  | encRle => exact .inr rfl
  | rle => exact absurd rfl hr

/-- ACCEPT_PIXELS keeps the operation it was given (43_commands.md R99). -/
@[simp] theorem acceptPixels_opc (op : Opc) (d : Ddc) : (acceptPixels op d).opc = op := by
  simp only [acceptPixels]
  split <;> simp

/-- ACCEPT_PIXELS goes to LOAD exactly when there is a pixel to load (43_commands.md R99). -/
theorem acceptPixels_phase (op : Opc) (d : Ddc) :
    (acceptPixels op d).phase =
      if (acceptPixels op d).len = 0 then (if op = .enc then .emit else .count) else .load := by
  simp only [acceptPixels]
  split
  · next h =>
    rw [loadComplete_phase, Ddc.len_congr (loadComplete_curW _) (loadComplete_curH _), if_pos h]
  · next h => exact (if_neg h).symm

end Sys2Proof.Machine
end

section
/-! R24, R59: reading OUT_DATA. -/

namespace Sys2Proof.Machine

theorem exec_rdOutData (s : State) :
    exec .rdOutData s =
      .next ({ s with ddc := { s.ddc with outq := s.ddc.outq.tail } }.returns .outData (outWord s.ddc.outq.head?)) := rfl

/-- DATA, VALID and the zero bits of the word that returns a byte (30_encoding.md R59). -/
theorem outWord_some_fields (b : Byte) :
    (outWord (some b)).extractLsb' 0 8 = b ∧ (outWord (some b)).getLsbD 8 = true
      ∧ (outWord (some b)).extractLsb' 9 23 = 0#23 := by
  revert b
  decide

/-- Settles O8, by the two cases of OUTQ. -/
theorem outDataReadTakesTheHead : Obligations.OutDataReadTakesTheHead := by
  intro s
  refine ⟨fun b q hq => ⟨outWord (some b), ?_, outWord_some_fields b⟩, fun hq => ?_⟩
  · rw [exec_rdOutData, hq]; rfl
  · have hd : { s.ddc with outq := [] } = s.ddc := by rw [← hq]
    rw [exec_rdOutData, hq, List.tail_nil, hd]; rfl

end Sys2Proof.Machine
end

section
/-! R27: the moves of PHASE. -/

namespace Sys2Proof.Machine

/-- The moves of PHASE that R27 allows: from the phase a step finds to the DDC it leaves. -/
inductive PhaseMove : Phase → Ddc → Prop
  | stay {p : Phase} {e : Ddc} (he : e.phase = p) : PhaseMove p e
  | beginLoad {e : Ddc} (he : e.phase = .load) (hin : e.opc = .rle ∨ e.len ≠ 0) : PhaseMove .idle e
  | skipLoadToEmit {e : Ddc} (he : e.phase = .emit) (ho : e.opc = .enc) (hl : e.len = 0) : PhaseMove .idle e
  | skipLoadToCount {e : Ddc} (he : e.phase = .count) (ho : e.opc = .encRle) (hl : e.len = 0) : PhaseMove .idle e
  | endLoadToEmit {e : Ddc} (he : e.phase = .emit) (ho : e.opc = .enc) : PhaseMove .load e
  | endLoadToCount {e : Ddc} (he : e.phase = .count) (ho : e.opc = .encRle ∨ e.opc = .rle) : PhaseMove .load e
  | endCount {e : Ddc} (he : e.phase = .emit) : PhaseMove .count e
  | endEmit {e : Ddc} (he : e.phase = .idle) (hdone : e.done = true) : PhaseMove .emit e

/-- LOAD_COMPLETE goes to EMIT or COUNT by its operation (40_row_packer.md R75). -/
theorem loadComplete_phaseMove {d : Ddc} (ho : d.opc ≠ .none) : PhaseMove .load (loadComplete d) := by
  cases h : d.opc with
  | none => exact absurd h ho
  | enc => exact .endLoadToEmit (by simp [h]) (by simp [h])
  | encRle => exact .endLoadToCount (by simp [h]) (by simp [h])
  | rle => exact .endLoadToCount (by simp [h]) (by simp [h])

/-- A pixel leaves the DDC in LOAD unless it is the last (40_row_packer.md R74). -/
theorem packPixel_phaseMove {w : Word} {d e : Ddc} (h : packPixel w d = .ok e) (hp : d.phase = .load)
    (ho : d.opc ≠ .none) : PhaseMove .load e := by
  obtain ⟨g, hg, rfl⟩ := packPixel_eq_ok h
  have hgp : g.phase = .load := by rw [storeGroup_frame hg]; exact hp
  have hgo : g.opc ≠ .none := by rw [storeGroup_frame hg]; exact ho
  rcases endRow_cases g with ⟨-, he⟩ | ⟨-, -, he⟩ | ⟨-, -, he⟩ <;> rw [he]
  · exact .stay hgp
  · exact .stay hgp
  · exact loadComplete_phaseMove hgo

/-- A frame byte leaves the DDC in LOAD unless it is the last (42_run_length.md R90). -/
theorem loadFrameByte_phaseMove {w : Word} {d e : Ddc} (h : loadFrameByte w d = .ok e) (hp : d.phase = .load)
    (ho : d.opc ≠ .none) : PhaseMove .load e := by
  rcases loadFrameByte_cases w d with ⟨-, he⟩ | ⟨-, he⟩ | ⟨-, -, -, he⟩ | ⟨-, -, -, he⟩ <;> rw [he] at h <;> cases h
  · exact .stay hp
  · simp only [loadHeight]
    split
    · exact loadComplete_phaseMove ho
    · exact .stay hp
  · simp only [advancePidx]
    split
    · exact loadComplete_phaseMove ho
    · exact .stay hp

/-- An IN_DATA write moves PHASE out of LOAD alone (44_host_bus.md R119). -/
theorem inDataWrite_phaseMove {w : Word} {d e : Ddc} (h : inDataWrite w d = .ok e) : PhaseMove d.phase e := by
  rcases inDataWrite_cases w d with ⟨hp, ho, he⟩ | ⟨hp, ho, he⟩ | ⟨-, he⟩ <;> rw [he] at h
  · rw [hp]; exact packPixel_phaseMove h hp (by rcases ho with ho | ho <;> simp [ho])
  · rw [hp]; exact loadFrameByte_phaseMove h hp (by simp [ho])
  · cases h; exact .stay (raiseErr_phase _ _)

/-- The acceptance of ENC or ENC_RLE skips LOAD exactly when L = 0 (43_commands.md R99). -/
theorem acceptPixels_phaseMove {op : Opc} (d : Ddc) (ho : op = .enc ∨ op = .encRle) :
    PhaseMove .idle (acceptPixels op d) := by
  have hp := acceptPixels_phase op d
  by_cases hl : (acceptPixels op d).len = 0
  · rw [if_pos hl] at hp
    rcases ho with rfl | rfl
    · exact .skipLoadToEmit hp (acceptPixels_opc _ _) hl
    · exact .skipLoadToCount hp (acceptPixels_opc _ _) hl
  · rw [if_neg hl] at hp
    exact .beginLoad hp (.inr hl)

/-- A CMD write moves PHASE out of IDLE alone, and only when the command is accepted (43_commands.md R98). -/
theorem cmdWrite_phaseMove (w : Word) (d : Ddc) : PhaseMove d.phase (cmdWrite w d) := by
  rcases cmdWrite_cases w d with ⟨-, he⟩ | ⟨-, -, he⟩ | ⟨_, -, -, -, -, he⟩ | ⟨op, hd, hl, hr, -, he⟩ | ⟨hd, -, he⟩ <;>
    rw [he]
  · exact .stay (raiseErr_phase _ _)
  · exact .stay (raiseErr_phase _ _)
  · exact .stay (raiseErr_phase _ _)
  · rw [hd]; exact acceptPixels_phaseMove d (legalOp_pixels hl hr)
  · rw [hd]; exact .beginLoad (acceptFrame_phase d) (.inl (acceptFrame_opc d))

/-- Every access moves PHASE as R27 allows. -/
theorem exec_phaseMove {i : Instr} {s t : State} (h : exec i s = .next t) : PhaseMove s.ddc.phase t.ddc := by
  rcases exec_ddc_cases h with e | ⟨-, e⟩ | ⟨w, -, e⟩ | ⟨w, -, e⟩ | ⟨w, -, e⟩ | ⟨w, -, e⟩
  · exact .stay (by rw [e])
  · exact .stay (by rw [e])
  · exact .stay (by rw [e])
  · exact .stay (by rw [e, clearStatus_phase])
  · exact inDataWrite_phaseMove e
  · rw [e]; exact cmdWrite_phaseMove w s.ddc

/-- The ENGINE moves PHASE at the end of COUNT and at the end of EMIT (41_output_stream.md R80, 42_run_length.md R92). -/
theorem engineAct_phaseMove {depth : Nat} {d e : Ddc} (hen : engineEnabled depth d = true) (h : engineAct d = .ok e) :
    PhaseMove d.phase e := by
  rcases engineAct_cases hen with ⟨-, -, he⟩ | ⟨hp, -, he⟩ | ⟨hp, -, he⟩ <;> rw [he] at h
  · cases h; exact .stay (countBit_phase d)
  · cases h; rw [hp]; exact .endCount (countEnd_phase d)
  · rcases emitByte_cases d with ⟨b, -, hb⟩ | ⟨-, hb⟩ <;> rw [hb] at h <;> cases h
    by_cases hlast : (pushOut b d).eidx.toNat = (pushOut b d).outLen.toNat
    · rw [hp]; exact .endEmit (by rw [endEmit_phase, if_pos hlast]) (by rw [endEmit_done, if_pos hlast])
    · exact .stay (by rw [endEmit_phase, if_neg hlast, pushOut_phase])

/-- Every step but a RESET moves PHASE as R27 allows. -/
theorem stepAt_phaseMove {depth : Nat} {s t : State} (h : stepAt depth s = .next t)
    (hr : (nextTurn depth s).1 ≠ .reset) : PhaseMove s.ddc.phase t.ddc := by
  rcases stepAt_ddc_cases h hr with e | ⟨i, s', -, hs, e⟩ | ⟨-, hen, e⟩
  · exact .stay (by rw [e])
  · rw [← hs]; exact exec_phaseMove e
  · exact engineAct_phaseMove hen e

/-- Settles O41: every step's move is one of `PhaseMove`, and each clause lists those out of one phase. -/
theorem phaseMovesInItsOrder : Obligations.PhaseMovesInItsOrder := by
  refine ⟨rfl, fun depth s t h hr => ?_⟩
  have hm := stepAt_phaseMove h hr
  generalize s.ddc.phase = p at hm
  refine ⟨?idle, ?load, ?count, ?emit⟩ <;> rintro rfl
  case idle =>
    cases hm with
    | stay he => exact .inl he
    | beginLoad he hin => exact .inr (.inl ⟨he, hin⟩)
    | skipLoadToEmit he ho hl => exact .inr (.inr (.inl ⟨he, ho, hl⟩))
    | skipLoadToCount he ho hl => exact .inr (.inr (.inr ⟨he, ho, hl⟩))
  case load =>
    cases hm with
    | stay he => exact .inl he
    | endLoadToEmit he ho => exact .inr (.inl ⟨he, ho⟩)
    | endLoadToCount he ho => exact .inr (.inr ⟨he, ho⟩)
  case count =>
    cases hm with
    | stay he => exact .inl he
    | endCount he => exact .inr he
  case emit =>
    cases hm with
    | stay he => exact .inl he
    | endEmit he hdone => exact .inr ⟨he, hdone⟩

end Sys2Proof.Machine
end

section
/-! R57, R117: the DIM word and its write. -/

namespace Sys2Proof.Machine

theorem exec_wrDim (w : Word) (s : State) : exec (.wrDim w) s = .next { s with ddc := { s.ddc with dim := w } } := rfl

/-- The DIM word is HEIGHT followed by WIDTH: the two halves share no bit (30_encoding.md R57). -/
theorem dimWord_eq_append (w h : BitVec 16) : dimWord w h = h ++ w := by
  rw [BitVec.append_def, BitVec.shiftLeftZeroExtend_eq, BitVec.setWidth'_eq]
  rfl

theorem dimWord_toNat (w h : BitVec 16) : (dimWord w h).toNat = h.toNat * 2 ^ 16 + w.toNat := by
  rw [dimWord_eq_append, BitVec.toNat_append, ← Nat.shiftLeft_add_eq_or_of_lt w.isLt, Nat.shiftLeft_eq]

/-- WIDTH, the low half of the DIM word (30_encoding.md R57). -/
@[simp] theorem dimWord_width (w h : BitVec 16) : (dimWord w h).extractLsb' 0 16 = w := by
  rw [dimWord_eq_append]
  exact BitVec.extractLsb'_append_eq_right

/-- HEIGHT, the high half of the DIM word (30_encoding.md R57). -/
@[simp] theorem dimWord_height (w h : BitVec 16) : (dimWord w h).extractLsb' 16 16 = h := by
  rw [dimWord_eq_append]
  exact BitVec.extractLsb'_append_eq_left

/-- Settles O9: the write stores its word, and the word is HEIGHT followed by WIDTH. -/
theorem dimWriteStoresWidthAndHeight : Obligations.DimWriteStoresWidthAndHeight :=
  ⟨exec_wrDim, fun w h => ⟨dimWord_toNat w h, dimWord_width w h, dimWord_height w h⟩⟩

end Sys2Proof.Machine
end

section
/-! R64: the run-byte. -/

namespace Sys2Proof.Machine

/-- A run-byte is its value's bit followed by its length less one in seven bits (30_encoding.md R64). -/
theorem runByte_eq_append (v : Bool) {n : Nat} (h1 : 1 ≤ n) (h128 : n ≤ 128) :
    runByte v (BitVec.ofNat 8 n) = BitVec.ofBool v ++ BitVec.ofNat 7 (n - 1) := by
  have hlen : BitVec.ofNat 8 n - 1#8 = (BitVec.ofNat 7 (n - 1)).setWidth 8 := by
    apply BitVec.eq_of_toNat_eq
    simp only [BitVec.toNat_sub, BitVec.toNat_ofNat, BitVec.toNat_setWidth]
    omega
  rw [BitVec.append_def, BitVec.shiftLeftZeroExtend_eq, BitVec.setWidth'_eq, runByte, hlen]

/-- Bit 7 of a run-byte is its value (30_encoding.md R64). -/
theorem runByte_valueBit (v : Bool) {n : Nat} (h1 : 1 ≤ n) (h128 : n ≤ 128) :
    (runByte v (BitVec.ofNat 8 n)).getLsbD 7 = v := by
  rw [runByte_eq_append v h1 h128, BitVec.getLsbD_append]
  simp

/-- Bits 6:0 of a run-byte are its length less one (30_encoding.md R64). -/
theorem runByte_lengthField (v : Bool) {n : Nat} (h1 : 1 ≤ n) (h128 : n ≤ 128) :
    ((runByte v (BitVec.ofNat 8 n)).extractLsb' 0 7).toNat = n - 1 := by
  have hlow : (runByte v (BitVec.ofNat 8 n)).extractLsb' 0 7 = BitVec.ofNat 7 (n - 1) := by
    rw [runByte_eq_append v h1 h128]
    exact BitVec.extractLsb'_append_eq_right
  rw [hlow, BitVec.toNat_ofNat, Nat.mod_eq_of_lt (by omega)]

/-- Every byte is the run-byte of its own two fields (30_encoding.md R64). -/
theorem runByte_fields (b : Byte) :
    runByte (b.getLsbD 7) (BitVec.ofNat 8 ((b.extractLsb' 0 7).toNat + 1)) = b := by
  have hlow : (b.extractLsb' 0 7).toNat < 128 := (b.extractLsb' 0 7).isLt
  rw [runByte_eq_append _ (by omega) (by omega), Nat.add_sub_cancel, BitVec.ofNat_toNat, BitVec.setWidth_eq,
    BitVec.ofBool_append, ← BitVec.setWidth_eq_extractLsb' (by decide)]
  exact BitVec.cons_msb_setWidth b

/-- Settles O32, both ways: from a value and a length to the two fields, and from a byte's fields back to it. -/
theorem runByteLayout : Obligations.RunByteLayout :=
  ⟨fun v _ h1 h128 => ⟨runByte_valueBit v h1 h128, runByte_lengthField v h1 h128⟩, fun b => (runByte_fields b).symm⟩

end Sys2Proof.Machine
end

section
/-! R75: LOAD_COMPLETE. -/

namespace Sys2Proof.Machine

/-- The output length of an ENC, 2 + L, fits the 32 bits of OUT_LEN (10_state.md R26). -/
theorem toNat_ofNat_encLength (d : Ddc) : (BitVec.ofNat 32 (2 + d.len)).toNat = 2 + d.len := by
  have hl : d.len ≤ 8160 := d.len_le
  rw [BitVec.toNat_ofNat, Nat.mod_eq_of_lt (by omega)]

/-- Settles O19, by the operation in progress. -/
theorem loadCompleteEntersEmitOrCount : Obligations.LoadCompleteEntersEmitOrCount := by
  intro d
  rcases loadComplete_cases d with ⟨ho, he⟩ | ⟨ho, he⟩
  · exact ⟨fun _ => ⟨_, toNat_ofNat_encLength d, he⟩, fun h => absurd ho h⟩
  · exact ⟨fun h => absurd h ho, fun _ => he⟩

end Sys2Proof.Machine
end

section
/-! R74: PACK_PIXEL. -/

namespace Sys2Proof.Machine

/-- In LOAD of ENC or ENC_RLE an IN_DATA write is PACK_PIXEL (44_host_bus.md R119). -/
theorem exec_wrInData_pixel {s : State} (w : Word) (hp : s.ddc.phase = .load)
    (ho : s.ddc.opc = .enc ∨ s.ddc.opc = .encRle) : exec (.wrInData w) s = s.after (packPixel w s.ddc) := by
  have hw : inDataWrite w s.ddc = packPixel w s.ddc := if_pos ⟨hp, ho⟩
  exact congrArg s.after hw

/-- A counter below a byte-sized limit reaches it without wrapping. -/
theorem succ_eq_iff_of_lt {x y : BitVec 8} (h : x.toNat < y.toNat) : x + 1#8 = y ↔ x.toNat + 1 = y.toNat := by
  bv_omega

/-- The pixel bit is 1 exactly when BYTE is not zero (40_row_packer.md R69). -/
theorem pixelBit_eq_decide (w : Word) : pixelBit w = decide (w.extractLsb' 0 8 ≠ 0#8) := by
  rw [Bool.eq_iff_iff, pixelBit, inByte, bne_iff_ne, decide_eq_true_iff]

/-- A placed pixel adds its own bit to ACC and keeps the others (40_row_packer.md R74). -/
theorem placePixel_acc_getLsbD (w : Word) (d : Ddc) (j : Nat) :
    (placePixel (pixelBit w) d).acc.getLsbD j =
      (d.acc.getLsbD j || (decide (w.extractLsb' 0 8 ≠ 0#8) && decide (j = 7 - d.col.toNat % 8))) := by
  rw [placePixel_acc, BitVec.getLsbD_or, placeBit_getLsbD, pixelBit_eq_decide]

/-- The pixel just placed completes its group when it is the group's eighth or the row's last. -/
theorem groupComplete_placePixel (p : Bool) {d : Ddc} (hc : d.col.toNat < d.curW.toNat) :
    groupComplete (placePixel p d) = true ↔ (d.col.toNat + 1) % 8 = 0 ∨ d.col.toNat + 1 = d.curW.toNat := by
  have hsucc : (d.col + 1#8).toNat = d.col.toNat + 1 := by bv_omega
  simp only [groupComplete, placePixel_col, placePixel_curW, Bool.or_eq_true, beq_iff_eq, hsucc, succ_eq_iff_of_lt hc]

/-- The group of the pixel just placed has the address of the pixel's own column. -/
theorem groupAddr_placePixel (p : Bool) (d : Ddc) :
    groupAddr (placePixel p d) = d.row.toNat * bpr d.curW.toNat + d.col.toNat / 8 := by
  simp only [groupAddr, placePixel_row, placePixel_curW, placePixel_col, BitVec.add_sub_cancel]

/-- A pixel inside the grid has its group inside the payload (20_memory.md R41). -/
theorem pixelAddr_lt_len {d : Ddc} (hr : d.row.toNat < d.curH.toNat) (hc : d.col.toNat < d.curW.toNat) :
    d.row.toNat * bpr d.curW.toNat + d.col.toNat / 8 < d.len :=
  calc d.row.toNat * bpr d.curW.toNat + d.col.toNat / 8
      < d.row.toNat * bpr d.curW.toNat + bpr d.curW.toNat := Nat.add_lt_add_left (col_div_lt_bpr hc) _
    _ = (d.row.toNat + 1) * bpr d.curW.toNat := (Nat.succ_mul _ _).symm
    _ ≤ d.len := Nat.mul_le_mul_right _ hr

theorem endRow_within {d : Ddc} (hc : d.col ≠ d.curW) : endRow d = d := if_neg hc

theorem endRow_nextRow {d : Ddc} (hc : d.col = d.curW) (hr : d.row + 1#8 ≠ d.curH) :
    endRow d = { d with col := 0#8, row := d.row + 1#8 } := by
  simp [endRow, hc, hr]

theorem endRow_lastRow {d : Ddc} (hc : d.col = d.curW) (hr : d.row + 1#8 = d.curH) :
    endRow d = loadComplete { d with col := 0#8, row := d.row + 1#8 } := by
  simp [endRow, hc, hr]

/-- The end of a row stores nothing. -/
@[simp] theorem endRow_pbuf (d : Ddc) : (endRow d).pbuf = d.pbuf := by
  rcases endRow_cases d with ⟨-, he⟩ | ⟨-, -, he⟩ | ⟨-, -, he⟩ <;> simp [he]

@[simp] theorem endRow_pbufEpoch (d : Ddc) : (endRow d).pbufEpoch = d.pbufEpoch := by
  rcases endRow_cases d with ⟨-, he⟩ | ⟨-, -, he⟩ | ⟨-, -, he⟩ <;> simp [he]

@[simp] theorem pbufRead_endRow (d : Ddc) (a : Nat) : pbufRead (endRow d) a = pbufRead d a := by
  simp [pbufRead]

/-- The DDC with the pixel's group stored, before the end of the row is looked at (40_row_packer.md R74). -/
def storePixelGroup (p : Bool) (d : Ddc) : Ddc :=
  { d with
    pbuf := d.pbuf.set (d.row.toNat * bpr d.curW.toNat + d.col.toNat / 8) (placePixel p d).acc
    acc := 0#8
    col := d.col + 1#8 }

theorem pbufRead_storePixelGroup_same (p : Bool) (d : Ddc) :
    pbufRead (storePixelGroup p d) (d.row.toNat * bpr d.curW.toNat + d.col.toNat / 8) = (placePixel p d).acc :=
  pbufRead_set_same d _ _

theorem pbufRead_storePixelGroup_other (p : Bool) (d : Ddc) {a : Nat}
    (h : a ≠ d.row.toNat * bpr d.curW.toNat + d.col.toNat / 8) : pbufRead (storePixelGroup p d) a = pbufRead d a :=
  pbufRead_set_other d _ h

/-- After the store the row has ended when the pixel was in its last column. -/
theorem storePixelGroup_endsRow_iff (p : Bool) {d : Ddc} (hc : d.col.toNat < d.curW.toNat) :
    (storePixelGroup p d).col = (storePixelGroup p d).curW ↔ d.col.toNat + 1 = d.curW.toNat :=
  succ_eq_iff_of_lt hc

/-- After the store the row is the grid's last when ROW was one below CUR_H. -/
theorem storePixelGroup_lastRow_iff (p : Bool) {d : Ddc} (hr : d.row.toNat < d.curH.toNat) :
    (storePixelGroup p d).row + 1#8 = (storePixelGroup p d).curH ↔ d.row.toNat + 1 = d.curH.toNat :=
  succ_eq_iff_of_lt hr

/-- PACK_PIXEL within a group (40_row_packer.md R74). -/
theorem packPixel_within (w : Word) {d : Ddc} (hc : d.col.toNat < d.curW.toNat) (hg : (d.col.toNat + 1) % 8 ≠ 0)
    (he : d.col.toNat + 1 ≠ d.curW.toNat) : packPixel w d = .ok (placePixel (pixelBit w) d) := by
  have hopen : ¬ groupComplete (placePixel (pixelBit w) d) = true := by
    rw [groupComplete_placePixel _ hc]
    exact not_or.mpr ⟨hg, he⟩
  have hstore : storeGroup (placePixel (pixelBit w) d) = .ok (placePixel (pixelBit w) d) := if_neg hopen
  have hrow : endRow (placePixel (pixelBit w) d) = placePixel (pixelBit w) d :=
    endRow_within (mt (succ_eq_iff_of_lt hc).mp he)
  rw [packPixel, hstore, Except.map, hrow]

/-- PACK_PIXEL at the end of a group or of a row: the store is in range, so the pixel is taken (R74). -/
theorem packPixel_complete (w : Word) {d : Ddc} (hr : d.row.toNat < d.curH.toNat) (hc : d.col.toNat < d.curW.toNat)
    (hg : (d.col.toNat + 1) % 8 = 0 ∨ d.col.toNat + 1 = d.curW.toNat) :
    packPixel w d = .ok (endRow (storePixelGroup (pixelBit w) d)) := by
  have hfull := (groupComplete_placePixel (pixelBit w) hc).mpr hg
  have haddr := groupAddr_placePixel (pixelBit w) d
  have hlt := (pixelAddr_lt_len hr hc).trans_le d.len_le
  rcases storeGroup_cases (placePixel (pixelBit w) d) with ⟨hopen, -⟩ | ⟨-, -, hstore⟩ | ⟨-, hge, -⟩
  · rw [hfull] at hopen; cases hopen
  · rw [packPixel, hstore, haddr]; rfl
  · rw [haddr] at hge; exact absurd hlt (Nat.not_lt.mpr hge)

/-- Settles O18, by whether the pixel completes its group. -/
theorem pixelInputPacksOneBit : Obligations.PixelInputPacksOneBit := by
  intro w s hp ho hr hc
  have hbit := fun (j : Nat) (_ : j < 8) => placePixel_acc_getLsbD w s.ddc j
  have hexec := exec_wrInData_pixel w hp ho
  by_cases hg : (s.ddc.col.toNat + 1) % 8 = 0 ∨ s.ddc.col.toNat + 1 = s.ddc.curW.toNat
  · rw [packPixel_complete w hr hc hg] at hexec
    have hcol := storePixelGroup_endsRow_iff (pixelBit w) hc
    have hrow := storePixelGroup_lastRow_iff (pixelBit w) hr
    refine ⟨_, _, hexec, hbit, fun h8 hw => absurd hg (not_or.mpr ⟨h8, hw⟩),
      fun _ => ⟨?same, ?other, ?mid, ?row, ?last⟩⟩
    case same => exact (pbufRead_endRow _ _).trans (pbufRead_storePixelGroup_same _ _)
    case other => exact fun a ha => (pbufRead_endRow _ _).trans (pbufRead_storePixelGroup_other _ _ ha)
    case mid =>
      intro hw
      rw [endRow_within (mt hcol.mp hw)]
      rfl
    case row =>
      intro hw hh
      rw [endRow_nextRow (hcol.mpr hw) (mt hrow.mp hh)]
      rfl
    case last =>
      intro hw hh
      rw [endRow_pbuf, endRow_lastRow (hcol.mpr hw) (hrow.mpr hh)]
      rfl
  · rw [packPixel_within w hc (fun h => hg (.inl h)) (fun h => hg (.inr h))] at hexec
    exact ⟨_, _, hexec, hbit, fun _ _ => rfl, fun h => absurd h hg⟩

end Sys2Proof.Machine
end

section
/-! What a step leaves of the turns, and of the HOST's side when it is the ENGINE's. -/

namespace Sys2Proof.Machine

/-- A step that goes on with a new DDC leaves the HOST's side as it was. -/
theorem State.host_side_of_after_eq_next {s t : State} {r : Except Fault Ddc} (h : s.after r = .next t) :
    t = { s with ddc := t.ddc } := by
  cases r with
  | ok d => rw [State.after_ok] at h; cases h; rfl
  | error f => rw [State.after_error] at h; cases h

/-- A turn of the ENGINE leaves the HOST's side as it was. -/
theorem engineTurn_host_side {depth : Nat} {s t : State} (h : engineTurn depth s = .next t) :
    t = { s with ddc := t.ddc } := by
  rcases engineTurn_cases depth s with ⟨-, e⟩ | ⟨-, e⟩ <;> rw [e] at h
  · cases h; rfl
  · exact State.host_side_of_after_eq_next h

/-- A step takes its own turn off the list and leaves the others. -/
theorem stepAt_turns {depth : Nat} {s t : State} (h : stepAt depth s = .next t) :
    t.turns = (nextTurn depth s).2.turns := by
  rcases stepAt_cases depth s with ⟨a, rest, -, -, e⟩ | ⟨-, -, e⟩ | ⟨-, e⟩ | ⟨-, e⟩ <;> rw [e] at h
  · obtain ⟨-, hturns, -⟩ := exec_host_side h
    exact hturns
  · cases h; rfl
  · rw [engineTurn_host_side h]
  · cases h; rfl

/-- A step lists no new RESET. -/
theorem stepAt_keeps_noReset {depth : Nat} {s t : State} (h : stepAt depth s = .next t)
    (hs : Turn.reset ∉ s.turns) : Turn.reset ∉ t.turns := by
  rw [stepAt_turns h]
  exact mt nextTurn_turns hs

/-- The step when the ENGINE's turn is the next one listed. -/
theorem stepAt_engine {depth : Nat} {s : State} {ts : List Turn} (h : s.turns = .engine :: ts) :
    stepAt depth s = engineTurn depth { s with turns := ts } := by
  simp only [stepAt, nextTurn_cons h]

end Sys2Proof.Machine
end

section
/-! R80: EMIT_BYTE. -/

namespace Sys2Proof.Machine

/-- In EMIT the ENGINE's step is enabled exactly when OUTQ has room (41_output_stream.md R80). -/
theorem engineEnabled_emit {depth : Nat} {d : Ddc} (hp : d.phase = .emit) :
    engineEnabled depth d = decide (d.outq.length < depth) := by
  simp only [engineEnabled, hp]

theorem engineAct_emit {d : Ddc} (hp : d.phase = .emit) : engineAct d = emitByte d := by
  simp only [engineAct, hp]

theorem emitByte_of_getElem? {d : Ddc} {b : Byte} (h : (oseq d)[d.eidx.toNat]? = some b) :
    emitByte d = .ok (endEmit (pushOut b d)) := by
  simp only [emitByte, h]

theorem endEmit_more {d : Ddc} (h : d.eidx.toNat ≠ d.outLen.toNat) : endEmit d = d := if_neg h

theorem endEmit_last {d : Ddc} (h : d.eidx.toNat = d.outLen.toNat) :
    endEmit d = { d with phase := .idle, done := true } := if_pos h

/-- OSEQ begins with the two header bytes (41_output_stream.md R79). -/
theorem two_le_oseq_length (d : Ddc) : 2 ≤ (oseq d).length := by
  unfold oseq
  split <;> simp

/-- EIDX is at most 65286, so its next value does not wrap (10_state.md R33). -/
theorem toNat_eidx_succ {depth : Nat} {d : Ddc} (hi : d.Inv depth) : (d.eidx + 1#17).toNat = d.eidx.toNat + 1 := by
  have hb := hi.eidxBound
  bv_omega

/-- With a full OUTQ the ENGINE waits in EMIT (41_output_stream.md R80). -/
theorem engineTurn_emit_full {depth : Nat} {s : State} (hp : s.ddc.phase = .emit)
    (hfull : ¬ s.ddc.outq.length < depth) : engineTurn depth s = .next s := by
  have hen : engineEnabled depth s.ddc = false := by rw [engineEnabled_emit hp, decide_eq_false hfull]
  rcases engineTurn_cases depth s with ⟨-, e⟩ | ⟨hen', -⟩
  · exact e
  · rw [hen] at hen'; cases hen'

/-- With room in OUTQ the ENGINE's turn in EMIT pushes OSEQ[EIDX] (41_output_stream.md R80). -/
theorem engineTurn_emit_room {depth : Nat} {s : State} {b : Byte} (hp : s.ddc.phase = .emit)
    (hroom : s.ddc.outq.length < depth) (hb : (oseq s.ddc)[s.ddc.eidx.toNat]? = some b) :
    engineTurn depth s = .next { s with ddc := endEmit (pushOut b s.ddc) } := by
  have hen : engineEnabled depth s.ddc = true := by rw [engineEnabled_emit hp, decide_eq_true hroom]
  rcases engineTurn_cases depth s with ⟨hen', -⟩ | ⟨-, e⟩
  · rw [hen] at hen'; cases hen'
  · rw [e, engineAct_emit hp, emitByte_of_getElem? hb, State.after_ok]

/-- Settles O33: with room, by whether the byte is the last; and the full queue. -/
theorem emitStepPushesTheNextByte : Obligations.EmitStepPushesTheNextByte := by
  intro depth s ts hi ht hp
  obtain ⟨hlen, hidx⟩ := Ddc.Inv.emitting hi hp
  have hstep := stepAt_engine (depth := depth) ht
  have hsucc := toNat_eidx_succ hi
  refine ⟨hlen ▸ two_le_oseq_length s.ddc, fun hroom => ?room, fun hfull => ?full⟩
  case room =>
    have hb := List.getElem?_eq_getElem (hlen ▸ hidx)
    have hpush := hstep.trans (engineTurn_emit_room hp hroom hb)
    refine ⟨_, hb, fun hmore => ?_, fun hlast => ?_⟩
    · rw [hpush, endEmit_more (by rwa [← hsucc] at hmore)]; rfl
    · rw [hpush, endEmit_last (by rwa [← hsucc] at hlast)]; rfl
  case full => exact hstep.trans (engineTurn_emit_full hp hfull)

end Sys2Proof.Machine
end

section
/-! What becomes of OUTQ: no write touches it (10_state.md R35), and an enabled ENGINE step appends to it in EMIT alone. -/

namespace Sys2Proof.Machine

@[simp] theorem loadHeight_outq (v : Byte) (d : Ddc) : (loadHeight v d).outq = d.outq := by
  simp only [loadHeight]
  split <;> simp

@[simp] theorem advancePidx_outq (d : Ddc) : (advancePidx d).outq = d.outq := by
  simp only [advancePidx]
  split <;> simp

@[simp] theorem endRow_outq (d : Ddc) : (endRow d).outq = d.outq := by
  rcases endRow_cases d with ⟨-, he⟩ | ⟨-, -, he⟩ | ⟨-, -, he⟩ <;> simp [he]

@[simp] theorem acceptPixels_outq (op : Opc) (d : Ddc) : (acceptPixels op d).outq = d.outq := by
  simp only [acceptPixels]
  split <;> simp

@[simp] theorem cmdWrite_outq (w : Word) (d : Ddc) : (cmdWrite w d).outq = d.outq := by
  rcases cmdWrite_cases w d with ⟨-, he⟩ | ⟨-, -, he⟩ | ⟨_, -, -, -, -, he⟩ | ⟨_, -, -, -, -, he⟩ | ⟨-, -, he⟩ <;>
    simp [he]

theorem packPixel_outq {w : Word} {d e : Ddc} (h : packPixel w d = .ok e) : e.outq = d.outq := by
  obtain ⟨g, hg, rfl⟩ := packPixel_eq_ok h
  rw [endRow_outq, storeGroup_frame hg, placePixel_outq]

theorem loadFrameByte_outq {w : Word} {d e : Ddc} (h : loadFrameByte w d = .ok e) : e.outq = d.outq := by
  rcases loadFrameByte_cases w d with ⟨-, he⟩ | ⟨-, he⟩ | ⟨-, -, -, he⟩ | ⟨-, -, -, he⟩ <;> rw [he] at h <;> cases h
  · exact loadWidth_outq _ _
  · exact loadHeight_outq _ _
  · exact advancePidx_outq _

theorem inDataWrite_outq {w : Word} {d e : Ddc} (h : inDataWrite w d = .ok e) : e.outq = d.outq := by
  rcases inDataWrite_cases w d with ⟨-, -, he⟩ | ⟨-, -, he⟩ | ⟨-, he⟩ <;> rw [he] at h
  · exact packPixel_outq h
  · exact loadFrameByte_outq h
  · cases h; exact raiseErr_outq _ _

/-- Only an OUT_DATA read changes OUTQ among the accesses (10_state.md R35). -/
theorem exec_outq {i : Instr} {s t : State} (h : exec i s = .next t) (hi : i ≠ .rdOutData) :
    t.ddc.outq = s.ddc.outq := by
  rcases exec_ddc_cases h with e | ⟨e, -⟩ | ⟨w, -, e⟩ | ⟨w, -, e⟩ | ⟨w, -, e⟩ | ⟨w, -, e⟩
  · rw [e]
  · exact absurd e hi
  · rw [e]
  · rw [e, clearStatus_outq]
  · exact inDataWrite_outq e
  · rw [e, cmdWrite_outq]

/-- An enabled ENGINE step appends to OUTQ the byte it emits, if it is an EMIT_BYTE (10_state.md R35). -/
theorem engineAct_outq {depth : Nat} {d e : Ddc} (hen : engineEnabled depth d = true) (h : engineAct d = .ok e) :
    e.outq = d.outq ++ if d.phase = .emit then ((oseq d)[d.eidx.toNat]?).toList else [] := by
  rcases engineAct_cases hen with ⟨hp, -, he⟩ | ⟨hp, -, he⟩ | ⟨hp, -, he⟩ <;> rw [he] at h
  · cases h; simp [hp]
  · cases h; simp [hp]
  · rcases emitByte_cases d with ⟨b, hb, he'⟩ | ⟨-, he'⟩ <;> rw [he'] at h <;> cases h
    simp [hp, hb]

end Sys2Proof.Machine
end

section
/-! R81: the output stream. -/

namespace Sys2Proof.Machine

/-- The bytes that have come out of the DDC: those the HOST has read, then those still in OUTQ (41_output_stream.md R81). -/
def State.delivered (s : State) : List Byte := outputStream s.reads ++ s.ddc.outq

/-- A read of another register adds nothing to the output stream (20_memory.md R42). -/
theorem outputStream_concat_of_port_ne (rs : List ReadBack) {p : Port} (v : Word) (hp : p ≠ .outData) :
    outputStream (rs ++ [⟨p, v⟩]) = outputStream rs := by
  simp [outputStream, ReadBack.outByte, hp]

/-- An OUT_DATA read adds to the output stream the byte it returned, if there was one (30_encoding.md R59). -/
theorem outputStream_concat_outWord (rs : List ReadBack) (b : Option Byte) :
    outputStream (rs ++ [⟨.outData, outWord b⟩]) = outputStream rs ++ b.toList := by
  cases b with
  | none => simp [outputStream, ReadBack.outByte, outWord]
  | some b =>
    obtain ⟨hdata, hvalid, -⟩ := outWord_some_fields b
    simp [outputStream, ReadBack.outByte, hdata, hvalid]

/-- Only an OUT_DATA read adds to the output stream (20_memory.md R42). -/
theorem exec_outputStream {i : Instr} {s t : State} (h : exec i s = .next t) (hi : i ≠ .rdOutData) :
    outputStream t.reads = outputStream s.reads := by
  cases i
  case rdOutData => exact absurd rfl hi
  case wrInData => rw [State.host_side_of_after_eq_next h]
  case rdCmd | rdDim | rdStatus | rdInData | rdRunCount | rdOutLen | rdRsv =>
    cases h
    exact outputStream_concat_of_port_ne _ _ (by decide)
  all_goals cases h; rfl

/-- An access moves bytes from OUTQ to the output stream and loses none (41_output_stream.md R81). -/
theorem exec_delivered {i : Instr} {s t : State} (h : exec i s = .next t) : t.delivered = s.delivered := by
  by_cases hi : i = .rdOutData
  · subst hi
    cases h
    simp only [State.delivered, State.returns_reads, State.returns_ddc, outputStream_concat_outWord]
    cases s.ddc.outq <;> simp
  · rw [State.delivered, exec_outputStream h hi, exec_outq h hi, State.delivered]

/-- A step that is not the ENGINE's pushes nothing. -/
theorem pushesNext_of_not_engine {depth : Nat} {s : State} (h : (nextTurn depth s).1 ≠ .engine) :
    s.pushesNext depth = [] := by
  simp [State.pushesNext, State.emitsNext, h]

/-- A turn of the ENGINE pushes OSEQ[EIDX] when its step is enabled and is an EMIT_BYTE. -/
theorem pushesNext_of_engine {depth : Nat} {s : State} (h : (nextTurn depth s).1 = .engine) :
    s.pushesNext depth =
      if engineEnabled depth s.ddc = true then
        if s.ddc.phase = .emit then ((oseq s.ddc)[s.ddc.eidx.toNat]?).toList else []
      else [] := by
  cases hen : engineEnabled depth s.ddc <;> simp [State.pushesNext, State.emitsNext, h, hen]

/-- A turn of the ENGINE adds to OUTQ the byte it pushes. -/
theorem engineTurn_delivered {depth : Nat} {s t : State} (hturn : (nextTurn depth s).1 = .engine)
    (h : engineTurn depth (nextTurn depth s).2 = .next t) : t.delivered = s.delivered ++ s.pushesNext depth := by
  obtain ⟨hddc, -, hreads⟩ := nextTurn_keeps depth s
  have hside : t.reads = s.reads := by rw [engineTurn_host_side h]; exact hreads
  have houtq : t.ddc.outq = s.ddc.outq ++ s.pushesNext depth := by
    rw [pushesNext_of_engine hturn]
    rcases engineTurn_cases depth (nextTurn depth s).2 with ⟨hen, e⟩ | ⟨hen, e⟩ <;> rw [e] at h <;> rw [hddc] at hen
    · cases h; simp [hen, hddc]
    · have hact := State.ddc_of_after_eq_next h
      rw [hddc] at hact
      rw [if_pos hen, engineAct_outq hen hact]
  rw [State.delivered, hside, houtq, ← List.append_assoc, State.delivered]

/-- A step that is no RESET adds exactly the bytes it pushes (41_output_stream.md R81). -/
theorem stepAt_delivered {depth : Nat} {s t : State} (h : stepAt depth s = .next t)
    (hr : (nextTurn depth s).1 ≠ .reset) : t.delivered = s.delivered ++ s.pushesNext depth := by
  obtain ⟨hddc, -, hreads⟩ := nextTurn_keeps depth s
  have hturn : (nextTurn depth s).2.delivered = s.delivered := by
    rw [State.delivered, hddc, hreads, State.delivered]
  rcases stepAt_cases depth s with ⟨a, rest, ht, -, e⟩ | ⟨ht, -, e⟩ | ⟨ht, e⟩ | ⟨ht, -⟩
  · rw [pushesNext_of_not_engine (by simp [ht]), List.append_nil]
    exact (exec_delivered (e.symm.trans h)).trans hturn
  · rw [e] at h
    cases h
    rw [pushesNext_of_not_engine (by simp [ht]), List.append_nil, hturn]
  · exact engineTurn_delivered ht (e.symm.trans h)
  · exact absurd ht hr

/-- The bytes pushed by one step and the rest of a run. -/
theorem pushedBy_succ {depth n : Nat} {s s' : State} (h : stepAt depth s = .next s') :
    pushedBy depth (n + 1) s = s.pushesNext depth ++ pushedBy depth n s' := by
  simp only [pushedBy, h]

/-- Over a run without a RESET the delivered bytes grow by the bytes pushed (41_output_stream.md R81). -/
theorem runAt_delivered {depth n : Nat} {s t : State} (hs : Turn.reset ∉ s.turns) (h : runAt depth n s = .next t) :
    t.delivered = s.delivered ++ pushedBy depth n s := by
  induction n generalizing s with
  | zero => cases h; exact (List.append_nil _).symm
  | succ n ih =>
    cases e : stepAt depth s with
    | next s' =>
      rw [runAt_succ e] at h
      calc t.delivered = s'.delivered ++ pushedBy depth n s' := ih (stepAt_keeps_noReset e hs) h
        _ = s.delivered ++ s.pushesNext depth ++ pushedBy depth n s' := by
          rw [stepAt_delivered e (nextTurn_reset hs)]
        _ = s.delivered ++ pushedBy depth (n + 1) s := by rw [pushedBy_succ e, List.append_assoc]
    | fault f => rw [runAt, e] at h; cases h
    | refused r => rw [runAt, e] at h; cases h

/-- Settles O35, by induction on the steps of the run. -/
theorem outputStreamIsWhatEmitPushed : Obligations.OutputStreamIsWhatEmitPushed :=
  fun _ _ _ _ hs h => runAt_delivered hs h

end Sys2Proof.Machine
end

section
/-! R86: `runs`, bit by bit. The cut is greedy: a full run, or a block that ends, is the next run of the list. -/

namespace Sys2Proof.Machine

/-- The bits a run stands for. -/
def runBits (r : Bool × Nat) : List Bool := List.replicate r.2 r.1

/-- The first block of a list has the list's first bit. -/
theorem blocks_cons_head (b : Bool) (s : List Bool) : ∃ n rest, blocks (b :: s) = (b, n) :: rest := by
  rw [blocks]
  split
  · exact ⟨_, _, rfl⟩
  · split
    · next h => exact ⟨_, _, by rw [h]⟩
    · exact ⟨_, _, rfl⟩

theorem blocks_cons_same {v : Bool} {m : Nat} {s : List Bool} {rest : List (Bool × Nat)}
    (h : blocks s = (v, m) :: rest) : blocks (v :: s) = (v, m + 1) :: rest := by
  simp [blocks, h]

theorem blocks_cons_new {v : Bool} {s : List Bool} (h : s.head? ≠ some v) : blocks (v :: s) = (v, 1) :: blocks s := by
  cases s with
  | nil => rfl
  | cons b s =>
    obtain ⟨n, rest, e⟩ := blocks_cons_head b s
    have hb : v ≠ b := fun hv => h (by rw [hv]; rfl)
    rw [blocks, e]
    exact if_neg hb

/-- Equal bits in front of a list lengthen its first block. -/
theorem blocks_replicate_same {v : Bool} {m : Nat} {s : List Bool} {rest : List (Bool × Nat)}
    (h : blocks s = (v, m) :: rest) (n : Nat) : blocks (List.replicate n v ++ s) = (v, m + n) :: rest := by
  induction n with
  | zero => exact h
  | succ n ih => exact blocks_cons_same ih

/-- Equal bits in front of a list that starts with the other bit are a block of their own. -/
theorem blocks_replicate_new {v : Bool} {s : List Bool} (h : s.head? ≠ some v) (n : Nat) :
    blocks (List.replicate (n + 1) v ++ s) = (v, n + 1) :: blocks s := by
  rw [List.replicate_succ', List.append_assoc, Nat.add_comm]
  exact blocks_replicate_same (blocks_cons_new h) n

/-- A block of 1 to 128 bits is one run. -/
theorem cutBlock_short (v : Bool) {n : Nat} (h1 : 1 ≤ n) (h128 : n ≤ 128) : cutBlock (v, n) = [(v, n)] := by
  rcases Nat.lt_or_eq_of_le h128 with h | rfl
  · simp [cutBlock, Nat.div_eq_of_lt h, Nat.mod_eq_of_lt h, show n ≠ 0 by omega]
  · simp [cutBlock]

/-- A block with 128 bits more has a full run more in front. -/
theorem cutBlock_add_full (v : Bool) (m : Nat) :
    cutBlock (v, m + 128) = (v, 128) :: cutBlock (v, m) := by
  simp [cutBlock, List.replicate_succ]

/-- The greedy cut: 1 to 128 equal bits are the first run of a list when they are 128 or the other bit follows them
(42_run_length.md R86, R94). -/
theorem runs_replicate_append {v : Bool} {n : Nat} {s : List Bool} (h1 : 1 ≤ n) (h128 : n ≤ 128)
    (hcut : s.head? ≠ some v ∨ n = 128) : runs (List.replicate n v ++ s) = (v, n) :: runs s := by
  by_cases hs : s.head? = some v
  · obtain rfl := hcut.resolve_left (not_not_intro hs)
    obtain ⟨t, rfl⟩ := List.head?_eq_some_iff.mp hs
    obtain ⟨m, rest, e⟩ := blocks_cons_head v t
    simp only [runs, blocks_replicate_same e, e, List.flatMap_cons, cutBlock_add_full, List.cons_append]
  · obtain ⟨k, rfl⟩ : ∃ k, n = k + 1 := ⟨n - 1, by omega⟩
    simp only [runs, blocks_replicate_new hs, List.flatMap_cons, cutBlock_short v h1 h128, List.singleton_append]

/-- The run-bytes of a list follow the same cut. -/
theorem runbytes_replicate_append {v : Bool} {n : Nat} {s : List Bool} (h1 : 1 ≤ n) (h128 : n ≤ 128)
    (hcut : s.head? ≠ some v ∨ n = 128) :
    runbytes (List.replicate n v ++ s) = runByte v (BitVec.ofNat 8 n) :: runbytes s := by
  rw [runbytes, runs_replicate_append h1 h128 hcut]
  rfl

/-- The blocks of a list are its bits. -/
theorem blocks_flatMap_runBits (s : List Bool) : (blocks s).flatMap runBits = s := by
  induction s with
  | nil => rfl
  | cons b s ih =>
    by_cases hs : s.head? = some b
    · obtain ⟨t, rfl⟩ := List.head?_eq_some_iff.mp hs
      obtain ⟨n, rest, e⟩ := blocks_cons_head b t
      rw [e] at ih
      rw [blocks_cons_same e]
      exact congrArg (b :: ·) ih
    · rw [blocks_cons_new hs]
      exact congrArg (b :: ·) ih

/-- Cutting a block keeps its bits. -/
theorem cutBlock_flatMap_runBits (c : Bool × Nat) : (cutBlock c).flatMap runBits = runBits c := by
  have hrest : (if c.2 % 128 = 0 then [] else [(c.1, c.2 % 128)]).flatMap runBits = List.replicate (c.2 % 128) c.1 := by
    split
    · next h => rw [h]; rfl
    · simp [runBits]
  rw [cutBlock, List.flatMap_append, hrest, List.flatMap_replicate]
  simp only [runBits, List.flatten_replicate_replicate, List.replicate_append_replicate, Nat.div_add_mod']

/-- The runs of a list are its bits (42_run_length.md R94). -/
theorem runs_flatMap_runBits (s : List Bool) : (runs s).flatMap runBits = s := by
  rw [runs, List.flatMap_assoc]
  simp only [cutBlock_flatMap_runBits]
  exact blocks_flatMap_runBits s

end Sys2Proof.Machine
end

section
/-! R87, R88: the run-length state machine. -/

namespace Sys2Proof.Machine

/-- A run is in progress, of 1 to 128 bits (10_state.md R32). -/
def RunState.running (r : RunState) : Prop := r.rsValid = true ∧ 1 ≤ r.rsLen.toNat ∧ r.rsLen.toNat ≤ 128

theorem RunState.running_one (b : Bool) (c : Word) : (⟨true, b, 1#8, c⟩ : RunState).running := by
  simp [RunState.running]

theorem rleBit_start (b : Bool) {r : RunState} (hv : r.rsValid = false) :
    rleBit b r = (⟨true, b, 1#8, r.rcnt⟩, []) := by
  simp [rleBit, hv]

theorem rleBit_extend {b : Bool} {r : RunState} (hv : r.rsValid = true) (hb : b = r.rsVal)
    (hl : r.rsLen.toNat < 128) : rleBit b r = ({ r with rsLen := r.rsLen + 1#8 }, []) := by
  simp [rleBit, hv, hb, hl]

theorem rleBit_cut {b : Bool} {r : RunState} (hv : r.rsValid = true)
    (hcut : b ≠ r.rsVal ∨ 128 ≤ r.rsLen.toNat) :
    rleBit b r = (⟨true, b, 1#8, r.rcnt + 1#32⟩, [runByte r.rsVal r.rsLen]) := by
  have hno : ¬ (b = r.rsVal ∧ r.rsLen.toNat < 128) := by
    rintro ⟨hb, hl⟩
    exact hcut.elim (· hb) (by omega)
  simp [rleBit, hv, if_neg hno]

/-- What one bit can do to the machine (42_run_length.md R87). -/
theorem rleBit_cases (b : Bool) (r : RunState) :
    (r.rsValid = false ∧ rleBit b r = (⟨true, b, 1#8, r.rcnt⟩, [])) ∨
    (r.rsValid = true ∧ b = r.rsVal ∧ r.rsLen.toNat < 128 ∧
      rleBit b r = ({ r with rsLen := r.rsLen + 1#8 }, [])) ∨
    (r.rsValid = true ∧ (b ≠ r.rsVal ∨ 128 ≤ r.rsLen.toNat) ∧
      rleBit b r = (⟨true, b, 1#8, r.rcnt + 1#32⟩, [runByte r.rsVal r.rsLen])) := by
  rcases Bool.eq_false_or_eq_true r.rsValid with hv | hv
  · by_cases hcut : b ≠ r.rsVal ∨ 128 ≤ r.rsLen.toNat
    · exact .inr (.inr ⟨hv, hcut, rleBit_cut hv hcut⟩)
    · obtain ⟨hb, hl⟩ : b = r.rsVal ∧ r.rsLen.toNat < 128 := by simpa using hcut
      exact .inr (.inl ⟨hv, hb, hl, rleBit_extend hv hb hl⟩)
  · exact .inl ⟨hv, rleBit_start b hv⟩

theorem rleFlush_valid {r : RunState} (hv : r.rsValid = true) :
    rleFlush r = (⟨false, r.rsVal, 0#8, r.rcnt + 1#32⟩, [runByte r.rsVal r.rsLen]) := by
  simp [rleFlush, hv]

theorem rleFlush_invalid {r : RunState} (hv : r.rsValid = false) : rleFlush r = (r, []) := by
  simp [rleFlush, hv]

@[simp] theorem rleScan_nil (r : RunState) : rleScan [] r = (r, []) := rfl

theorem rleScan_cons (b : Bool) (s : List Bool) (r : RunState) :
    rleScan (b :: s) r = ((rleScan s (rleBit b r).1).1, (rleBit b r).2 ++ (rleScan s (rleBit b r).1).2) := rfl

theorem rleRun_nil (r : RunState) : rleRun [] r = rleFlush r := rfl

theorem rleRun_cons (b : Bool) (s : List Bool) (r : RunState) :
    rleRun (b :: s) r = ((rleRun s (rleBit b r).1).1, (rleBit b r).2 ++ (rleRun s (rleBit b r).1).2) := by
  simp only [rleRun, rleScan_cons, List.append_assoc]

/-- Scanning goes on from the registers the first part left. -/
theorem rleScan_append (s t : List Bool) (r : RunState) :
    (rleScan (s ++ t) r).1 = (rleScan t (rleScan s r).1).1 := by
  induction s generalizing r with
  | nil => rfl
  | cons b s ih => exact ih _

/-- One bit more of a list is one bit more of the machine. -/
theorem rleScan_take_succ {s : List Bool} {i : Nat} {b : Bool} (h : s[i]? = some b) (r : RunState) :
    (rleScan (s.take (i + 1)) r).1 = (rleBit b (rleScan (s.take i) r).1).1 := by
  rw [List.take_add_one, h, rleScan_append]
  rfl

/-- After a bit a run is in progress (42_run_length.md R87). -/
theorem rleBit_running (b : Bool) (r : RunState) : (rleBit b r).1.running := by
  rcases rleBit_cases b r with ⟨-, e⟩ | ⟨hv, -, hl, e⟩ | ⟨-, -, e⟩ <;> rw [e]
  · exact RunState.running_one _ _
  · have hsucc : (r.rsLen + 1#8).toNat = r.rsLen.toNat + 1 := by bv_omega
    exact ⟨hv, by simp [hsucc], by simpa [hsucc] using hl⟩
  · exact RunState.running_one _ _

theorem rleScan_running (s : List Bool) {r : RunState} (h : r.running) : (rleScan s r).1.running := by
  induction s generalizing r with
  | nil => exact h
  | cons b s ih => exact ih (rleBit_running b _)

/-- After any bits a run is in progress. -/
theorem rleScan_running_of_ne_nil {s : List Bool} (hs : s ≠ []) (r : RunState) : (rleScan s r).1.running := by
  cases s with
  | nil => exact absurd rfl hs
  | cons b s => exact rleScan_running s (rleBit_running b _)

/-! RCNT counts the run-bytes emitted. -/

theorem rleBit_rcnt (b : Bool) (r : RunState) :
    (rleBit b r).1.rcnt = r.rcnt + BitVec.ofNat 32 (rleBit b r).2.length := by
  rcases rleBit_cases b r with ⟨-, e⟩ | ⟨-, -, -, e⟩ | ⟨-, -, e⟩ <;> simp [e]

theorem rleFlush_rcnt (r : RunState) : (rleFlush r).1.rcnt = r.rcnt + BitVec.ofNat 32 (rleFlush r).2.length := by
  cases hv : r.rsValid with
  | false => simp [rleFlush_invalid hv]
  | true => simp [rleFlush_valid hv]

theorem rleScan_rcnt (s : List Bool) (r : RunState) :
    (rleScan s r).1.rcnt = r.rcnt + BitVec.ofNat 32 (rleScan s r).2.length := by
  induction s generalizing r with
  | nil => simp
  | cons b s ih => rw [rleScan_cons, ih, rleBit_rcnt, List.length_append, BitVec.ofNat_add, BitVec.add_assoc]

theorem rleRun_rcnt (s : List Bool) (r : RunState) :
    (rleRun s r).1.rcnt = r.rcnt + BitVec.ofNat 32 (rleRun s r).2.length := by
  rw [rleRun, rleFlush_rcnt, rleScan_rcnt, List.length_append, BitVec.ofNat_add, BitVec.add_assoc]

/-- A bit emits at most one run-byte. -/
theorem rleScan_emits_le (s : List Bool) (r : RunState) : (rleScan s r).2.length ≤ s.length := by
  induction s generalizing r with
  | nil => exact Nat.le_refl 0
  | cons b s ih =>
    have hbit : (rleBit b r).2.length ≤ 1 := by
      rcases rleBit_cases b r with ⟨-, e⟩ | ⟨-, -, -, e⟩ | ⟨-, -, e⟩ <;> simp [e]
    have hrest := ih (rleBit b r).1
    rw [rleScan_cons, List.length_append, List.length_cons]
    omega

/-- Settles O24, by the cases of one bit and of the flush, and an induction on the bits for the run in progress. -/
theorem runLengthMachineExtendsEmitsAndFlushes : Obligations.RunLengthMachineExtendsEmitsAndFlushes :=
  ⟨fun b _ => ⟨rleBit_start b, rleBit_extend, rleBit_cut, rleFlush_valid, rleFlush_invalid⟩,
    fun _ hs => rleScan_running_of_ne_nil hs _, rfl⟩

end Sys2Proof.Machine
end

section
/-! R86: the state machine run over a list and flushed gives its runs. -/

namespace Sys2Proof.Machine

/-- With a run in progress the machine emits the run-bytes of that run's bits and the list. -/
theorem rleRun_of_running (s : List Bool) {r : RunState} (h : r.running) :
    (rleRun s r).2 = runbytes (List.replicate r.rsLen.toNat r.rsVal ++ s) := by
  induction s generalizing r with
  | nil =>
    obtain ⟨hv, h1, h128⟩ := h
    rw [rleRun_nil, rleFlush_valid hv, runbytes_replicate_append h1 h128 (.inl (by simp)), BitVec.ofNat_toNat,
      BitVec.setWidth_eq]
    rfl
  | cons b s ih =>
    have hnext := ih (rleBit_running b r)
    obtain ⟨hv, h1, h128⟩ := h
    rw [rleRun_cons, hnext]
    rcases rleBit_cases b r with ⟨hv', -⟩ | ⟨-, hb, hl, e⟩ | ⟨-, hcut, e⟩
    · rw [hv] at hv'; cases hv'
    · have hsucc : (r.rsLen + 1#8).toNat = r.rsLen.toNat + 1 := by bv_omega
      rw [e, hb]
      simp [hsucc, List.replicate_succ']
    · have hhead : (b :: s).head? ≠ some r.rsVal ∨ r.rsLen.toNat = 128 :=
        hcut.imp (by simp) (Nat.le_antisymm h128)
      rw [runbytes_replicate_append h1 h128 hhead, e, BitVec.ofNat_toNat, BitVec.setWidth_eq]
      rfl

/-- From no run in progress the machine emits the run-bytes of the list (42_run_length.md R86). -/
theorem rleRun_empty_emits (s : List Bool) : (rleRun s RunState.empty).2 = runbytes s := by
  cases s with
  | nil => rfl
  | cons b s => exact rleRun_of_running s (rleBit_running b _)

theorem rleRun_empty_rcnt (s : List Bool) :
    (rleRun s RunState.empty).1.rcnt = BitVec.ofNat 32 (runs s).length := by
  rw [rleRun_rcnt, rleRun_empty_emits, runbytes_length]
  exact BitVec.zero_add _

/-- Settles O27, by induction on the bits with the run in progress put in front of them. -/
theorem stateMachineGivesTheRuns : Obligations.StateMachineGivesTheRuns :=
  fun s => ⟨rleRun_empty_emits s, rleRun_empty_rcnt s⟩

end Sys2Proof.Machine
end

section
/-! R95: the bounds of the run count. -/

namespace Sys2Proof.Machine

/-- A run of a block has 1 to 128 bits. -/
theorem mem_cutBlock_length {c r : Bool × Nat} (h : r ∈ cutBlock c) : 1 ≤ r.2 ∧ r.2 ≤ 128 := by
  rcases List.mem_append.mp h with hfull | hrest
  · rw [List.eq_of_mem_replicate hfull]
    exact ⟨Nat.le_add_left 1 127, Nat.le_refl _⟩
  · split at hrest
    · cases hrest
    · rw [List.mem_singleton.mp hrest]
      have hlt : c.2 % 128 < 128 := Nat.mod_lt _ (by decide)
      exact ⟨Nat.pos_of_ne_zero ‹_›, hlt.le⟩

/-- Every run has 1 to 128 bits (42_run_length.md R94). -/
theorem mem_runs_length {s : List Bool} {r : Bool × Nat} (h : r ∈ runs s) : 1 ≤ r.2 ∧ r.2 ≤ 128 := by
  obtain ⟨c, -, hr⟩ := List.mem_flatMap.mp h
  exact mem_cutBlock_length hr

/-- The lengths of the runs add up to the list's. -/
theorem runs_length_sum (s : List Bool) : ((runs s).map Prod.snd).sum = s.length := by
  have h := congrArg List.length (runs_flatMap_runBits s)
  rw [List.length_flatMap] at h
  simpa [runBits] using h

theorem runs_length_le (s : List Bool) : (runs s).length ≤ s.length := by
  have h := List.length_le_sum_of_one_le ((runs s).map Prod.snd)
    (List.forall_mem_map.mpr fun r hr => (mem_runs_length hr).1)
  rwa [runs_length_sum, List.length_map] at h

theorem length_le_runs_length_mul (s : List Bool) : s.length ≤ (runs s).length * 128 := by
  have h := List.sum_le_card_nsmul ((runs s).map Prod.snd) 128
    (List.forall_mem_map.mpr fun r hr => (mem_runs_length hr).2)
  rwa [runs_length_sum, List.length_map] at h

theorem ceilDiv_le_of_le_mul {a b n : Nat} (hb : 0 < b) (h : a ≤ n * b) : ceilDiv a b ≤ n := by
  rw [ceilDiv, ← Nat.lt_succ_iff, Nat.div_lt_iff_lt_mul hb, Nat.succ_mul]
  omega

/-- The run count of any DDC's payload (42_run_length.md R95). -/
theorem Ddc.runs_length_le (d : Ddc) : (runs (bits d.payload)).length ≤ 65280 := by
  have hl : d.len ≤ 8160 := d.len_le
  have h := Machine.runs_length_le (bits d.payload)
  rw [bits_length, d.payload_length] at h
  omega

/-- A bit that the next one does not repeat is a run of its own. -/
theorem runs_cons_new {v : Bool} {s : List Bool} (h : ¬ s.head? = some v) : runs (v :: s) = (v, 1) :: runs s :=
  runs_replicate_append (n := 1) (by decide) (by decide) (.inl h)

/-- Bytes of alternating bits have a run for each bit. -/
theorem runs_length_alternating {p : List Byte} (h : ∀ b ∈ p, b = 0xAA#8) : (runs (bits p)).length = 8 * p.length := by
  induction p with
  | nil => rfl
  | cons b p ih =>
    obtain ⟨hb, hp⟩ := List.forall_mem_cons.mp h
    have hlast : (bits p).head? ≠ some false := by
      cases p with
      | nil => nofun
      | cons c p => rw [hp c List.mem_cons_self]; nofun
    rw [bits_cons, hb, show byteBits 0xAA#8 = [true, false, true, false, true, false, true, false] from rfl]
    simp [runs_cons_new, hlast, ih hp]
    omega

/-- The pixels 1, 0, ..., 1 of a row of 255 fill its bytes with alternating bits (42_run_length.md R95). -/
theorem groupByte_alternating (r : Nat) : ∀ k < 32, groupByte 255 (fun _ c => c % 2 == 0) r k = 0xAA#8 := by
  have h : ∀ k < 32, groupByte 255 (fun _ c => c % 2 == 0) 0 k = 0xAA#8 := by decide
  exact h

theorem framePayload_length (w h : Nat) (p : Nat → Nat → Bool) : (framePayload w h p).length = h * bpr w := by
  simp [framePayload, rowBytes, List.length_flatMap]

/-- Settles O31: the runs' lengths, each 1 to 128, add up to the number of bits. -/
theorem runCountBounds : Obligations.RunCountBounds := by
  refine ⟨fun payload => ⟨?lower, ?upper⟩, Ddc.runs_length_le, rfl, ?alternating⟩
  case lower =>
    rw [← bits_length]
    exact ceilDiv_le_of_le_mul (by decide) (length_le_runs_length_mul _)
  case upper =>
    rw [← bits_length]
    exact runs_length_le _
  case alternating =>
    rw [runs_length_alternating, framePayload_length]
    · rfl
    · intro b hb
      obtain ⟨r, -, hrow⟩ := List.mem_flatMap.mp hb
      obtain ⟨k, hk, rfl⟩ := List.mem_map.mp hrow
      exact groupByte_alternating r k (List.mem_range.mp hk)

end Sys2Proof.Machine
end

section
/-! R91, R92: the ENGINE's COUNT steps. -/

namespace Sys2Proof.Machine

/-- The DDC in COUNT after n bits, when the scan began with no run in progress (42_run_length.md R91). -/
def Ddc.scannedTo (d : Ddc) (n : Nat) : Ddc :=
  { d with rs := (rleScan ((bits d.payload).take n) RunState.empty).1, bidx := BitVec.ofNat 17 n }

@[simp] theorem Ddc.scannedTo_len (d : Ddc) (n : Nat) : (d.scannedTo n).len = d.len := rfl
@[simp] theorem Ddc.scannedTo_hostView (d : Ddc) (n : Nat) : (d.scannedTo n).hostView = d.hostView := rfl

/-- The bits of a payload are so few that BIDX counts them without wrapping (10_state.md R32). -/
theorem Ddc.toNat_scannedTo_bidx {d : Ddc} {n : Nat} (h : n ≤ 8 * d.len) : (d.scannedTo n).bidx.toNat = n := by
  have hl : d.len ≤ 8160 := d.len_le
  exact Nat.mod_eq_of_lt (by omega)

/-- What LOAD_COMPLETE leaves is the scan of no bits. -/
theorem Ddc.scannedTo_zero {d : Ddc} (hr : d.rs = RunState.empty) (hb : d.bidx = 0#17) : d.scannedTo 0 = d := by
  simp only [Ddc.scannedTo, List.take_zero, rleScan_nil, ← hr]
  rw [← hb]

/-- In COUNT a reachable DDC is the scan of the bits before BIDX. -/
theorem Ddc.Inv.scannedTo_bidx {depth : Nat} {d : Ddc} (hi : d.Inv depth) (hp : d.phase = .count) :
    d.scannedTo d.bidx.toNat = d := by
  obtain ⟨-, hr⟩ := hi.counting hp
  simp only [Ddc.scannedTo, ← hr, BitVec.ofNat_toNat, BitVec.setWidth_eq]

/-- RLE_BIT scans the next bit of the payload. -/
theorem countBit_scannedTo {d : Ddc} {n : Nat} (h : n < 8 * d.len) :
    countBit (d.scannedTo n) = d.scannedTo (n + 1) := by
  have hbit : payloadBit (d.scannedTo n) (d.scannedTo n).bidx.toNat = payloadBit d n := by
    rw [Ddc.toNat_scannedTo_bidx h.le]; rfl
  rw [countBit, hbit, Ddc.scannedTo, Ddc.scannedTo, rleScan_take_succ (payloadBit_eq d h), BitVec.ofNat_add]

/-- While bits are scanned RCNT is at most their number, and a run in progress is at most 128 long (R91). -/
theorem Ddc.scannedTo_bounds {d : Ddc} {n : Nat} (h1 : 1 ≤ n) (h : n ≤ 8 * d.len) :
    (d.scannedTo n).rs.rsLen.toNat ≤ 128 ∧ (d.scannedTo n).rs.rcnt.toNat ≤ n := by
  have hlen : ((bits d.payload).take n).length = n := by simp [h]
  have hne : (bits d.payload).take n ≠ [] := List.ne_nil_of_length_pos (by omega)
  obtain ⟨-, -, h128⟩ := rleScan_running_of_ne_nil hne RunState.empty
  refine ⟨h128, ?_⟩
  calc (d.scannedTo n).rs.rcnt.toNat
      = (rleScan ((bits d.payload).take n) RunState.empty).2.length % 2 ^ 32 := by
        rw [Ddc.scannedTo, rleScan_rcnt]; simp [RunState.empty]
    _ ≤ (rleScan ((bits d.payload).take n) RunState.empty).2.length := Nat.mod_le _ _
    _ ≤ n := (rleScan_emits_le _ _).trans_eq hlen

theorem engineEnabled_count {depth : Nat} {d : Ddc} (hp : d.phase = .count) (hb : d.bidx.toNat ≤ 8 * d.len) :
    engineEnabled depth d = true := by
  simp only [engineEnabled, hp, decide_eq_true hb]

theorem engineAct_countBit {d : Ddc} (hp : d.phase = .count) (hb : d.bidx.toNat < 8 * d.len) :
    engineAct d = .ok (countBit d) := by
  simp only [engineAct, hp, if_pos hb]

theorem engineAct_countEnd {d : Ddc} (hp : d.phase = .count) (hb : d.bidx.toNat = 8 * d.len) :
    engineAct d = .ok (countEnd d) := by
  simp only [engineAct, hp, hb, Nat.lt_irrefl, if_false]

/-- A listed turn of the ENGINE whose step is enabled and goes on. -/
theorem stepAt_engine_ok {depth : Nat} {s : State} {ts : List Turn} {t : Ddc} (ht : s.turns = .engine :: ts)
    (hen : engineEnabled depth s.ddc = true) (hact : engineAct s.ddc = .ok t) :
    stepAt depth s = .next { s with ddc := t, turns := ts } := by
  rw [stepAt_engine ht, engineTurn, if_pos hen, hact, State.after_ok]

/-- Settles O25; the bounds hold because a reachable DDC in COUNT is the scan of the bits before BIDX. -/
theorem countStepScansOneBit : Obligations.CountStepScansOneBit := by
  intro depth s ts ht hp hb
  refine ⟨countBit s.ddc, stepAt_engine_ok ht (engineEnabled_count hp hb.le) (engineAct_countBit hp hb), rfl, rfl,
    fun hi => ?_⟩
  have hscan : countBit s.ddc = s.ddc.scannedTo (s.ddc.bidx.toNat + 1) := by
    conv_lhs => rw [← Ddc.Inv.scannedTo_bidx hi hp]
    exact countBit_scannedTo hb
  have hl : s.ddc.len ≤ 8160 := s.ddc.len_le
  obtain ⟨h128, hcnt⟩ := Ddc.scannedTo_bounds (d := s.ddc) (Nat.le_add_left 1 s.ddc.bidx.toNat) hb
  rw [hscan]
  exact ⟨h128, by omega⟩

/-- Settles O26; the flush of no run in progress counts nothing. -/
theorem countEndRecordsTheRunCount : Obligations.CountEndRecordsTheRunCount := by
  intro depth s ts ht hp hb
  refine ⟨countEnd s.ddc, stepAt_engine_ok ht (engineEnabled_count hp hb.le) (engineAct_countEnd hp hb), rfl, rfl, rfl,
    fun hr => ?_⟩
  rw [countEnd_outLen, countEnd_runCount, hr]
  exact ⟨rfl, rfl⟩

end Sys2Proof.Machine
end

section
/-! R93: the COUNT phase as a whole. -/

namespace Sys2Proof.Machine

theorem engineRun_succ {depth n : Nat} {d e : Ddc} (hen : engineEnabled depth d = true) (hact : engineAct d = .ok e) :
    engineRun depth (n + 1) d = engineRun depth n e := by
  simp only [engineRun, hen, hact, if_true]

/-- As many ENGINE steps as there are bits left to scan, and any steps after them. -/
theorem engineRun_scannedTo {depth n : Nat} (k : Nat) {m : Nat} {d : Ddc} (hp : d.phase = .count)
    (h : m + n ≤ 8 * d.len) : engineRun depth (k + n) (d.scannedTo m) = engineRun depth k (d.scannedTo (m + n)) := by
  induction n generalizing m with
  | zero => rfl
  | succ n ih =>
    have hb := Ddc.toNat_scannedTo_bidx (d := d) (n := m) (by omega)
    have hact := engineAct_countBit (d := d.scannedTo m) hp (by rw [hb, Ddc.scannedTo_len]; omega)
    have hen := engineEnabled_count (depth := depth) (d := d.scannedTo m) hp (by rw [hb, Ddc.scannedTo_len]; omega)
    rw [countBit_scannedTo (by omega)] at hact
    rw [← Nat.add_assoc, engineRun_succ hen hact, ih (by omega), Nat.add_right_comm, Nat.add_assoc]

/-- The flush after the last bit records the number of runs (42_run_length.md R93). -/
theorem countEnd_scannedTo_runCount (d : Ddc) :
    (countEnd (d.scannedTo (8 * d.len))).runCount = BitVec.ofNat 32 (runs (bits d.payload)).length := by
  have hall : (bits d.payload).take (8 * d.len) = bits d.payload := List.take_of_length_le (by simp)
  rw [countEnd_runCount, Ddc.scannedTo, hall]
  exact rleRun_empty_rcnt (bits d.payload)

/-- Settles O28: the DDC after n of the steps is the scan of n bits, and the last step is RLE_END. -/
theorem countPhaseGivesTheRunCount : Obligations.CountPhaseGivesTheRunCount := by
  intro depth d hp hr hb
  have hscan : ∀ k n, n ≤ 8 * d.len → engineRun depth (k + n) d = engineRun depth k (d.scannedTo n) := by
    intro k n hn
    have h := engineRun_scannedTo (depth := depth) k (m := 0) hp (by omega : 0 + n ≤ 8 * d.len)
    rwa [Ddc.scannedTo_zero hr hb, Nat.zero_add] at h
  refine ⟨⟨countEnd (d.scannedTo (8 * d.len)), ?run, rfl, ?count, ?length⟩, fun n hn =>
    ⟨d.scannedTo n, ?before, hp, d.scannedTo_hostView n⟩⟩
  case run =>
    have hend := Ddc.toNat_scannedTo_bidx (d := d) (Nat.le_refl (8 * d.len))
    have hen := engineEnabled_count (depth := depth) (d := d.scannedTo (8 * d.len)) hp hend.le
    have hact := engineAct_countEnd (d := d.scannedTo (8 * d.len)) hp hend
    rw [Nat.add_comm, hscan 1 _ (Nat.le_refl _), engineRun_succ hen hact]
    rfl
  case count =>
    have hle := d.runs_length_le
    rw [countEnd_scannedTo_runCount, BitVec.toNat_ofNat, Nat.mod_eq_of_lt (by omega)]
  case length =>
    have hle := d.runs_length_le
    rw [countEnd_outLen, ← countEnd_runCount, countEnd_scannedTo_runCount, BitVec.toNat_add, BitVec.toNat_ofNat,
      BitVec.toNat_ofNat]
    omega
  case before =>
    have h := hscan 0 n hn
    rwa [Nat.zero_add] at h

end Sys2Proof.Machine
end

section
/-! R90: LOAD_FRAME_BYTE. -/

namespace Sys2Proof.Machine

/-- In LOAD of RLE an IN_DATA write is LOAD_FRAME_BYTE (44_host_bus.md R119). -/
theorem exec_wrInData_frame {s : State} (w : Word) (hp : s.ddc.phase = .load) (ho : s.ddc.opc = .rle) :
    exec (.wrInData w) s = s.after (loadFrameByte w s.ddc) := by
  have hw : inDataWrite w s.ddc = loadFrameByte w s.ddc := by simp [inDataWrite, hp, ho]
  exact congrArg s.after hw

theorem loadFrameByte_width (w : Word) {d : Ddc} (h : d.hdrCnt = 0#2) :
    loadFrameByte w d = .ok (loadWidth (inByte w) d) := if_pos h

theorem loadFrameByte_height (w : Word) {d : Ddc} (h : d.hdrCnt = 1#2) :
    loadFrameByte w d = .ok (loadHeight (inByte w) d) := by
  simp [loadFrameByte, h]

/-- The DDC with a payload byte stored at PIDX, before PIDX moves on (42_run_length.md R90). -/
def storeFrameByte (v : Byte) (d : Ddc) : Ddc := { d with pbuf := d.pbuf.set d.pidx.toNat v }

/-- A payload byte is in range, so it is taken (20_memory.md R41). -/
theorem loadFrameByte_payload (w : Word) {d : Ddc} (h : d.hdrCnt = 2#2) (hi : d.pidx.toNat < d.len) :
    loadFrameByte w d = .ok (advancePidx (storeFrameByte (inByte w) d)) := by
  have hlt := hi.trans_le d.len_le
  rcases loadFrameByte_cases w d with ⟨h', -⟩ | ⟨h', -⟩ | ⟨-, -, -, e⟩ | ⟨-, -, hge, -⟩
  · rw [h] at h'; cases h'
  · rw [h] at h'; cases h'
  · exact e
  · exact absurd hlt (Nat.not_lt.mpr hge)

theorem loadHeight_nonempty {v : Byte} {d : Ddc} (h : v.toNat * bpr d.curW.toNat ≠ 0) :
    loadHeight v d = { d with curH := v, hdrCnt := 2#2, pidx := 0#13 } := if_neg h

theorem loadHeight_empty {v : Byte} {d : Ddc} (h : v.toNat * bpr d.curW.toNat = 0) :
    loadHeight v d = loadComplete { d with curH := v, hdrCnt := 2#2, pidx := 0#13 } := if_pos h

/-- PIDX moves on below L without wrapping (10_state.md R31). -/
theorem toNat_pidx_succ {d : Ddc} (h : d.pidx.toNat < d.len) : (d.pidx + 1#13).toNat = d.pidx.toNat + 1 := by
  have hl : d.len ≤ 8160 := d.len_le
  bv_omega

theorem advancePidx_more {d : Ddc} (hi : d.pidx.toNat < d.len) (h : d.pidx.toNat + 1 ≠ d.len) :
    advancePidx d = { d with pidx := d.pidx + 1#13 } := by
  rw [← toNat_pidx_succ hi] at h
  exact if_neg h

theorem advancePidx_last {d : Ddc} (hi : d.pidx.toNat < d.len) (h : d.pidx.toNat + 1 = d.len) :
    advancePidx d = loadComplete { d with pidx := d.pidx + 1#13 } := by
  rw [← toNat_pidx_succ hi] at h
  exact if_pos h

@[simp] theorem advancePidx_pbuf (d : Ddc) : (advancePidx d).pbuf = d.pbuf := by
  simp only [advancePidx]
  split <;> simp

@[simp] theorem advancePidx_pbufEpoch (d : Ddc) : (advancePidx d).pbufEpoch = d.pbufEpoch := by
  simp only [advancePidx]
  split <;> simp

@[simp] theorem pbufRead_advancePidx (d : Ddc) (a : Nat) : pbufRead (advancePidx d) a = pbufRead d a := by
  simp [pbufRead]

/-- Settles O22, by which byte of the frame is written. -/
theorem frameInputLoadsOneByte : Obligations.FrameInputLoadsOneByte := by
  intro w s hp ho
  have hexec := exec_wrInData_frame w hp ho
  refine ⟨fun h => ?width, fun h hne => ?height, fun h he => ?empty, fun h hi => ?payload⟩
  case width => rw [hexec, loadFrameByte_width w h]; rfl
  case height => rw [hexec, loadFrameByte_height w h, loadHeight_nonempty (v := inByte w) hne]; rfl
  case empty => rw [hexec, loadFrameByte_height w h, loadHeight_empty (v := inByte w) he]; rfl
  case payload =>
    rw [loadFrameByte_payload w h hi] at hexec
    refine ⟨_, hexec, ?same, fun a ha => ?other, fun hmore => ?more, fun hlast => ?last⟩
    case same => exact (pbufRead_advancePidx _ _).trans (pbufRead_set_same _ _ _)
    case other => exact (pbufRead_advancePidx _ _).trans (pbufRead_set_other _ _ ha)
    case more => rw [advancePidx_pbuf, advancePidx_more (d := storeFrameByte (inByte w) s.ddc) hi hmore]; rfl
    case last => rw [advancePidx_pbuf, advancePidx_last (d := storeFrameByte (inByte w) s.ddc) hi hlast]; rfl

end Sys2Proof.Machine
end

section
/-! R98, R104 to R106: the refusals of a CMD write, in their order. -/

namespace Sys2Proof.Machine

theorem exec_wrCmd (w : Word) (s : State) : exec (.wrCmd w) s = .next { s with ddc := cmdWrite w s.ddc } := rfl

/-! A command's own instruction is the CMD write of its word (43_commands.md R101 to R103). -/

theorem exec_enc (s : State) : exec .enc s = exec (.wrCmd 1#32) s := rfl

theorem exec_encRle (s : State) : exec .encRle s = exec (.wrCmd 2#32) s := rfl

theorem exec_rle (s : State) : exec .rle s = exec (.wrCmd 3#32) s := rfl

/-! The words of the three commands are legal (30_encoding.md R56, R61). -/

theorem legalOp_enc : legalOp 1#32 = some .enc := by decide

theorem legalOp_encRle : legalOp 2#32 = some .encRle := by decide

theorem legalOp_rle : legalOp 3#32 = some .rle := by decide

/-- OP names no operation exactly when it is none of 1, 2 and 3 (30_encoding.md R61). -/
theorem opOf_eq_none_iff (op : BitVec 4) : opOf op = none ↔ op ∉ [1#4, 2#4, 3#4] := by
  revert op
  decide

/-- A CMD word is illegal for its RSV field or for its OP field (43_commands.md R105). -/
theorem legalOp_eq_none_iff (w : Word) : legalOp w = none ↔ rsvField w ≠ 0#28 ∨ opField w ∉ [1#4, 2#4, 3#4] := by
  rw [← opOf_eq_none_iff, legalOp]
  by_cases hr : rsvField w = 0#28
  · simp [hr]
  · simp [hr]

/-- A word with RSV = 0 and OP = 1 or 2 names a command that reads pixels (30_encoding.md R61). -/
theorem legalOp_of_pixelFields {w : Word} (hr : rsvField w = 0#28) (ho : opField w ∈ [1#4, 2#4]) :
    ∃ op, legalOp w = some op ∧ op ≠ .rle := by
  rw [legalOp, if_pos hr]
  generalize opField w = o at ho
  rcases List.mem_pair.mp ho with rfl | rfl
  · exact ⟨.enc, by decide⟩
  · exact ⟨.encRle, by decide⟩

theorem dimTooLarge_eq_true_iff (w : Word) :
    dimTooLarge w = true ↔ 255 < (widthField w).toNat ∨ 255 < (heightField w).toNat := by
  simp [dimTooLarge]

theorem cmdWrite_dimTooLarge {w : Word} {d : Ddc} {op : Opc} (hp : d.phase = .idle) (hl : legalOp w = some op)
    (hr : op ≠ .rle) (hd : dimTooLarge d.dim = true) : cmdWrite w d = raiseErr .dimTooLarge d := by
  rw [cmdWrite_legal hp hl, accept, if_neg hr, if_pos hd]

/-- A CMD write that raises an error records its code, and nothing else changes (60_exceptions.md R125). -/
theorem exec_wrCmd_of_raiseErr {w : Word} {s : State} {c : ErrCode} (h : cmdWrite w s.ddc = raiseErr c s.ddc) :
    exec (.wrCmd w) s = .next (s.recordErr c.code) := by
  rw [exec_wrCmd, h, raiseErr_eq, State.recordErr]

/-- CMD_WHILE_BUSY decides before the word is looked at (43_commands.md R104). -/
theorem exec_wrCmd_busy {s : State} (w : Word) (hp : s.ddc.phase ≠ .idle) :
    exec (.wrCmd w) s = .next (s.recordErr 3#4) := exec_wrCmd_of_raiseErr (cmdWrite_busy w hp)

theorem exec_wrCmd_illegal {w : Word} {s : State} (hp : s.ddc.phase = .idle) (hl : legalOp w = none) :
    exec (.wrCmd w) s = .next (s.recordErr 2#4) := exec_wrCmd_of_raiseErr (cmdWrite_illegal hp hl)

theorem exec_wrCmd_dimTooLarge {w : Word} {s : State} {op : Opc} (hp : s.ddc.phase = .idle) (hl : legalOp w = some op)
    (hr : op ≠ .rle) (hd : dimTooLarge s.ddc.dim = true) : exec (.wrCmd w) s = .next (s.recordErr 1#4) :=
  exec_wrCmd_of_raiseErr (cmdWrite_dimTooLarge hp hl hr hd)

/-- Settles O14: one refusal of the CMD write for each clause, taken over to the commands' own instructions. -/
theorem commandsAreRefusedInOrder : Obligations.CommandsAreRefusedInOrder := by
  intro w s
  refine ⟨fun hp => ?busy, fun hp hw => ?illegal, fun hp hdim => ?dimensions⟩
  case busy =>
    exact ⟨exec_wrCmd_busy w hp, (exec_enc s).trans (exec_wrCmd_busy _ hp),
      (exec_encRle s).trans (exec_wrCmd_busy _ hp), (exec_rle s).trans (exec_wrCmd_busy _ hp)⟩
  case illegal => exact exec_wrCmd_illegal hp ((legalOp_eq_none_iff w).mpr hw)
  case dimensions =>
    have hd := (dimTooLarge_eq_true_iff s.ddc.dim).mpr hdim
    refine ⟨fun hrsv hop => ?word, ?enc, ?encRle⟩
    case word =>
      obtain ⟨op, hl, hr⟩ := legalOp_of_pixelFields hrsv hop
      exact exec_wrCmd_dimTooLarge hp hl hr hd
    case enc => exact (exec_enc s).trans (exec_wrCmd_dimTooLarge hp legalOp_enc (by decide) hd)
    case encRle => exact (exec_encRle s).trans (exec_wrCmd_dimTooLarge hp legalOp_encRle (by decide) hd)

end Sys2Proof.Machine
end

section
/-! R99: ACCEPT_PIXELS. -/

namespace Sys2Proof.Machine

theorem cmdWrite_acceptPixels {w : Word} {d : Ddc} {op : Opc} (hp : d.phase = .idle) (hl : legalOp w = some op)
    (hr : op ≠ .rle) (hd : dimTooLarge d.dim = false) : cmdWrite w d = acceptPixels op d := by
  rw [cmdWrite_legal hp hl, accept, if_neg hr, hd]
  rfl

/-- ENC and ENC_RLE, in either spelling, are the acceptance of their operation in IDLE with DIM in range (43_commands.md
R98). -/
theorem exec_acceptPixels {i : Instr} {s : State} {op : Opc}
    (hi : ((i = .enc ∨ i = .wrCmd 1#32) ∧ op = .enc) ∨ ((i = .encRle ∨ i = .wrCmd 2#32) ∧ op = .encRle))
    (hp : s.ddc.phase = .idle) (hd : dimTooLarge s.ddc.dim = false) :
    exec i s = .next { s with ddc := acceptPixels op s.ddc } := by
  have hword : ∃ w, exec i s = exec (.wrCmd w) s ∧ legalOp w = some op ∧ op ≠ .rle := by
    rcases hi with ⟨rfl | rfl, rfl⟩ | ⟨rfl | rfl, rfl⟩
    · exact ⟨1#32, exec_enc s, legalOp_enc, by decide⟩
    · exact ⟨1#32, rfl, legalOp_enc, by decide⟩
    · exact ⟨2#32, exec_encRle s, legalOp_encRle, by decide⟩
    · exact ⟨2#32, rfl, legalOp_encRle, by decide⟩
  obtain ⟨w, hexec, hl, hr⟩ := hword
  rw [hexec, exec_wrCmd, cmdWrite_acceptPixels hp hl hr hd]

/-- The DDC with the dimensions latched and the packer's registers and DONE cleared, before ACCEPT_PIXELS chooses the
next phase (43_commands.md R99). -/
def latchGrid (op : Opc) (d : Ddc) : Ddc :=
  { d with
    opc := op
    curW := (widthField d.dim).setWidth 8
    curH := (heightField d.dim).setWidth 8
    row := 0#8
    col := 0#8
    acc := 0#8
    done := false }

/-- ACCEPT_PIXELS, by whether the grid is empty (43_commands.md R99). -/
theorem acceptPixels_eq (op : Opc) (d : Ddc) :
    acceptPixels op d =
      if (latchGrid op d).len = 0 then loadComplete (latchGrid op d) else { latchGrid op d with phase := .load } := rfl

@[simp] theorem acceptPixels_curW (op : Opc) (d : Ddc) : (acceptPixels op d).curW = (widthField d.dim).setWidth 8 := by
  rw [acceptPixels_eq]
  split
  · exact loadComplete_curW _
  · rfl

@[simp] theorem acceptPixels_curH (op : Opc) (d : Ddc) : (acceptPixels op d).curH = (heightField d.dim).setWidth 8 := by
  rw [acceptPixels_eq]
  split
  · exact loadComplete_curH _
  · rfl

/-- A dimension of at most 255 fits its latch CUR_W or CUR_H (10_state.md R29). -/
theorem toNat_setWidth_of_le_maxDim {x : BitVec 16} (h : x.toNat ≤ 255) : (x.setWidth 8).toNat = x.toNat := by
  rw [BitVec.toNat_setWidth, Nat.mod_eq_of_lt (by omega)]

/-- Settles O15: the next DDC is that of ACCEPT_PIXELS, by whether the latched grid is empty. -/
theorem pixelCommandsAreAccepted : Obligations.PixelCommandsAreAccepted := by
  intro s i op hi hp hw hh
  have hexec := exec_acceptPixels hi hp ((dimTooLarge_eq_false_iff _).mpr ⟨hw, hh⟩)
  refine ⟨acceptPixels op s.ddc, hexec, ?_⟩
  rw [acceptPixels_curW, acceptPixels_curH]
  refine ⟨toNat_setWidth_of_le_maxDim hw, toNat_setWidth_of_le_maxDim hh, fun hw0 hh0 => ?pixels, fun h0 => ?empty⟩
  case pixels =>
    have hl : ¬ (latchGrid op s.ddc).len = 0 := by
      rw [Ddc.len_eq_zero_iff]
      exact not_or.mpr ⟨hw0, hh0⟩
    rw [acceptPixels_eq, if_neg hl]
    rfl
  case empty =>
    rw [acceptPixels_eq, if_pos ((Ddc.len_eq_zero_iff _).mpr h0)]
    rfl

end Sys2Proof.Machine
end

section
/-! R100: ACCEPT_FRAME. -/

namespace Sys2Proof.Machine

/-- The word of RLE is accepted in IDLE, and DIM is not read (43_commands.md R98). -/
theorem cmdWrite_acceptFrame {w : Word} {d : Ddc} (hp : d.phase = .idle) (hl : legalOp w = some .rle) :
    cmdWrite w d = acceptFrame d := by
  rw [cmdWrite_legal hp hl, accept, if_pos rfl]

/-- Settles O16, for the CMD write of 3, which the instruction RLE is. -/
theorem frameCommandIsAccepted : Obligations.FrameCommandIsAccepted := by
  intro s i hi hp
  have hword : exec (.wrCmd 3#32) s = .next { s with ddc := acceptFrame s.ddc } := by
    rw [exec_wrCmd, cmdWrite_acceptFrame hp legalOp_rle]
  rcases hi with rfl | rfl
  · exact (exec_rle s).trans hword
  · exact hword

end Sys2Proof.Machine
end

section
/-! R108, R109, R111, R113 to R115: the reads of CMD, DIM, IN_DATA, RUN_COUNT, OUT_LEN and the reserved index. -/

namespace Sys2Proof.Machine

theorem exec_rdCmd (s : State) : exec .rdCmd s = .next (s.returns .cmd 0#32) := rfl

theorem exec_rdDim (s : State) : exec .rdDim s = .next (s.returns .dim s.ddc.dim) := rfl

theorem exec_rdInData (s : State) : exec .rdInData s = .next (s.returns .inData 0#32) := rfl

theorem exec_rdRunCount (s : State) : exec .rdRunCount s = .next (s.returns .runCount s.ddc.runCount) := rfl

theorem exec_rdOutLen (s : State) : exec .rdOutLen s = .next (s.returns .outLen s.ddc.outLen) := rfl

theorem exec_rdRsv (s : State) : exec .rdRsv s = .next (s.returns .rsv 0#32) := rfl

/-- Settles O6: each read returns its value, and returning one only extends the list of values returned. -/
theorem plainReadsReturnTheirRegister : Obligations.PlainReadsReturnTheirRegister := fun s =>
  ⟨exec_rdCmd s, exec_rdDim s, exec_rdInData s, exec_rdRunCount s, exec_rdOutLen s, exec_rdRsv s⟩

end Sys2Proof.Machine
end

section
/-! R60, R110: the STATUS word, field by field, and its read. -/

namespace Sys2Proof.Machine

/-- ERR and the four flags stand at their own places and share no bit; above them the word is 0
(30_encoding.md R60). -/
theorem statusWord_eq_append (d : Ddc) :
    statusWord d = 0#24 ++ (d.err ++
      (BitVec.ofBool d.done ++ BitVec.ofBool d.outAvail ++ BitVec.ofBool d.inReq ++ BitVec.ofBool d.busy)) := by
  unfold statusWord
  generalize d.busy = b, d.inReq = r, d.outAvail = a, d.done = f, d.err = e
  revert b r a f e
  decide

/-- Bits 0 to 3 of STATUS are BUSY, IN_REQ, OUT_AVAIL and DONE (30_encoding.md R60). -/
theorem statusWord_flags (d : Ddc) :
    (statusWord d).getLsbD 0 = d.busy ∧ (statusWord d).getLsbD 1 = d.inReq ∧ (statusWord d).getLsbD 2 = d.outAvail
      ∧ (statusWord d).getLsbD 3 = d.done := by
  simp only [statusWord_eq_append, BitVec.getLsbD_append]
  simp

@[simp] theorem statusWord_err (d : Ddc) : (statusWord d).extractLsb' 4 4 = d.err := by
  rw [statusWord_eq_append, BitVec.extractLsb'_append_eq_of_add_le (by decide)]
  exact BitVec.extractLsb'_append_eq_left

@[simp] theorem statusWord_aboveErr (d : Ddc) : (statusWord d).extractLsb' 8 24 = 0#24 := by
  rw [statusWord_eq_append]
  exact BitVec.extractLsb'_append_eq_left

theorem Ddc.busy_eq_decide (d : Ddc) : d.busy = decide (d.phase ≠ .idle) := by
  rw [Bool.eq_iff_iff, Ddc.busy, bne_iff_ne, decide_eq_true_iff]

theorem Ddc.inReq_eq_decide (d : Ddc) : d.inReq = decide (d.phase = .load) := by
  rw [Bool.eq_iff_iff, Ddc.inReq, beq_iff_eq, decide_eq_true_iff]

theorem Ddc.outAvail_eq_decide (d : Ddc) : d.outAvail = decide (0 < d.outq.length) := by
  cases h : d.outq <;> simp [Ddc.outAvail, h]

/-- "DONE = 1 with BUSY = 1 cannot occur" in a state with the invariant (44_host_bus.md R110). -/
theorem Ddc.Inv.not_busy_and_done {depth : Nat} {d : Ddc} (hi : d.Inv depth) : ¬ (d.busy = true ∧ d.done = true) := by
  rintro ⟨hb, hd⟩
  have hp : d.phase ≠ .idle := bne_iff_ne.mp hb
  exact Bool.false_ne_true ((hi.busyNotDone hp).symm.trans hd)

/-- After reset no STATUS bit is set (10_state.md R39). -/
theorem statusWord_reset : statusWord State.reset.ddc = 0#32 := by decide

theorem exec_rdStatus (s : State) : exec .rdStatus s = .next (s.returns .status (statusWord s.ddc)) := rfl

/-- Settles O7: the value returned is the STATUS word, whose fields are read off one by one. -/
theorem statusReadReturnsItsFields : Obligations.StatusReadReturnsItsFields := by
  refine ⟨fun s => ?_, ?_⟩
  · obtain ⟨hbusy, hinReq, houtAvail, hdone⟩ := statusWord_flags s.ddc
    refine ⟨statusWord s.ddc, exec_rdStatus s, hbusy.trans s.ddc.busy_eq_decide, hinReq.trans s.ddc.inReq_eq_decide,
      houtAvail.trans s.ddc.outAvail_eq_decide, hdone, statusWord_err _, statusWord_aboveErr _, fun depth hi => ?_⟩
    rw [hbusy, hdone]
    exact hi.not_busy_and_done
  · rw [exec_rdStatus, statusWord_reset]
    rfl

end Sys2Proof.Machine
end

section
/-! R118, R120 to R123: the STATUS write, and the writes without effect. -/

namespace Sys2Proof.Machine

theorem exec_wrStatus (w : Word) (s : State) : exec (.wrStatus w) s = .next { s with ddc := clearStatus w s.ddc } := rfl

/-- A STATUS write changes DONE and ERR, and nothing else (44_host_bus.md R118). -/
theorem clearStatus_frame (w : Word) (d : Ddc) :
    clearStatus w d = { d with done := (clearStatus w d).done, err := (clearStatus w d).err } := rfl

/-- Settles O10: DONE_CLR is bit 3 of the word and ERR_CLR bit 8. -/
theorem statusWriteClearsWhatItSelects : Obligations.StatusWriteClearsWhatItSelects := fun w s =>
  ⟨_, exec_wrStatus w s, clearStatus_frame w s.ddc, clearStatus_done w s.ddc, clearStatus_err w s.ddc⟩

theorem exec_wrOutData (w : Word) (s : State) : exec (.wrOutData w) s = .next s := rfl

theorem exec_wrRunCount (w : Word) (s : State) : exec (.wrRunCount w) s = .next s := rfl

theorem exec_wrOutLen (w : Word) (s : State) : exec (.wrOutLen w) s = .next s := rfl

theorem exec_wrRsv (w : Word) (s : State) : exec (.wrRsv w) s = .next s := rfl

/-- Settles O11, one write after the other. -/
theorem writesToReadOnlyRegistersDoNothing : Obligations.WritesToReadOnlyRegistersDoNothing := fun w s =>
  ⟨exec_wrOutData w s, exec_wrRunCount w s, exec_wrOutLen w s, exec_wrRsv w s⟩

end Sys2Proof.Machine
end

section
/-! R125: raising an error. -/

namespace Sys2Proof.Machine

theorem raiseErr_of_err_zero (c : ErrCode) {d : Ddc} (h : d.err = 0#4) : raiseErr c d = { d with err := c.code } :=
  if_pos h

theorem raiseErr_of_err_ne_zero (c : ErrCode) {d : Ddc} (h : d.err ≠ 0#4) : raiseErr c d = d := if_neg h

/-- 0 is NONE, and 5 to 15 are never produced (60_exceptions.md R124). -/
theorem ErrCode.code_bounds (c : ErrCode) : 1 ≤ c.code.toNat ∧ c.code.toNat ≤ 4 := by
  cases c <;> decide

/-- Settles O13: the two cases of ERR, and the bounds of the codes. -/
theorem theFirstErrorIsKept : Obligations.TheFirstErrorIsKept := fun c _ =>
  ⟨raiseErr_of_err_zero c, raiseErr_of_err_ne_zero c, c.code_bounds⟩

end Sys2Proof.Machine
end

section
/-! R147: DIM is read by a RD_DIM and by the acceptance of a command, which happens in IDLE alone. Everything else a
step can do commutes with a rewrite of DIM. -/

namespace Sys2Proof.Machine

/-- The DDC with another DIM: what `State.withDim` makes of it. -/
def Ddc.withDim (w : Word) (d : Ddc) : Ddc := { d with dim := w }

@[simp] theorem State.withDim_ddc (s : State) (w : Word) : (s.withDim w).ddc = s.ddc.withDim w := rfl

@[simp] theorem Ddc.withDim_phase (w : Word) (d : Ddc) : (d.withDim w).phase = d.phase := rfl
@[simp] theorem Ddc.withDim_opc (w : Word) (d : Ddc) : (d.withDim w).opc = d.opc := rfl
@[simp] theorem Ddc.withDim_hdrCnt (w : Word) (d : Ddc) : (d.withDim w).hdrCnt = d.hdrCnt := rfl

theorem State.after_withDim {s t : State} {r : Except Fault Ddc} (w : Word) (h : s.after r = .next t) :
    (s.withDim w).after (r.map (Ddc.withDim w)) = .next (t.withDim w) := by
  cases r with
  | ok d => cases h; rfl
  | error f => cases h

/-- A choice that does not look at DIM commutes with the rewrite when both its branches do. -/
theorem ite_withDim {c : Prop} [Decidable c] {a b a' b' : Ddc} {w : Word} (ha : a' = a.withDim w)
    (hb : b' = b.withDim w) : (if c then a' else b') = (if c then a else b).withDim w := by
  rw [ha, hb, apply_ite (Ddc.withDim w)]

/-- What follows a step that may fault commutes with the rewrite when it does so of every DDC. -/
theorem map_withDim_comm {f : Ddc → Ddc} {w : Word} (hf : ∀ d : Ddc, f (d.withDim w) = (f d).withDim w)
    (r : Except Fault Ddc) : (r.map (Ddc.withDim w)).map f = (r.map f).map (Ddc.withDim w) := by
  cases r with
  | ok d => exact congrArg Except.ok (hf d)
  | error f => rfl

/-! ## Refusals -/

theorem raiseErr_withDim (c : ErrCode) (d : Ddc) (w : Word) :
    raiseErr c (d.withDim w) = (raiseErr c d).withDim w :=
  ite_withDim rfl rfl

/-- With a command in progress a CMD write is refused before DIM is looked at (43_commands.md R98, R104). -/
theorem cmdWrite_withDim (v : Word) {d : Ddc} (hp : d.phase ≠ .idle) (w : Word) :
    cmdWrite v (d.withDim w) = (cmdWrite v d).withDim w := by
  rw [cmdWrite_busy v hp, cmdWrite_busy v (by rwa [Ddc.withDim_phase]), raiseErr_withDim]

/-! ## Loading -/

theorem loadComplete_withDim (d : Ddc) (w : Word) : loadComplete (d.withDim w) = (loadComplete d).withDim w :=
  ite_withDim rfl rfl

theorem pbufWrite_withDim (d : Ddc) (i : Nat) (v : Byte) (w : Word) :
    pbufWrite (d.withDim w) i v = (pbufWrite d i v).map (Ddc.withDim w) := by
  rw [pbufWrite, pbufWrite]
  split <;> rfl

theorem storeGroup_withDim (d : Ddc) (w : Word) : storeGroup (d.withDim w) = (storeGroup d).map (Ddc.withDim w) := by
  have hgroup : groupComplete (d.withDim w) = groupComplete d := rfl
  rw [storeGroup, storeGroup, hgroup, pbufWrite_withDim]
  split
  · exact map_withDim_comm (f := fun d => { d with acc := 0#8 }) (fun _ => rfl) _
  · rfl

theorem endRow_withDim (d : Ddc) (w : Word) : endRow (d.withDim w) = (endRow d).withDim w :=
  ite_withDim (ite_withDim (loadComplete_withDim { d with col := 0#8, row := d.row + 1#8 } w) rfl) rfl

theorem packPixel_withDim (v : Word) (d : Ddc) (w : Word) :
    packPixel v (d.withDim w) = (packPixel v d).map (Ddc.withDim w) := by
  have hplace : placePixel (pixelBit v) (d.withDim w) = (placePixel (pixelBit v) d).withDim w := rfl
  rw [packPixel, hplace, storeGroup_withDim]
  exact map_withDim_comm (fun d => endRow_withDim d w) _

theorem loadHeight_withDim (v : Byte) (d : Ddc) (w : Word) : loadHeight v (d.withDim w) = (loadHeight v d).withDim w :=
  ite_withDim (loadComplete_withDim { d with curH := v, hdrCnt := 2#2, pidx := 0#13 } w) rfl

theorem advancePidx_withDim (d : Ddc) (w : Word) : advancePidx (d.withDim w) = (advancePidx d).withDim w :=
  ite_withDim (loadComplete_withDim { d with pidx := d.pidx + 1#13 } w) rfl

theorem loadFrameByte_withDim (v : Word) (d : Ddc) (w : Word) :
    loadFrameByte v (d.withDim w) = (loadFrameByte v d).map (Ddc.withDim w) := by
  rw [loadFrameByte, loadFrameByte, Ddc.withDim_hdrCnt, loadHeight_withDim, pbufWrite_withDim]
  split
  · rfl
  · split
    · rfl
    · exact map_withDim_comm (fun d => advancePidx_withDim d w) _

/-- An IN_DATA write takes the grid's size from CUR_W and CUR_H (44_host_bus.md R119). -/
theorem inDataWrite_withDim (v : Word) (d : Ddc) (w : Word) :
    inDataWrite v (d.withDim w) = (inDataWrite v d).map (Ddc.withDim w) := by
  rw [inDataWrite, inDataWrite, Ddc.withDim_phase, Ddc.withDim_opc]
  split
  · exact packPixel_withDim v d w
  · split
    · exact loadFrameByte_withDim v d w
    · exact congrArg Except.ok (raiseErr_withDim .inUnexpected d w)

/-! ## The ENGINE -/

theorem endEmit_withDim (d : Ddc) (w : Word) : endEmit (d.withDim w) = (endEmit d).withDim w :=
  ite_withDim rfl rfl

/-- OSEQ has CUR_W and CUR_H for its header (41_output_stream.md R79). -/
theorem emitByte_withDim (d : Ddc) (w : Word) : emitByte (d.withDim w) = (emitByte d).map (Ddc.withDim w) := by
  have hnext : (oseq (d.withDim w))[(d.withDim w).eidx.toNat]? = (oseq d)[d.eidx.toNat]? := rfl
  rw [emitByte, emitByte, hnext]
  split
  · next b _ => exact congrArg Except.ok (endEmit_withDim (pushOut b d) w)
  · rfl

/-- The ENGINE does not read DIM, whatever its phase. -/
theorem engineAct_withDim (d : Ddc) (w : Word) : engineAct (d.withDim w) = (engineAct d).map (Ddc.withDim w) := by
  rw [engineAct, engineAct, Ddc.withDim_phase]
  split
  · rfl
  · rfl
  · exact congrArg Except.ok (ite_withDim rfl rfl)
  · exact emitByte_withDim d w

theorem engineEnabled_withDim (depth : Nat) (d : Ddc) (w : Word) :
    engineEnabled depth (d.withDim w) = engineEnabled depth d := rfl

theorem engineTurn_withDim {depth : Nat} {s t : State} (w : Word) (h : engineTurn depth s = .next t) :
    engineTurn depth (s.withDim w) = .next (t.withDim w) := by
  rw [engineTurn, State.withDim_ddc, engineEnabled_withDim, engineAct_withDim]
  rw [engineTurn] at h
  split at h
  · next hen => rw [if_pos hen]; exact State.after_withDim w h
  · next hen => cases h; exact if_neg hen

/-! ## A step with a command in progress -/

theorem exec_wrCmd_withDim {v : Word} {s t : State} (w : Word) (hp : s.ddc.phase ≠ .idle)
    (h : exec (.wrCmd v) s = .next t) : exec (.wrCmd v) (s.withDim w) = .next (t.withDim w) := by
  rw [exec_wrCmd] at h ⊢
  cases h
  rw [State.withDim_ddc, cmdWrite_withDim v hp]
  rfl

theorem exec_wrInData_withDim {v : Word} {s t : State} (w : Word) (h : exec (.wrInData v) s = .next t) :
    exec (.wrInData v) (s.withDim w) = .next (t.withDim w) := by
  have hafter := State.after_withDim w h
  rw [← inDataWrite_withDim] at hafter
  exact hafter

/-- With a command in progress only an access to DIM itself depends on DIM (70_reset_and_hazards.md R147). -/
theorem exec_withDim {i : Instr} {s t : State} (w : Word) (hp : s.ddc.phase ≠ .idle) (hr : i ≠ .rdDim)
    (hw : ∀ v : Word, i ≠ .wrDim v) (h : exec i s = .next t) : exec i (s.withDim w) = .next (t.withDim w) := by
  cases i
  case rdDim => exact absurd rfl hr
  case wrDim v => exact absurd rfl (hw v)
  case wrInData v => exact exec_wrInData_withDim w h
  case wrCmd v => exact exec_wrCmd_withDim w hp h
  case enc => exact exec_wrCmd_withDim (v := 1#32) w hp h
  case encRle => exact exec_wrCmd_withDim (v := 2#32) w hp h
  case rle => exact exec_wrCmd_withDim (v := 3#32) w hp h
  all_goals cases h; rfl

/-- Settles O46: the accesses one by one, and the ENGINE's turn. -/
theorem dimIsNotReadDuringACommand : Obligations.DimIsNotReadDuringACommand := fun _ _ _ w hp =>
  ⟨fun _ hr hw h => exec_withDim w hp hr hw h, fun h => engineTurn_withDim w h⟩

end Sys2Proof.Machine
end

section
/-! R55, R56, R61: the encoder and the decoder are inverse to each other. -/

namespace Sys2Proof

@[simp] theorem encode_readInstr (p : Port) : encode (readInstr p) = rd p := by cases p <;> rfl

theorem encode_commandOf (d : Word) : encode (commandOf d) = wr .cmd d := by
  rcases commandOf_cases d with ⟨rfl, h⟩ | ⟨rfl, h⟩ | ⟨rfl, h⟩ | ⟨-, h⟩ <;> rw [h] <;> rfl

@[simp] theorem encode_writeInstr (p : Port) (d : Word) : encode (writeInstr p d) = wr p d := by
  cases p
  case cmd => exact encode_commandOf d
  all_goals rfl

theorem readInstr_wf (p : Port) : (readInstr p).wf = true := by cases p <;> rfl

theorem readInstr_isRead (p : Port) : (readInstr p).isRead = true := by cases p <;> rfl

/-- The decoder gives a command word its own constructor (30_encoding.md R61). -/
theorem writeInstr_wf (p : Port) (d : Word) : (writeInstr p d).wf = true := by
  cases p
  case cmd =>
    rcases commandOf_cases d with ⟨-, h⟩ | ⟨-, h⟩ | ⟨-, h⟩ | ⟨hd, h⟩ <;> rw [writeInstr, h]
    · rfl
    · rfl
    · rfl
    · rw [Instr.wf, hd]; rfl
  all_goals rfl

theorem writeInstr_isRead (p : Port) (d : Word) : (writeInstr p d).isRead = false := by
  cases p
  case cmd => rcases commandOf_cases d with ⟨-, h⟩ | ⟨-, h⟩ | ⟨-, h⟩ | ⟨-, h⟩ <;> rw [writeInstr, h] <;> rfl
  all_goals rfl

/-- A selector is WE followed by IDX (30_encoding.md R55). -/
theorem BusAccess.sel_eq (a : BusAccess) :
    a.sel = if a.we then 0x8#4 ||| a.idx.setWidth 4 else a.idx.setWidth 4 := by
  have h : ∀ x : BitVec 4, x =
      if x.getLsbD 3 then 0x8#4 ||| (x.extractLsb' 0 3).setWidth 4 else (x.extractLsb' 0 3).setWidth 4 := by decide
  exact h a.sel

/-- An access with WE = 1 is the `wr` of its register (30_encoding.md R68). -/
theorem eq_wr_of_we {a : BusAccess} (h : a.we = true) : a = wr (portOf a.idx) a.data := by
  have hsel := a.sel_eq
  rw [if_pos h] at hsel
  rw [wr, index_portOf, ← hsel]

/-- An access with WE = 0 selects what the `rd` of its register selects (30_encoding.md R68). -/
theorem sel_eq_rd_of_not_we {a : BusAccess} (h : ¬ a.we = true) : a.sel = (rd (portOf a.idx)).sel := by
  have hsel := a.sel_eq
  rwa [if_neg h, ← index_portOf a.idx] at hsel

/-- A well-formed CMD write that is no command is read as itself (log 12). -/
theorem commandOf_of_wf {d : Word} (h : (Instr.wrCmd d).wf = true) : commandOf d = .wrCmd d := by
  rcases commandOf_cases d with ⟨rfl, -⟩ | ⟨rfl, -⟩ | ⟨rfl, -⟩ | ⟨-, e⟩
  · cases h
  · cases h
  · cases h
  · exact e

/-- Settles O1: the access of an instruction is `rd` or `wr` of its register, which the decoder reads back. -/
theorem decodingAnEncodedInstructionGivesItBack : Obligations.DecodingAnEncodedInstructionGivesItBack := by
  intro i hi
  cases i
  case wrCmd d => exact (decode_wr .cmd d).trans (commandOf_of_wf hi)
  case wrDim | wrStatus | wrInData | wrOutData | wrRunCount | wrOutLen | wrRsv => exact decode_wr _ _
  case enc | encRle | rle => exact decode_wr .cmd _
  all_goals exact decode_rd _

/-- Settles O2, by the WE bit. -/
theorem everySelectorIsOneLegalAccess : Obligations.EverySelectorIsOneLegalAccess := by
  intro a
  by_cases h : a.we = true
  · have hd : decode a = writeInstr (portOf a.idx) a.data := if_pos h
    have he : encode (decode a) = a := by rw [hd, encode_writeInstr]; exact (eq_wr_of_we h).symm
    exact ⟨hd ▸ writeInstr_wf _ _, congrArg BusAccess.sel he, by rw [hd, writeInstr_isRead, h]; rfl, fun _ => he⟩
  · have hd : decode a = readInstr (portOf a.idx) := if_neg h
    exact ⟨hd ▸ readInstr_wf _, by rw [hd, encode_readInstr]; exact (sel_eq_rd_of_not_we h).symm,
      by rw [hd, readInstr_isRead, eq_false_of_ne_true h]; rfl, fun h' => absurd h' h⟩

/-- Settles O3: nine words, decoded. -/
theorem specWordsDecodeToTheirInstructions : Obligations.SpecWordsDecodeToTheirInstructions := by
  unfold Obligations.SpecWordsDecodeToTheirInstructions
  decide

end Sys2Proof
end

section
/-! R12, R17: who moves, and what a turn does. -/

namespace Sys2Proof.Machine

/-- A HOST turn performs the first access of the list (log 1). -/
theorem stepAt_of_host {depth : Nat} {s s' : State} {a : BusAccess} {rest : List BusAccess}
    (ht : nextTurn depth s = (.host, s')) (hb : s'.bus = a :: rest) :
    stepAt depth s = exec (decode a) { s' with bus := rest } := by
  simp only [stepAt, ht, State.fetch_cons hb]

/-- A HOST turn with no access left changes nothing else (log 3). -/
theorem stepAt_of_host_idle {depth : Nat} {s s' : State} (ht : nextTurn depth s = (.host, s')) (hb : s'.bus = []) :
    stepAt depth s = .next s' := by
  simp only [stepAt, ht, State.fetch_nil hb]

theorem stepAt_of_engine {depth : Nat} {s s' : State} (ht : nextTurn depth s = (.engine, s')) :
    stepAt depth s = engineTurn depth s' := by
  simp only [stepAt, ht]

theorem stepAt_of_reset {depth : Nat} {s s' : State} (ht : nextTurn depth s = (.reset, s')) :
    stepAt depth s = .next (resetEvent s') := by
  simp only [stepAt, ht]

/-- With no turn listed an enabled ENGINE moves (log 2). -/
theorem nextTurn_nil_engine {depth : Nat} {s : State} (h : s.turns = []) (hen : engineEnabled depth s.ddc = true) :
    nextTurn depth s = (.engine, s) := by
  rw [nextTurn_nil h, if_pos hen]

theorem nextTurn_nil_host {depth : Nat} {s : State} (h : s.turns = []) (hen : engineEnabled depth s.ddc = false) :
    nextTurn depth s = (.host, s) := by
  rw [nextTurn_nil h, hen]
  rfl

theorem engineTurn_enabled {depth : Nat} {s : State} {d : Ddc} (hen : engineEnabled depth s.ddc = true)
    (hact : engineAct s.ddc = .ok d) : engineTurn depth s = .next { s with ddc := d } := by
  rw [engineTurn, if_pos hen, hact, State.after_ok]

theorem engineTurn_disabled {depth : Nat} {s : State} (hen : engineEnabled depth s.ddc = false) :
    engineTurn depth s = .next s := by
  rw [engineTurn, hen]
  rfl

/-- The step after a table word is placed performs its instruction (log 1). -/
theorem step_withFetchWord {s : State} {nbits w : Nat} {i : Instr} (h : decodeTableWord nbits w = some i) :
    step (s.withFetchWord nbits w) = exec i s := by
  rw [decodeTableWord] at h
  rw [State.withFetchWord]
  cases ha : tableAccess nbits w with
  | error e => rw [ha] at h; cases h
  | ok a => rw [ha] at h; cases h; exact stepAt_of_host (s' := { s with bus := a :: s.bus }) (nextTurn_cons rfl) rfl

/-- Settles O4: each way in which the turn comes to the HOST. -/
theorem stepPerformsTheNextAccess : Obligations.StepPerformsTheNextAccess :=
  ⟨fun _ _ _ _ _ hb ht => stepAt_of_host (nextTurn_cons ht) hb,
    fun _ _ _ _ hb ht hen => stepAt_of_host (nextTurn_nil_host ht hen) hb,
    fun _ _ _ _ h => step_withFetchWord h, fun _ => rfl, Nat.le_add_left 1 _⟩

/-- The ENGINE's steps are those of COUNT and of EMIT (10_state.md R17). -/
theorem engineEnabled_iff (depth : Nat) (d : Ddc) :
    engineEnabled depth d = true ↔
      (d.phase = .count ∧ d.bidx.toNat ≤ 8 * d.len) ∨ (d.phase = .emit ∧ d.outq.length < depth) := by
  cases hp : d.phase <;> simp [engineEnabled, hp]

/-- Settles O5: by the turn, and by whether the ENGINE is enabled. -/
theorem engineTurnsAndIdleTurns : Obligations.EngineTurnsAndIdleTurns := fun depth s =>
  ⟨engineEnabled_iff depth s.ddc,
    fun _ _ ht hen hact => stepAt_engine_ok ht hen hact,
    fun _ ht hen hact => (stepAt_of_engine (nextTurn_nil_engine ht hen)).trans (engineTurn_enabled hen hact),
    fun _ ht hen => (stepAt_engine ht).trans (engineTurn_disabled hen),
    fun _ ht hb => stepAt_of_host_idle (nextTurn_cons ht) hb⟩

end Sys2Proof.Machine
end

section
/-! R38, R39, R138: what the reads show, and RESET. -/

namespace Sys2Proof.Machine

/-- The register a read reads, and the value it returns to a HOST with this view (44_host_bus.md R108 to R115). -/
def HostView.readBack (v : HostView) : Instr → ReadBack
  | .rdDim => ⟨.dim, v.dim⟩
  | .rdStatus => ⟨.status, v.status⟩
  | .rdInData => ⟨.inData, 0#32⟩
  | .rdOutData => ⟨.outData, outWord v.outq.head?⟩
  | .rdRunCount => ⟨.runCount, v.runCount⟩
  | .rdOutLen => ⟨.outLen, v.outLen⟩
  | .rdRsv => ⟨.rsv, 0#32⟩
  | _ => ⟨.cmd, 0#32⟩

/-- What a read leaves of the DDC: an OUT_DATA read takes the head of OUTQ, the others change nothing. -/
def Ddc.afterRead (d : Ddc) (i : Instr) : Ddc := if i = .rdOutData then { d with outq := d.outq.tail } else d

/-- Every read, by what the HOST can see (10_state.md R38). -/
theorem exec_read {i : Instr} (hi : i.isRead = true) (s : State) :
    exec i s = .next { s with ddc := s.ddc.afterRead i, reads := s.reads ++ [s.ddc.hostView.readBack i] } := by
  cases i
  case rdCmd | rdDim | rdStatus | rdInData | rdOutData | rdRunCount | rdOutLen | rdRsv => rfl
  all_goals cases hi

/-- BUSY, IN_REQ, OUT_AVAIL, DONE and ERR make up the STATUS word. -/
theorem statusWord_congr {d e : Ddc} (hb : d.busy = e.busy) (hr : d.inReq = e.inReq) (ha : d.outAvail = e.outAvail)
    (hd : d.done = e.done) (he : d.err = e.err) : statusWord d = statusWord e := by
  simp only [statusWord, hb, hr, ha, hd, he]

/-- DDCs with the same view have the same five STATUS fields. -/
theorem status_fields_of_hostView_eq {d e : Ddc} (h : d.hostView = e.hostView) :
    d.busy = e.busy ∧ d.inReq = e.inReq ∧ d.done = e.done ∧ d.err = e.err := by
  have hs : statusWord d = statusWord e := congrArg HostView.status h
  obtain ⟨hb, hr, -, hd⟩ := statusWord_flags d
  obtain ⟨hb', hr', -, hd'⟩ := statusWord_flags e
  rw [hs] at hb hr hd
  exact ⟨hb.symm.trans hb', hr.symm.trans hr', hd.symm.trans hd',
    (statusWord_err d).symm.trans ((congrArg _ hs).trans (statusWord_err e))⟩

theorem hostView_congr {d e : Ddc} (hdim : d.dim = e.dim) (hs : statusWord d = statusWord e)
    (hc : d.runCount = e.runCount) (hl : d.outLen = e.outLen) (hq : d.outq = e.outq) : d.hostView = e.hostView := by
  simp only [Ddc.hostView, hdim, hs, hc, hl, hq]

/-- Reads leave DDCs with the same view with the same view. -/
theorem hostView_afterRead (i : Instr) {d e : Ddc} (h : d.hostView = e.hostView) :
    (d.afterRead i).hostView = (e.afterRead i).hostView := by
  unfold Ddc.afterRead
  split
  · obtain ⟨hb, hr, hd, he⟩ := status_fields_of_hostView_eq h
    have hq : d.outq.tail = e.outq.tail := congrArg (fun v => v.outq.tail) h
    have ha : ({ d with outq := d.outq.tail } : Ddc).outAvail = ({ e with outq := e.outq.tail } : Ddc).outAvail :=
      congrArg (fun q : List Byte => !q.isEmpty) hq
    exact hostView_congr (congrArg HostView.dim h) (statusWord_congr hb hr ha hd he) (congrArg HostView.runCount h)
      (congrArg HostView.outLen h) hq
  · exact h

/-- Settles O45: a read's value and its effect are functions of the view, and STATUS shows COUNT and EMIT alike. -/
theorem readsShowOnlyTheHostView : Obligations.ReadsShowOnlyTheHostView := by
  refine ⟨fun i s₁ s₂ hi hv hr => ⟨_, _, exec_read hi s₁, exec_read hi s₂, ?_, hostView_afterRead i hv⟩, fun d => rfl⟩
  simp only [hv, hr]

/-- The view of a reset DDC: every field is 0 and OUTQ is empty (10_state.md R39). -/
theorem hostView_reset (epoch : Nat) : (Ddc.reset epoch).hostView = ⟨0#32, 0#32, 0#32, 0#32, []⟩ :=
  hostView_congr rfl statusWord_reset rfl rfl rfl

theorem afterRead_reset (epoch : Nat) (i : Instr) : (Ddc.reset epoch).afterRead i = Ddc.reset epoch := by
  unfold Ddc.afterRead
  split <;> rfl

/-- After a RESET every read returns 0. -/
theorem readBack_reset (epoch : Nat) (i : Instr) : ∃ p, (Ddc.reset epoch).hostView.readBack i = ⟨p, 0#32⟩ := by
  rw [hostView_reset]
  cases i <;> exact ⟨_, rfl⟩

/-- Settles O44: the elements are those of `Ddc.reset`, and the reads are those of its view. -/
theorem resetGivesEveryElementItsValue : Obligations.ResetGivesEveryElementItsValue := by
  intro depth s ts ht
  refine ⟨resetEvent { s with turns := ts }, stepAt_of_reset (nextTurn_cons ht), rfl, rfl, rfl, rfl, rfl, rfl, rfl, rfl,
    rfl, rfl, rfl, rfl, rfl, rfl, rfl, rfl, rfl, rfl, rfl, rfl, rfl, fun i hi => ?_⟩
  obtain ⟨p, hp⟩ := readBack_reset (s.ddc.pbufEpoch + 1) i
  refine ⟨p, ?_⟩
  rw [exec_read hi, resetEvent_ddc, afterRead_reset, hp]

end Sys2Proof.Machine
end

section
/-! R119: unexpected input. -/

namespace Sys2Proof.Machine

/-- Outside LOAD an IN_DATA write only raises IN_UNEXPECTED (44_host_bus.md R119). -/
theorem inDataWrite_unexpected (w : Word) {d : Ddc} (hp : d.phase ≠ .load) :
    inDataWrite w d = .ok (raiseErr .inUnexpected d) := by
  rcases inDataWrite_cases w d with ⟨h, -⟩ | ⟨h, -⟩ | ⟨-, e⟩
  · exact absurd h hp
  · exact absurd h hp
  · exact e

/-- Settles O12: the byte only raises an error. -/
theorem unexpectedInputIsDiscarded : Obligations.UnexpectedInputIsDiscarded := by
  intro w s hp
  have h : exec (.wrInData w) s = s.after (.ok (raiseErr .inUnexpected s.ddc)) :=
    congrArg s.after (inDataWrite_unexpected w hp)
  rw [h, raiseErr_eq]
  rfl

end Sys2Proof.Machine
end

section
/-! R141: the acceptance of a command. -/

namespace Sys2Proof.Machine

/-- The CMD words an idle DDC accepts (43_commands.md R98): RLE's, and those of ENC and ENC_RLE with DIM in range. -/
def accepts (w : Word) (d : Ddc) : Prop :=
  w = 3#32 ∨ ((w = 1#32 ∨ w = 2#32) ∧ (widthField d.dim).toNat ≤ 255 ∧ (heightField d.dim).toNat ≤ 255)

@[simp] theorem acceptPixels_err (op : Opc) (d : Ddc) : (acceptPixels op d).err = d.err := by
  rw [acceptPixels_eq]
  split
  · exact loadComplete_err _
  · rfl

theorem acceptPixels_phase_ne_idle (op : Opc) (d : Ddc) : (acceptPixels op d).phase ≠ .idle := by
  rw [acceptPixels_phase]
  repeat' split
  all_goals decide

/-- An accepted command is in progress, and ERR is as it was (43_commands.md R99, R100). -/
theorem cmdWrite_of_accepts {w : Word} {d : Ddc} (hp : d.phase = .idle) (h : accepts w d) :
    (cmdWrite w d).phase ≠ .idle ∧ (cmdWrite w d).err = d.err := by
  rcases h with rfl | ⟨hw, hdim⟩
  · rw [cmdWrite_acceptFrame hp legalOp_rle]
    exact ⟨nofun, rfl⟩
  · obtain ⟨op, hl, hr⟩ : ∃ op, legalOp w = some op ∧ op ≠ .rle := by
      rcases hw with rfl | rfl
      · exact ⟨_, legalOp_enc, nofun⟩
      · exact ⟨_, legalOp_encRle, nofun⟩
    rw [cmdWrite_acceptPixels hp hl hr ((dimTooLarge_eq_false_iff _).mpr hdim)]
    exact ⟨acceptPixels_phase_ne_idle _ _, acceptPixels_err _ _⟩

/-- A legal word is 1, 2 or 3, and 3 is RLE's (30_encoding.md R56, R61). -/
theorem word_of_legalOp {w : Word} {op : Opc} (h : legalOp w = some op) :
    (op ≠ .rle ∧ (w = 1#32 ∨ w = 2#32)) ∨ (op = .rle ∧ w = 3#32) := by
  rw [legalOp_eq] at h
  split at h
  · cases h; exact .inl ⟨nofun, .inl ‹_›⟩
  · split at h
    · cases h; exact .inl ⟨nofun, .inr ‹_›⟩
    · split at h
      · cases h; exact .inr ⟨rfl, ‹_›⟩
      · cases h

/-- Every other CMD write only raises an error (43_commands.md R104 to R106). -/
theorem cmdWrite_of_not_accepts {w : Word} {d : Ddc} (h : ¬ accepts w d) :
    ∃ c, cmdWrite w d = raiseErr c d := by
  rcases cmdWrite_cases w d with ⟨-, e⟩ | ⟨-, -, e⟩ | ⟨_, -, -, -, -, e⟩ | ⟨op, -, hl, hr, hd, -⟩ | ⟨-, hl, -⟩
  · exact ⟨_, e⟩
  · exact ⟨_, e⟩
  · exact ⟨_, e⟩
  · rcases word_of_legalOp hl with ⟨-, hw⟩ | ⟨hr', -⟩
    · exact absurd (.inr ⟨hw, (dimTooLarge_eq_false_iff _).mp hd⟩) h
    · exact absurd hr' hr
  · rcases word_of_legalOp hl with ⟨hr, -⟩ | ⟨-, hw⟩
    · exact absurd rfl hr
    · exact absurd (.inl hw) h

/-- Settles O17: the CMD write either accepts the word or only raises an error. -/
theorem acceptanceShowsInStatus : Obligations.AcceptanceShowsInStatus := by
  intro w s hp hdone herr
  obtain ⟨hbusy, -, -, hd⟩ := statusWord_flags (cmdWrite w s.ddc)
  rw [Ddc.busy_eq_decide] at hbusy
  refine ⟨_, statusWord (cmdWrite w s.ddc), exec_wrCmd w s, exec_rdStatus _, fun h => ?accepted, fun h => ?refused⟩
  case accepted =>
    obtain ⟨hp', herr'⟩ := cmdWrite_of_accepts (w := w) hp h
    exact ⟨hbusy.trans (decide_eq_true hp'), (statusWord_err _).trans (herr'.trans herr)⟩
  case refused =>
    obtain ⟨c, hc⟩ := cmdWrite_of_not_accepts (w := w) (d := s.ddc) h
    rw [hbusy, hd, statusWord_err, hc, raiseErr_phase, raiseErr_done, raiseErr_err, if_pos herr]
    refine ⟨decide_eq_false (not_not_intro hp), hdone, fun h0 => ?_⟩
    have hc1 := c.code_bounds.1
    rw [h0] at hc1
    exact absurd hc1 (by decide)

/-- The payload of a frame without a byte is empty. -/
theorem Ddc.payload_eq_nil {d : Ddc} (h : d.len = 0) : d.payload = [] := by
  rw [← List.length_eq_zero_iff, d.payload_length, h]

/-- A command's OSEQ is a Frame for ENC (41_output_stream.md R79). -/
theorem oseq_enc {d : Ddc} (h : d.opc = .enc) : oseq d = d.curW :: d.curH :: d.payload := if_pos h

/-- A command's OSEQ is a RunStream for ENC_RLE and RLE (41_output_stream.md R79). -/
theorem oseq_not_enc {d : Ddc} (h : d.opc ≠ .enc) :
    oseq d = [d.curW, d.curH] ++ be32 d.runCount ++ runbytes (bits d.payload) := if_neg h

theorem oseq_enc_empty {d : Ddc} (h : d.opc = .enc) (hl : d.len = 0) : oseq d = [d.curW, d.curH] := by
  rw [oseq_enc h, Ddc.payload_eq_nil hl]

theorem oseq_not_enc_empty {d : Ddc} (h : d.opc ≠ .enc) (hl : d.len = 0) (hc : d.runCount = 0#32) :
    oseq d = [d.curW, d.curH, 0#8, 0#8, 0#8, 0#8] := by
  rw [oseq_not_enc h, Ddc.payload_eq_nil hl, hc]
  rfl

theorem loadComplete_enc {d : Ddc} (h : d.opc = .enc) :
    loadComplete d = { d with outLen := BitVec.ofNat 32 (2 + d.len), eidx := 0#17, phase := .emit } := if_pos h

theorem loadComplete_not_enc {d : Ddc} (h : d.opc ≠ .enc) :
    loadComplete d = { d with rs := RunState.empty, bidx := 0#17, phase := .count } := if_neg h

/-- The latched dimensions are the low bytes of DIM's fields (43_commands.md R99). -/
theorem latchGrid_dimensions (op : Opc) (d : Ddc) :
    (latchGrid op d).curW = d.dim.extractLsb' 0 8 ∧ (latchGrid op d).curH = d.dim.extractLsb' 16 8 := by
  have hlow : ∀ i, (d.dim.extractLsb' i 16).setWidth 8 = d.dim.extractLsb' i 8 := fun _ =>
    BitVec.setWidth_extractLsb'_of_le (by decide)
  exact ⟨hlow 0, hlow 16⟩

/-- ENC of an empty grid goes to EMIT at once (43_commands.md R101). -/
theorem acceptPixels_enc_empty {d : Ddc} (h : (latchGrid .enc d).len = 0) :
    acceptPixels .enc d = { latchGrid .enc d with outLen := 2#32, eidx := 0#17, phase := .emit } := by
  rw [acceptPixels_eq, if_pos h, loadComplete_enc rfl, h]

/-- ENC_RLE of an empty grid goes to COUNT at once (43_commands.md R102). -/
theorem acceptPixels_encRle_empty {d : Ddc} (h : (latchGrid .encRle d).len = 0) :
    acceptPixels .encRle d = { latchGrid .encRle d with rs := RunState.empty, bidx := 0#17, phase := .count } := by
  rw [acceptPixels_eq, if_pos h, loadComplete_not_enc (show Opc.encRle ≠ .enc by decide)]

/-- With no bit to scan, COUNT is one RLE_END step (42_run_length.md R93). -/
theorem engineRun_count_empty {depth : Nat} {d : Ddc} (hp : d.phase = .count) (hl : d.len = 0) (hb : d.bidx = 0#17) :
    engineRun depth 1 d = .ok (countEnd d) := by
  have hend : d.bidx.toNat = 8 * d.len := by rw [hb, hl]; rfl
  exact engineRun_succ (n := 0) (engineEnabled_count hp hend.le) (engineAct_countEnd hp hend)

/-- Settles O48: the load of an empty grid is complete at once, and its one COUNT step scans no bit. -/
theorem emptyGridsGiveTheirHeader : Obligations.EmptyGridsGiveTheirHeader := by
  intro depth s hp hw hh h0
  have hd := (dimTooLarge_eq_false_iff s.ddc.dim).mpr ⟨hw, hh⟩
  have hempty : ∀ op, (latchGrid op s.ddc).len = 0 := fun op => (Ddc.len_eq_zero_iff _).mpr
    (h0.imp (congrArg (BitVec.setWidth 8)) (congrArg (BitVec.setWidth 8)))
  refine ⟨?enc, ?encRle⟩
  case enc =>
    have hexec := exec_acceptPixels (i := .enc) (.inl ⟨.inl rfl, rfl⟩) hp hd
    rw [acceptPixels_enc_empty (hempty .enc)] at hexec
    obtain ⟨hcw, hch⟩ := latchGrid_dimensions .enc s.ddc
    rw [← hcw, ← hch]
    exact ⟨_, hexec, rfl, oseq_enc_empty rfl (hempty .enc), rfl⟩
  case encRle =>
    have hexec := exec_acceptPixels (i := .encRle) (.inr ⟨.inl rfl, rfl⟩) hp hd
    rw [acceptPixels_encRle_empty (hempty .encRle)] at hexec
    obtain ⟨hcw, hch⟩ := latchGrid_dimensions .encRle s.ddc
    rw [← hcw, ← hch]
    exact ⟨_, _, hexec, rfl, engineRun_count_empty rfl (hempty .encRle) rfl, rfl,
      oseq_not_enc_empty (show Opc.encRle ≠ .enc by decide) (hempty .encRle) rfl, rfl, rfl⟩

end Sys2Proof.Machine
end

section
/-! R21, R25, R26, R37: who writes DIM, RUN_COUNT, OUT_LEN, ERR and DONE. -/

namespace Sys2Proof.Machine

/-- What a step of loading leaves of the port's registers: all but OUT_LEN, and OUT_LEN unless it enters EMIT. -/
def LoadKeeps (d e : Ddc) : Prop :=
  e.dim = d.dim ∧ e.done = d.done ∧ e.err = d.err ∧ e.runCount = d.runCount ∧ (e.outLen = d.outLen ∨ e.phase = .emit)

theorem loadComplete_keeps (d : Ddc) : LoadKeeps d (loadComplete d) := by
  rcases loadComplete_cases d with ⟨-, e⟩ | ⟨-, e⟩ <;> rw [e]
  · exact ⟨rfl, rfl, rfl, rfl, .inr rfl⟩
  · exact ⟨rfl, rfl, rfl, rfl, .inl rfl⟩

theorem endRow_keeps (d : Ddc) : LoadKeeps d (endRow d) := by
  rcases endRow_cases d with ⟨-, e⟩ | ⟨-, -, e⟩ | ⟨-, -, e⟩ <;> rw [e]
  · exact ⟨rfl, rfl, rfl, rfl, .inl rfl⟩
  · exact ⟨rfl, rfl, rfl, rfl, .inl rfl⟩
  · exact loadComplete_keeps { d with col := 0#8, row := d.row + 1#8 }

theorem packPixel_keeps {w : Word} {d e : Ddc} (h : packPixel w d = .ok e) : LoadKeeps d e := by
  obtain ⟨g, hg, rfl⟩ := packPixel_eq_ok h
  rw [storeGroup_frame hg]
  exact endRow_keeps { placePixel (pixelBit w) d with pbuf := g.pbuf, acc := g.acc }

theorem loadHeight_keeps (v : Byte) (d : Ddc) : LoadKeeps d (loadHeight v d) := by
  simp only [loadHeight]
  split
  · exact loadComplete_keeps { d with curH := v, hdrCnt := 2#2, pidx := 0#13 }
  · exact ⟨rfl, rfl, rfl, rfl, .inl rfl⟩

theorem advancePidx_keeps (d : Ddc) : LoadKeeps d (advancePidx d) := by
  simp only [advancePidx]
  split
  · exact loadComplete_keeps { d with pidx := d.pidx + 1#13 }
  · exact ⟨rfl, rfl, rfl, rfl, .inl rfl⟩

theorem loadFrameByte_keeps {w : Word} {d e : Ddc} (h : loadFrameByte w d = .ok e) : LoadKeeps d e := by
  rcases loadFrameByte_cases w d with ⟨-, he⟩ | ⟨-, he⟩ | ⟨-, -, -, he⟩ | ⟨-, -, -, he⟩ <;> rw [he] at h <;> cases h
  · exact ⟨rfl, rfl, rfl, rfl, .inl rfl⟩
  · exact loadHeight_keeps _ d
  · exact advancePidx_keeps { d with pbuf := d.pbuf.set d.pidx.toNat (inByte w) }

/-- An IN_DATA write in LOAD is a step of loading, or it raises IN_UNEXPECTED (44_host_bus.md R119). -/
theorem inDataWrite_keeps {w : Word} {d e : Ddc} (h : inDataWrite w d = .ok e) :
    (d.phase = .load ∧ LoadKeeps d e) ∨ e = raiseErr .inUnexpected d := by
  rcases inDataWrite_cases w d with ⟨hp, -, he⟩ | ⟨hp, -, he⟩ | ⟨-, he⟩ <;> rw [he] at h
  · exact .inl ⟨hp, packPixel_keeps h⟩
  · exact .inl ⟨hp, loadFrameByte_keeps h⟩
  · cases h; exact .inr rfl

/-- What the acceptance of a command does to the port's registers (43_commands.md R99, R100). -/
structure AcceptKeeps (d e : Ddc) : Prop where
  wasIdle : d.phase = .idle
  busy : e.phase ≠ .idle
  done : e.done = false
  keeps : LoadKeeps { d with done := false } e

theorem acceptPixels_keeps (op : Opc) {d : Ddc} (hp : d.phase = .idle) : AcceptKeeps d (acceptPixels op d) := by
  have hk : LoadKeeps (latchGrid op d) (acceptPixels op d) := by
    rw [acceptPixels_eq]
    split
    · exact loadComplete_keeps _
    · exact ⟨rfl, rfl, rfl, rfl, .inl rfl⟩
  obtain ⟨hdim, hdone, hrest⟩ := hk
  exact ⟨hp, acceptPixels_phase_ne_idle op d, hdone, hdim, hdone, hrest⟩

/-- A CMD write accepts a command or only raises an error (43_commands.md R98). -/
theorem cmdWrite_keeps (w : Word) (d : Ddc) :
    AcceptKeeps d (cmdWrite w d) ∨ ∃ c, cmdWrite w d = raiseErr c d := by
  rcases cmdWrite_cases w d with ⟨-, e⟩ | ⟨-, -, e⟩ | ⟨_, -, -, -, -, e⟩ | ⟨op, hp, -, -, -, e⟩ | ⟨hp, -, e⟩
  · exact .inr ⟨_, e⟩
  · exact .inr ⟨_, e⟩
  · exact .inr ⟨_, e⟩
  · rw [e]; exact .inl (acceptPixels_keeps op hp)
  · rw [e]; exact .inl ⟨hp, nofun, rfl, rfl, rfl, rfl, rfl, .inl rfl⟩

/-- An EMIT_BYTE step that goes on has pushed OSEQ[EIDX] (41_output_stream.md R80). -/
theorem emitByte_eq_ok {d e : Ddc} (h : emitByte d = .ok e) :
    ∃ b, (oseq d)[d.eidx.toNat]? = some b ∧ e = endEmit (pushOut b d) := by
  rcases emitByte_cases d with ⟨b, hb, he⟩ | ⟨-, he⟩ <;> rw [he] at h <;> cases h
  exact ⟨b, hb, rfl⟩

/-- No step of the ENGINE writes DIM or ERR (10_state.md R21, R37). -/
theorem engineAct_keeps {depth : Nat} {d e : Ddc} (hen : engineEnabled depth d = true) (h : engineAct d = .ok e) :
    e.dim = d.dim ∧ e.err = d.err := by
  rcases engineAct_cases hen with ⟨-, -, he⟩ | ⟨-, -, he⟩ | ⟨-, -, he⟩ <;> rw [he] at h
  · cases h; exact ⟨rfl, rfl⟩
  · cases h; exact ⟨rfl, rfl⟩
  · obtain ⟨b, -, rfl⟩ := emitByte_eq_ok h
    simp

/-- RUN_COUNT is written by RLE_END, which enters EMIT, and OUT_LEN on that entry (42_run_length.md R92). -/
theorem engineAct_counts {depth : Nat} {d e : Ddc} (hen : engineEnabled depth d = true) (h : engineAct d = .ok e) :
    (e.runCount = d.runCount ∧ e.outLen = d.outLen)
      ∨ (d.phase = .count ∧ d.bidx.toNat = 8 * d.len ∧ e.phase = .emit) := by
  rcases engineAct_cases hen with ⟨-, -, he⟩ | ⟨hp, hb, he⟩ | ⟨-, -, he⟩ <;> rw [he] at h
  · cases h; exact .inl ⟨rfl, rfl⟩
  · cases h; exact .inr ⟨hp, hb, rfl⟩
  · obtain ⟨b, -, rfl⟩ := emitByte_eq_ok h
    simp

/-- DONE is set by the EMIT_BYTE step that ends the command (41_output_stream.md R80). -/
theorem engineAct_done {depth : Nat} {d e : Ddc} (hen : engineEnabled depth d = true) (h : engineAct d = .ok e) :
    e.done = d.done ∨ (d.phase = .emit ∧ e.done = true ∧ e.phase = .idle) := by
  rcases engineAct_cases hen with ⟨-, -, he⟩ | ⟨-, -, he⟩ | ⟨hp, -, he⟩ <;> rw [he] at h
  · cases h; exact .inl rfl
  · cases h; exact .inl rfl
  · obtain ⟨b, -, rfl⟩ := emitByte_eq_ok h
    by_cases hlast : (pushOut b d).eidx.toNat = (pushOut b d).outLen.toNat
    · rw [endEmit_last hlast]; exact .inr ⟨hp, rfl, rfl⟩
    · rw [endEmit_more hlast]; exact .inl rfl

/-- Settles O38, by what the step does. -/
theorem dimRunCountAndOutLenHaveTheirWriters : Obligations.DimRunCountAndOutLenHaveTheirWriters := by
  intro depth s t h hr
  rcases stepAt_ddc_cases h hr with e | ⟨i, s', hi, hs, he⟩ | ⟨ht, hen, hact⟩
  · rw [e]; exact ⟨.inl rfl, .inl rfl, .inl rfl⟩
  · rw [← hs]
    rcases exec_ddc_cases he with e | ⟨-, e⟩ | ⟨w, rfl, e⟩ | ⟨w, -, e⟩ | ⟨w, -, e⟩ | ⟨w, -, e⟩
    · rw [e]; exact ⟨.inl rfl, .inl rfl, .inl rfl⟩
    · rw [e]; exact ⟨.inl rfl, .inl rfl, .inl rfl⟩
    · rw [e]; exact ⟨.inr hi, .inl rfl, .inl rfl⟩
    · rw [e]; exact ⟨.inl rfl, .inl rfl, .inl rfl⟩
    · rcases inDataWrite_keeps e with ⟨hp, hdim, -, -, hcount, hlen⟩ | e
      · exact ⟨.inl hdim, .inl hcount, hlen.imp_right fun hp' => ⟨by rw [hp]; nofun, hp'⟩⟩
      · rw [e]; simp
    · rw [e]
      rcases cmdWrite_keeps w s'.ddc with ⟨hp, -, -, hdim, -, -, hcount, hlen⟩ | ⟨c, hc⟩
      · exact ⟨.inl hdim, .inl hcount, hlen.imp_right fun hp' => ⟨by rw [hp]; nofun, hp'⟩⟩
      · rw [hc]; simp
  · obtain ⟨hdim, -⟩ := engineAct_keeps hen hact
    rcases engineAct_counts hen hact with ⟨hc, hl⟩ | ⟨hp, hb, hp'⟩
    · exact ⟨.inl hdim, .inl hc, .inl hl⟩
    · exact ⟨.inl hdim, .inr ⟨ht, hp, hb, hp'⟩, .inr ⟨by rw [hp]; nofun, hp'⟩⟩

/-- The codes that are raised (60_exceptions.md R124). -/
theorem ErrCode.code_mem (c : ErrCode) : c.code ∈ [1#4, 2#4, 3#4, 4#4] := by
  cases c <;> decide

/-- Settles O39: an error is raised by a CMD or IN_DATA write, and cleared by a STATUS write. -/
theorem errHasItsWriters : Obligations.ErrHasItsWriters := by
  intro depth s t h hr
  rcases stepAt_ddc_cases h hr with e | ⟨i, s', hi, hs, he⟩ | ⟨-, hen, hact⟩
  · exact .inl (by rw [e])
  · rw [← hs]
    rcases exec_ddc_cases he with e | ⟨-, e⟩ | ⟨w, -, e⟩ | ⟨w, rfl, e⟩ | ⟨w, rfl, e⟩ | ⟨w, hw, e⟩
    · exact .inl (by rw [e])
    · exact .inl (by rw [e])
    · exact .inl (by rw [e])
    · rw [e, clearStatus_err]
      by_cases hc : errClr w = true
      · exact .inr (.inr ⟨if_pos hc, w, hc, hi⟩)
      · exact .inl (if_neg hc)
    · rcases inDataWrite_keeps e with ⟨-, -, -, herr, -⟩ | e
      · exact .inl herr
      · rw [e]
        rcases raiseErr_cases .inUnexpected s'.ddc with ⟨h0, e'⟩ | ⟨-, e'⟩ <;> rw [e']
        · exact .inr (.inl ⟨h0, ErrCode.code_mem .inUnexpected, .inr (.inr (.inr (.inr ⟨rfl, w, hi⟩)))⟩)
        · exact .inl rfl
    · rw [e]
      rcases cmdWrite_keeps w s'.ddc with ⟨-, -, -, -, -, herr, -⟩ | ⟨c, hc⟩
      · exact .inl herr
      · rw [hc]
        rcases raiseErr_cases c s'.ddc with ⟨h0, e'⟩ | ⟨-, e'⟩ <;> rw [e']
        · refine .inr (.inl ⟨h0, c.code_mem, ?_⟩)
          rw [hi]
          rcases hw with rfl | rfl
          · exact .inl ⟨w, rfl⟩
          · rcases commandOf_cases w with ⟨-, hw⟩ | ⟨-, hw⟩ | ⟨-, hw⟩ | ⟨-, hw⟩ <;> rw [hw]
            · exact .inr (.inl rfl)
            · exact .inr (.inr (.inl rfl))
            · exact .inr (.inr (.inr (.inl rfl)))
            · exact .inl ⟨w, rfl⟩
        · exact .inl rfl
  · exact .inl (engineAct_keeps hen hact).2

/-- Settles O40: DONE is set by the ENGINE, and cleared by an acceptance and by a STATUS write. -/
theorem doneHasItsWriters : Obligations.DoneHasItsWriters := by
  intro depth s t h hr
  rcases stepAt_ddc_cases h hr with e | ⟨i, s', hi, hs, he⟩ | ⟨ht, hen, hact⟩
  · exact .inl (by rw [e])
  · rw [← hs]
    rcases exec_ddc_cases he with e | ⟨-, e⟩ | ⟨w, -, e⟩ | ⟨w, rfl, e⟩ | ⟨w, -, e⟩ | ⟨w, -, e⟩
    · exact .inl (by rw [e])
    · exact .inl (by rw [e])
    · exact .inl (by rw [e])
    · rw [e, clearStatus_done]
      by_cases hc : doneClr w = true
      · exact .inr (.inr (.inr ⟨if_pos hc, w, hc, hi⟩))
      · exact .inl (if_neg hc)
    · rcases inDataWrite_keeps e with ⟨-, -, hdone, -⟩ | e
      · exact .inl hdone
      · exact .inl (by rw [e, raiseErr_done])
    · rw [e]
      rcases cmdWrite_keeps w s'.ddc with hk | ⟨c, hc⟩
      · exact .inr (.inr (.inl ⟨hk.done, hk.wasIdle, hk.busy⟩))
      · exact .inl (by rw [hc, raiseErr_done])
  · rcases engineAct_done hen hact with e | ⟨hp, hdone, hp'⟩
    · exact .inl e
    · exact .inr (.inl ⟨hdone, by simp [State.emitsNext, ht, hp, hen], hp'⟩)

end Sys2Proof.Machine
end

section
/-! What a step moves, with the HOST's side: one access taken off the list, or a step of the ENGINE. -/

namespace Sys2Proof.Machine

/-- What a step that is no RESET can be. -/
inductive Move (depth : Nat) (s t : State) : Prop
  | idle (hd : t.ddc = s.ddc) (hb : t.bus = s.bus) (hr : t.reads = s.reads)
  | access (a : BusAccess) (hb : s.bus = a :: t.bus)
      (h : exec (decode a) { s with bus := t.bus, turns := t.turns } = .next t)
  | engine (hen : engineEnabled depth s.ddc = true) (hact : engineAct s.ddc = .ok t.ddc) (hb : t.bus = s.bus)
      (hr : t.reads = s.reads)

theorem stepAt_move {depth : Nat} {s t : State} (h : stepAt depth s = .next t)
    (hr : (nextTurn depth s).1 ≠ .reset) : Move depth s t := by
  obtain ⟨hddc, hbus, hreads⟩ := nextTurn_keeps depth s
  have hturns := stepAt_turns h
  rcases stepAt_cases depth s with ⟨a, rest, -, hb, e⟩ | ⟨-, -, e⟩ | ⟨-, e⟩ | ⟨ht, -⟩
  · rw [e] at h
    obtain ⟨hb', -, -⟩ := exec_host_side h
    have hside : { (nextTurn depth s).2 with bus := rest } = { s with bus := t.bus, turns := t.turns } := by
      simp only [hb', hturns, hddc, hreads]
    exact .access a (by rw [hb, hb']) (hside ▸ h)
  · rw [e] at h; cases h; exact .idle hddc hbus hreads
  · rw [e] at h
    have hside := engineTurn_host_side h
    rcases engineTurn_cases depth (nextTurn depth s).2 with ⟨-, e'⟩ | ⟨hen, e'⟩
    · rw [e'] at h; cases h; exact .idle hddc hbus hreads
    · rw [e'] at h
      have hact := State.ddc_of_after_eq_next h
      rw [hddc] at hen hact
      exact .engine hen hact (by rw [hside]; exact hbus) (by rw [hside]; exact hreads)
  · exact absurd ht hr

end Sys2Proof.Machine
end

section
/-! R143: a command with too little input. -/

namespace Sys2Proof.Machine

/-- The command in progress stands where it stood: only DIM, DONE, ERR and OUTQ may differ. -/
def Ddc.SameCommand (d e : Ddc) : Prop :=
  e = { d with dim := e.dim, done := e.done, err := e.err, outq := e.outq }

theorem Ddc.SameCommand.refl (d : Ddc) : d.SameCommand d := rfl

theorem Ddc.SameCommand.trans {d e f : Ddc} (hde : d.SameCommand e) (hef : e.SameCommand f) : d.SameCommand f := by
  rw [Ddc.SameCommand] at hde hef ⊢
  rw [hef, hde]

theorem Ddc.SameCommand.phase {d e : Ddc} (h : d.SameCommand e) : e.phase = d.phase := by
  rw [Ddc.SameCommand] at h
  rw [h]

theorem raiseErr_sameCommand (c : ErrCode) (d : Ddc) : d.SameCommand (raiseErr c d) := by
  rw [Ddc.SameCommand, raiseErr_eq]

/-- With a command in progress an access that loads nothing leaves the command where it stands. -/
theorem exec_sameCommand {i : Instr} {s t : State} (h : exec i s = .next t) (hp : s.ddc.phase ≠ .idle)
    (hin : s.ddc.phase = .load → ∀ w : Word, i ≠ .wrInData w) : s.ddc.SameCommand t.ddc := by
  rcases exec_ddc_cases h with e | ⟨-, e⟩ | ⟨w, -, e⟩ | ⟨w, -, e⟩ | ⟨w, hw, e⟩ | ⟨w, -, e⟩
  · rw [e]; rfl
  · rw [e]; rfl
  · rw [e]; rfl
  · rw [e]; rfl
  · have hl : s.ddc.phase ≠ .load := fun hl => hin hl w hw
    rw [inDataWrite_unexpected w hl] at e
    rw [← Except.ok.inj e]
    exact raiseErr_sameCommand _ _
  · rw [e, cmdWrite_busy w hp]
    exact raiseErr_sameCommand _ _

/-- The HOST's accesses hold no more input. -/
def State.NoInput (s : State) : Prop := ∀ a ∈ s.bus, ∀ w : Word, decode a ≠ .wrInData w

/-- In LOAD only an IN_DATA write moves the command on (70_reset_and_hazards.md R143). -/
theorem stepAt_load_noInput {depth : Nat} {s t : State} (h : stepAt depth s = .next t) (hr : Turn.reset ∉ s.turns)
    (hp : s.ddc.phase = .load) (hin : s.NoInput) : s.ddc.SameCommand t.ddc ∧ t.NoInput := by
  cases stepAt_move h (nextTurn_reset hr) with
  | idle hd hb hr => rw [State.NoInput, hd, hb]; exact ⟨rfl, hin⟩
  | access a hb he =>
    rw [State.NoInput, hb] at hin
    obtain ⟨ha, hrest⟩ := List.forall_mem_cons.mp hin
    exact ⟨exec_sameCommand (s := { s with bus := t.bus, turns := t.turns }) he (by rw [hp]; nofun) fun _ => ha, hrest⟩
  | engine hen hact hb hr =>
    rcases (engineEnabled_iff depth s.ddc).mp hen with ⟨hp', -⟩ | ⟨hp', -⟩ <;> rw [hp] at hp' <;> cases hp'

/-- Outside EMIT no step pushes a byte. -/
theorem pushesNext_of_not_emit {depth : Nat} {s : State} (hp : s.ddc.phase ≠ .emit) : s.pushesNext depth = [] := by
  simp [State.pushesNext, State.emitsNext, hp]

/-- Settles O47, by induction on the steps of the run. -/
theorem tooLittleInputLeavesTheCommandWaiting : Obligations.TooLittleInputLeavesTheCommandWaiting := by
  intro depth n s t hp hr hin h
  suffices hrun : s.ddc.SameCommand t.ddc ∧ pushedBy depth n s = [] from
    ⟨hrun.1.phase.trans hp, hrun.2, hrun.1⟩
  induction n generalizing s with
  | zero => cases h; exact ⟨rfl, rfl⟩
  | succ n ih =>
    cases e : stepAt depth s with
    | next s' =>
      obtain ⟨hsame, hin'⟩ := stepAt_load_noInput e hr hp hin
      rw [runAt_succ e] at h
      obtain ⟨hrest, hpush⟩ := ih s' (hsame.phase.trans hp) (stepAt_keeps_noReset e hr) hin' h
      rw [pushedBy_succ e, hpush, pushesNext_of_not_emit (by rw [hp]; nofun)]
      exact ⟨hsame.trans hrest, rfl⟩
    | fault f => rw [runAt, e] at h; cases h
    | refused r => rw [runAt, e] at h; cases h

end Sys2Proof.Machine
end

section
/-! R94: the run-bytes are a code for bit lists, and the greedy cut is the only list of runs with its properties. -/

namespace Sys2Proof.Machine

/-- A run followed by one of its own value is a full one (42_run_length.md R94). -/
def FullBefore (a b : Bool × Nat) : Prop := a.1 = b.1 → a.2 = 128

/-- Any bit list that is not empty begins with a run of the greedy cut. -/
theorem exists_greedy_run {s : List Bool} (hs : s ≠ []) :
    ∃ v n t, s = List.replicate n v ++ t ∧ 1 ≤ n ∧ n ≤ 128 ∧ (t.head? ≠ some v ∨ n = 128) := by
  induction s with
  | nil => exact absurd rfl hs
  | cons b s ih =>
    by_cases hne : s.head? = some b
    · obtain ⟨v, n, t, rfl, h1, h128, hcut⟩ := ih fun h => by rw [h] at hne; cases hne
      obtain ⟨k, rfl⟩ : ∃ k, n = k + 1 := ⟨n - 1, by omega⟩
      obtain rfl : v = b := by simpa [List.replicate_succ] using hne
      rcases Nat.lt_or_eq_of_le h128 with hlt | hfull
      · exact ⟨v, k + 2, t, rfl, by omega, by omega, .inl (hcut.resolve_right (by omega))⟩
      · refine ⟨v, k + 1, v :: t, ?_, h1, h128, .inr hfull⟩
        rw [List.append_cons, ← List.replicate_succ']
        rfl
    · exact ⟨b, 1, s, rfl, by decide, by decide, .inl hne⟩

/-- The first run of a list has the list's first bit for its value. -/
theorem runs_head? (s : List Bool) : (runs s).head?.map Prod.fst = s.head? := by
  by_cases hs : s = []
  · rw [hs]; rfl
  · obtain ⟨v, n, t, rfl, h1, h128, hcut⟩ := exists_greedy_run hs
    obtain ⟨k, rfl⟩ : ∃ k, n = k + 1 := ⟨n - 1, by omega⟩
    rw [runs_replicate_append h1 h128 hcut]
    rfl

/-- In the greedy cut every run but a full one is followed by the other value. -/
theorem runs_isChain (s : List Bool) : (runs s).IsChain FullBefore := by
  by_cases hs : s = []
  · rw [hs]; exact .nil
  · obtain ⟨v, n, t, rfl, h1, h128, hcut⟩ := exists_greedy_run hs
    have hshorter : t.length < (List.replicate n v ++ t).length := by simp; omega
    rw [runs_replicate_append h1 h128 hcut]
    refine (runs_isChain t).cons fun b hb hv => hcut.resolve_left (not_not_intro ?_)
    have hv : v = b.1 := hv
    rw [← runs_head? t, hb, hv]
    rfl
termination_by s.length

/-- The reader of a run's byte gives the run's bits (42_run_length.md R94). -/
theorem expandRunByte_runByte {r : Bool × Nat} (h1 : 1 ≤ r.2) (h128 : r.2 ≤ 128) :
    expandRunByte (runByte r.1 (BitVec.ofNat 8 r.2)) = runBits r := by
  rw [expandRunByte, runByte_lengthField r.1 h1 h128, runByte_valueBit r.1 h1 h128, Nat.sub_add_cancel h1]
  rfl

/-- The reader of a bit list's run-bytes gives the list back (42_run_length.md R94). -/
theorem expandRuns_runbytes (s : List Bool) : expandRuns (runbytes s) = s := by
  calc expandRuns (runbytes s) = (runs s).flatMap fun r => expandRunByte (runByte r.1 (BitVec.ofNat 8 r.2)) := by
        rw [expandRuns, runbytes, List.flatMap_map]
    _ = (runs s).flatMap runBits := List.flatMap_congr fun r hr =>
        expandRunByte_runByte (mem_runs_length hr).1 (mem_runs_length hr).2
    _ = s := runs_flatMap_runBits s

/-- Neighbours of a list by index are neighbours of the chain. -/
theorem isChain_fullBefore_iff (rs : List (Bool × Nat)) : rs.IsChain FullBefore ↔
    ∀ (i : Nat) (a b : Bool × Nat), rs[i]? = some a → rs[i + 1]? = some b → a.1 = b.1 → a.2 = 128 := by
  rw [List.isChain_iff_getElem]
  constructor
  · intro h i a b ha hb
    obtain ⟨hi, rfl⟩ := List.getElem?_eq_some_iff.mp hb
    obtain ⟨_, rfl⟩ := List.getElem?_eq_some_iff.mp ha
    exact h i hi
  · exact fun h i hi => h i _ _ (List.getElem?_eq_getElem _) (List.getElem?_eq_getElem hi)

/-- Settles O29, from the bits, the lengths and the neighbours of the greedy cut. -/
theorem runBytesStandForTheirBits : Obligations.RunBytesStandForTheirBits := fun s =>
  ⟨expandRuns_runbytes s, fun _ hr => mem_runs_length hr, (isChain_fullBefore_iff _).mp (runs_isChain s)⟩

/-- A list of runs with the greedy properties is the cut of its own bits. -/
theorem runs_flatMap_of_isChain {rs : List (Bool × Nat)} (hlen : ∀ r ∈ rs, 1 ≤ r.2 ∧ r.2 ≤ 128)
    (hc : rs.IsChain FullBefore) : runs (rs.flatMap runBits) = rs := by
  induction rs with
  | nil => rfl
  | cons r rs ih =>
    obtain ⟨⟨h1, h128⟩, hrest⟩ := List.forall_mem_cons.mp hlen
    have hcut : (rs.flatMap runBits).head? ≠ some r.1 ∨ r.2 = 128 := by
      cases rs with
      | nil => exact .inl nofun
      | cons b rs =>
        obtain ⟨hb1, -⟩ := hrest b List.mem_cons_self
        obtain ⟨k, hk⟩ : ∃ k, b.2 = k + 1 := ⟨b.2 - 1, by omega⟩
        have hhead : ((b :: rs).flatMap runBits).head? = some b.1 := by
          simp [runBits, hk, List.replicate_succ]
        rw [hhead]
        by_cases hv : r.1 = b.1
        · exact .inr ((List.isChain_cons_cons.mp hc).1 hv)
        · exact .inl fun h => hv (Option.some.inj h).symm
    rw [List.flatMap_cons, runBits, runs_replicate_append h1 h128 hcut, ih hrest hc.tail]

/-- Settles O30, by induction on the runs. -/
theorem theGreedyCutIsUnique : Obligations.TheGreedyCutIsUnique := fun rs hlen hfull =>
  (runs_flatMap_of_isChain hlen ((isChain_fullBefore_iff rs).mpr hfull)).symm

end Sys2Proof.Machine
end

section
/-! The invariant phase by phase: its ranges, and what it says in each phase. -/

namespace Sys2Proof.Machine

/-- The part of the invariant that does not speak of PHASE: the form of PBUF and the ranges of the registers. -/
structure Ddc.InRange (depth : Nat) (d : Ddc) : Prop where
  pbufWf : d.pbuf.wf = true
  errLegal : d.err.toNat ≤ 4
  runCountBound : d.runCount.toNat ≤ 65280
  outLenBound : d.outLen = 0#32 ∨ (2 ≤ d.outLen.toNat ∧ d.outLen.toNat ≤ 65286)
  outqFits : d.outq.length ≤ depth
  hdrCntBound : d.hdrCnt.toNat ≤ 2
  pidxBound : d.pidx.toNat ≤ 8160
  rsShape : if d.rs.rsValid then 1 ≤ d.rs.rsLen.toNat ∧ d.rs.rsLen.toNat ≤ 128 else d.rs.rsLen = 0#8
  rcntBound : d.rs.rcnt.toNat ≤ 65280
  bidxBound : d.bidx.toNat ≤ 65280
  eidxBound : d.eidx.toNat ≤ 65286

theorem Ddc.Inv.inRange {depth : Nat} {d : Ddc} (hi : d.Inv depth) : d.InRange depth := { hi with }

/-- In IDLE the invariant is the ranges. -/
theorem Ddc.InRange.inv_idle {depth : Nat} {d : Ddc} (h : d.InRange depth) (hp : d.phase = .idle) : d.Inv depth :=
  { h with
    busyNotDone := fun h => absurd hp h
    busyOpc := fun h => absurd hp h
    countOpc := fun h => nomatch hp.symm.trans h
    loadPixels := fun h => nomatch hp.symm.trans h
    loadFrame := fun h => nomatch hp.symm.trans h
    written := fun h => h.elim (fun h => nomatch hp.symm.trans h) fun h => nomatch hp.symm.trans h
    counting := fun h => nomatch hp.symm.trans h
    emitting := fun h => nomatch hp.symm.trans h
    emittingRuns := fun h => nomatch hp.symm.trans h }

/-- In LOAD it is, besides them, what has been loaded of the pixels or of the frame. -/
theorem Ddc.InRange.inv_load {depth : Nat} {d : Ddc} (h : d.InRange depth) (hp : d.phase = .load)
    (hdone : d.done = false) (ho : d.opc ≠ .none)
    (hpix : d.opc ≠ .rle → d.row.toNat < d.curH.toNat ∧ d.col.toNat < d.curW.toNat
      ∧ d.writtenBelow (d.row.toNat * bpr d.curW.toNat + d.col.toNat / 8)
      ∧ ∀ j < 8 - d.col.toNat % 8, d.acc.getLsbD j = false)
    (hfrm : d.opc = .rle → d.hdrCnt = 2#2 → d.pidx.toNat < d.len ∧ d.writtenBelow d.pidx.toNat) : d.Inv depth :=
  { h with
    busyNotDone := fun _ => hdone
    busyOpc := fun _ => ho
    countOpc := fun h => nomatch hp.symm.trans h
    loadPixels := fun _ => hpix
    loadFrame := fun _ => hfrm
    written := fun h => h.elim (fun h => nomatch hp.symm.trans h) fun h => nomatch hp.symm.trans h
    counting := fun h => nomatch hp.symm.trans h
    emitting := fun h => nomatch hp.symm.trans h
    emittingRuns := fun h => nomatch hp.symm.trans h }

/-- In COUNT the payload is stored, and the machine is the scan of the bits before BIDX. -/
theorem Ddc.InRange.inv_count {depth : Nat} {d : Ddc} (h : d.InRange depth) (hp : d.phase = .count)
    (hdone : d.done = false) (ho : d.opc ≠ .none) (hne : d.opc ≠ .enc) (hw : d.writtenBelow d.len)
    (hb : d.bidx.toNat ≤ 8 * d.len) (hrs : d.rs = (rleScan ((bits d.payload).take d.bidx.toNat) RunState.empty).1) :
    d.Inv depth :=
  { h with
    busyNotDone := fun _ => hdone
    busyOpc := fun _ => ho
    countOpc := fun _ => hne
    loadPixels := fun h => nomatch hp.symm.trans h
    loadFrame := fun h => nomatch hp.symm.trans h
    written := fun _ => hw
    counting := fun _ => ⟨hb, hrs⟩
    emitting := fun h => nomatch hp.symm.trans h
    emittingRuns := fun h => nomatch hp.symm.trans h }

/-- In EMIT the payload is stored, and OUT_LEN and RUN_COUNT are those of OSEQ. -/
theorem Ddc.InRange.inv_emit {depth : Nat} {d : Ddc} (h : d.InRange depth) (hp : d.phase = .emit)
    (hdone : d.done = false) (ho : d.opc ≠ .none) (hw : d.writtenBelow d.len)
    (hlen : d.outLen.toNat = (oseq d).length) (he : d.eidx.toNat < d.outLen.toNat)
    (hruns : d.opc ≠ .enc → d.runCount.toNat = (runs (bits d.payload)).length) : d.Inv depth :=
  { h with
    busyNotDone := fun _ => hdone
    busyOpc := fun _ => ho
    countOpc := fun h => nomatch hp.symm.trans h
    loadPixels := fun h => nomatch hp.symm.trans h
    loadFrame := fun h => nomatch hp.symm.trans h
    written := fun _ => hw
    counting := fun h => nomatch hp.symm.trans h
    emitting := fun _ => ⟨hlen, he⟩
    emittingRuns := fun _ => hruns }

theorem Ddc.inv_reset (depth epoch : Nat) : (Ddc.reset epoch).Inv depth :=
  Ddc.InRange.inv_idle
    { pbufWf := rfl
      errLegal := Nat.zero_le _
      runCountBound := Nat.zero_le _
      outLenBound := .inl rfl
      outqFits := Nat.zero_le _
      hdrCntBound := Nat.zero_le _
      pidxBound := Nat.zero_le _
      rsShape := rfl
      rcntBound := Nat.zero_le _
      bidxBound := Nat.zero_le _
      eidxBound := Nat.zero_le _ } rfl

/-- Settles O42: the reset DDC is idle, and its registers are 0. -/
theorem theInvariantHoldsAtReset : Obligations.TheInvariantHoldsAtReset := fun depth => Ddc.inv_reset depth 0

end Sys2Proof.Machine
end

section
/-! The invariant along the HOST's accesses other than IN_DATA writes. -/

namespace Sys2Proof.Machine

/-- The invariant depends on DONE, ERR and OUTQ by their ranges alone, and not on DIM. -/
theorem Ddc.Inv.of_sameCommand {depth : Nat} {d e : Ddc} (hi : d.Inv depth) (h : d.SameCommand e)
    (herr : e.err.toNat ≤ 4) (hq : e.outq.length ≤ depth) (hdone : d.phase ≠ .idle → e.done = false) :
    e.Inv depth := by
  rw [Ddc.SameCommand] at h
  rw [h]
  exact { hi with errLegal := herr, outqFits := hq, busyNotDone := hdone }

theorem raiseErr_inv (c : ErrCode) {depth : Nat} {d : Ddc} (hi : d.Inv depth) : (raiseErr c d).Inv depth := by
  refine hi.of_sameCommand (raiseErr_sameCommand c d) ?_ (by rw [raiseErr_outq]; exact hi.outqFits) fun hp => ?_
  · rw [raiseErr_err]
    split
    · exact c.code_bounds.2
    · exact hi.errLegal
  · rw [raiseErr_done]; exact hi.busyNotDone hp

theorem clearStatus_inv (w : Word) {depth : Nat} {d : Ddc} (hi : d.Inv depth) : (clearStatus w d).Inv depth := by
  refine hi.of_sameCommand rfl ?_ hi.outqFits fun hp => ?_
  · rw [clearStatus_err]
    split
    · exact Nat.zero_le _
    · exact hi.errLegal
  · rw [clearStatus_done, hi.busyNotDone hp, ite_self]

/-- LOAD_COMPLETE keeps the ranges: an ENC's length is 2 + L, and the run-length registers are cleared (R75). -/
theorem loadComplete_inRange {depth : Nat} {d : Ddc} (h : d.InRange depth) : (loadComplete d).InRange depth := by
  have hl : d.len ≤ 8160 := d.len_le
  have hn := toNat_ofNat_encLength d
  rcases loadComplete_cases d with ⟨-, e⟩ | ⟨-, e⟩ <;> rw [e]
  · exact { h with outLenBound := .inr (by simp only [hn]; omega), eidxBound := Nat.zero_le _ }
  · exact { h with rsShape := rfl, rcntBound := Nat.zero_le _, bidxBound := Nat.zero_le _ }

/-- A Frame has two bytes before its payload (40_row_packer.md R70). -/
theorem oseq_enc_length {d : Ddc} (h : d.opc = .enc) : (oseq d).length = 2 + d.len := by
  rw [oseq_enc h, List.length_cons, List.length_cons, Ddc.payload_length]
  omega

/-- With the whole payload stored, LOAD_COMPLETE begins COUNT or EMIT in a state with the invariant. -/
theorem loadComplete_inv {depth : Nat} {d : Ddc} (h : d.InRange depth) (hdone : d.done = false) (ho : d.opc ≠ .none)
    (hw : d.writtenBelow d.len) : (loadComplete d).Inv depth := by
  have hr := loadComplete_inRange h
  have hn := toNat_ofNat_encLength d
  rcases loadComplete_cases d with ⟨hop, e⟩ | ⟨hop, e⟩ <;> rw [e] at hr ⊢
  · refine hr.inv_emit rfl hdone ho hw (hn.trans (oseq_enc_length hop).symm) ?_ fun h => absurd hop h
    show 0 < (BitVec.ofNat 32 (2 + d.len)).toNat
    omega
  · exact hr.inv_count rfl hdone ho hop hw (Nat.zero_le _) rfl

/-- The acceptance of ENC or ENC_RLE: no pixel is loaded yet, or none is to be (43_commands.md R99). -/
theorem acceptPixels_inv {op : Opc} (hop : op = .enc ∨ op = .encRle) {depth : Nat} {d : Ddc} (hi : d.Inv depth) :
    (acceptPixels op d).Inv depth := by
  have hr : (latchGrid op d).InRange depth := { hi.inRange with }
  have ho : op ≠ .none := by rcases hop with rfl | rfl <;> nofun
  rw [acceptPixels_eq]
  split
  · next hl => exact loadComplete_inv hr rfl ho (by rw [hl]; nofun)
  · next hl =>
    have hl : (latchGrid op d).curH.toNat * bpr (latchGrid op d).curW.toNat ≠ 0 := hl
    obtain ⟨hh, hw⟩ := Nat.mul_ne_zero_iff.mp hl
    have hload : ({ latchGrid op d with phase := .load } : Ddc).InRange depth := { hr with }
    refine hload.inv_load rfl rfl ho (fun _ => ?_) fun hrle => ?_
    · refine ⟨Nat.pos_of_ne_zero hh, Nat.pos_of_ne_zero (mt (bpr_eq_zero_iff _).mpr hw), ?_, ?_⟩
      · rintro i hi
        simp [latchGrid] at hi
      · rintro j -
        simp [latchGrid]
    · rcases hop with rfl | rfl <;> cases hrle

/-- The acceptance of RLE: no header byte is loaded yet (43_commands.md R100). -/
theorem acceptFrame_inv {depth : Nat} {d : Ddc} (hi : d.Inv depth) : (acceptFrame d).Inv depth := by
  have hr : (acceptFrame d).InRange depth :=
    { hi.inRange with hdrCntBound := Nat.zero_le _, pidxBound := Nat.zero_le _ }
  exact hr.inv_load rfl rfl nofun (fun h => absurd rfl h) fun _ h => nomatch h

theorem cmdWrite_inv (w : Word) {depth : Nat} {d : Ddc} (hi : d.Inv depth) : (cmdWrite w d).Inv depth := by
  rcases cmdWrite_cases w d with ⟨-, e⟩ | ⟨-, -, e⟩ | ⟨_, -, -, -, -, e⟩ | ⟨op, -, hl, hr, -, e⟩ | ⟨-, -, e⟩ <;> rw [e]
  · exact raiseErr_inv _ hi
  · exact raiseErr_inv _ hi
  · exact raiseErr_inv _ hi
  · exact acceptPixels_inv (legalOp_pixels hl hr) hi
  · exact acceptFrame_inv hi

end Sys2Proof.Machine
end

section
/-! The invariant along the steps of loading. -/

namespace Sys2Proof.Machine

/-- Storing the next byte extends the stored bytes by one. -/
theorem Memory.written_set {m : Memory} {n : Nat} (v : Byte) (h : ∀ i < n, (m.get? i).isSome = true) :
    ∀ i < n + 1, ((m.set n v).get? i).isSome = true := by
  intro i hi
  by_cases he : i = n
  · rw [he, Memory.get?_set_same]; rfl
  · rw [Memory.get?_set_other m v he]; exact h i (by omega)

/-- A pixel's bit stands above the columns to come (40_row_packer.md R74). -/
theorem placePixel_acc_below (p : Bool) {d : Ddc} (hg : (d.col.toNat + 1) % 8 ≠ 0)
    (ha : ∀ j < 8 - d.col.toNat % 8, d.acc.getLsbD j = false) :
    ∀ j < 8 - (d.col.toNat + 1) % 8, (placePixel p d).acc.getLsbD j = false := by
  intro j hj
  have hne : j ≠ 7 - d.col.toNat % 8 := by omega
  rw [placePixel_acc, BitVec.getLsbD_or, placeBit_getLsbD, ha j (by omega), decide_eq_false hne]
  simp

/-- The columns of a row are at most 255, so COL counts them without wrapping (10_state.md R30). -/
theorem toNat_col_succ {d : Ddc} (hc : d.col.toNat < d.curW.toNat) : (d.col + 1#8).toNat = d.col.toNat + 1 := by
  bv_omega

theorem toNat_row_succ {d : Ddc} (hr : d.row.toNat < d.curH.toNat) : (d.row + 1#8).toNat = d.row.toNat + 1 := by
  bv_omega

/-- Storing a pixel's group keeps the ranges (20_memory.md R41). -/
theorem storePixelGroup_inRange (p : Bool) {depth : Nat} {d : Ddc} (h : d.InRange depth)
    (hr : d.row.toNat < d.curH.toNat) (hc : d.col.toNat < d.curW.toNat) : (storePixelGroup p d).InRange depth :=
  { h with pbufWf := Memory.wf_set _ ((pixelAddr_lt_len hr hc).trans_le d.len_le) h.pbufWf }

/-- What is stored after a group's store, when the row goes on: the groups before the next one (40_row_packer.md R74). -/
theorem storePixelGroup_written (p : Bool) {d : Ddc}
    (hw : d.writtenBelow (d.row.toNat * bpr d.curW.toNat + d.col.toNat / 8)) :
    (storePixelGroup p d).writtenBelow (d.row.toNat * bpr d.curW.toNat + d.col.toNat / 8 + 1) :=
  Memory.written_set _ hw

/-- What is stored after a group's store at the end of a row: that row and those before it. -/
theorem storePixelGroup_written_row (p : Bool) {d : Ddc}
    (hw : d.writtenBelow (d.row.toNat * bpr d.curW.toNat + d.col.toNat / 8)) (hlast : d.col.toNat + 1 = d.curW.toNat) :
    (storePixelGroup p d).writtenBelow ((d.row.toNat + 1) * bpr d.curW.toNat) := by
  have hstored := storePixelGroup_written p hw
  rwa [Nat.add_assoc, ← bpr_eq_of_last hlast, ← Nat.add_one_mul] at hstored

/-- Within a row the next group begins with an empty ACC. -/
theorem storePixelGroup_inv (p : Bool) {depth : Nat} {d : Ddc} (hi : d.Inv depth) (hp : d.phase = .load)
    (ho : d.opc ≠ .rle) (h8 : (d.col.toNat + 1) % 8 = 0) (hlast : d.col.toNat + 1 ≠ d.curW.toNat) :
    (storePixelGroup p d).Inv depth := by
  have hbusy : d.phase ≠ .idle := by rw [hp]; nofun
  obtain ⟨hr, hc, hw, -⟩ := hi.loadPixels hp ho
  have hcol : (storePixelGroup p d).col.toNat = d.col.toNat + 1 := toNat_col_succ hc
  refine (storePixelGroup_inRange p hi.inRange hr hc).inv_load hp (hi.busyNotDone hbusy) (hi.busyOpc hbusy)
    (fun _ => ⟨hr, ?_, ?_, fun _ _ => BitVec.getLsbD_zero⟩) fun h => absurd h ho
  · rw [hcol]
    exact Nat.lt_of_le_of_ne hc hlast
  · rw [hcol, show (d.col.toNat + 1) / 8 = d.col.toNat / 8 + 1 by omega]
    exact storePixelGroup_written p hw

/-- At the end of a row that is not the last the next row begins with an empty ACC. -/
theorem storePixelGroup_nextRow_inv (p : Bool) {depth : Nat} {d : Ddc} (hi : d.Inv depth) (hp : d.phase = .load)
    (ho : d.opc ≠ .rle) (hlast : d.col.toNat + 1 = d.curW.toNat) (hend : d.row.toNat + 1 ≠ d.curH.toNat) :
    ({ storePixelGroup p d with col := 0#8, row := (storePixelGroup p d).row + 1#8 } : Ddc).Inv depth := by
  have hbusy : d.phase ≠ .idle := by rw [hp]; nofun
  obtain ⟨hr, hc, hw, -⟩ := hi.loadPixels hp ho
  have hrow : (d.row + 1#8).toNat = d.row.toNat + 1 := toNat_row_succ hr
  refine Ddc.InRange.inv_load { storePixelGroup_inRange p hi.inRange hr hc with } hp (hi.busyNotDone hbusy)
    (hi.busyOpc hbusy) (fun _ => ⟨?_, Nat.zero_lt_of_lt hc, ?_, fun _ _ => BitVec.getLsbD_zero⟩) fun h => absurd h ho
  · show (d.row + 1#8).toNat < d.curH.toNat
    omega
  · show (storePixelGroup p d).writtenBelow ((d.row + 1#8).toNat * bpr d.curW.toNat + (0#8).toNat / 8)
    rw [hrow]
    exact storePixelGroup_written_row p hw hlast

/-- After a group's store the row goes on, or the next one begins, or the load is complete (40_row_packer.md R74). -/
theorem endRow_storePixelGroup_inv (p : Bool) {depth : Nat} {d : Ddc} (hi : d.Inv depth) (hp : d.phase = .load)
    (ho : d.opc ≠ .rle) (hg : (d.col.toNat + 1) % 8 = 0 ∨ d.col.toNat + 1 = d.curW.toNat) :
    (endRow (storePixelGroup p d)).Inv depth := by
  have hbusy : d.phase ≠ .idle := by rw [hp]; nofun
  obtain ⟨hr, hc, hw, -⟩ := hi.loadPixels hp ho
  have hends := storePixelGroup_endsRow_iff p hc
  have hrow := storePixelGroup_lastRow_iff p hr
  by_cases hlast : d.col.toNat + 1 = d.curW.toNat
  · by_cases hend : d.row.toNat + 1 = d.curH.toNat
    · have hstored := storePixelGroup_written_row p hw hlast
      rw [hend] at hstored
      rw [endRow_lastRow (hends.mpr hlast) (hrow.mpr hend)]
      exact loadComplete_inv { storePixelGroup_inRange p hi.inRange hr hc with } (hi.busyNotDone hbusy)
        (hi.busyOpc hbusy) hstored
    · rw [endRow_nextRow (hends.mpr hlast) (mt hrow.mp hend)]
      exact storePixelGroup_nextRow_inv p hi hp ho hlast hend
  · rw [endRow_within (mt hends.mp hlast)]
    exact storePixelGroup_inv p hi hp ho (hg.resolve_right hlast) hlast

/-- A pixel is taken, and what it leaves has the invariant (40_row_packer.md R74). -/
theorem packPixel_inv (w : Word) {depth : Nat} {d : Ddc} (hi : d.Inv depth) (hp : d.phase = .load)
    (ho : d.opc ≠ .rle) : ∃ e, packPixel w d = .ok e ∧ e.Inv depth := by
  obtain ⟨hr, hc, hw, ha⟩ := hi.loadPixels hp ho
  have hbusy : d.phase ≠ .idle := by rw [hp]; nofun
  by_cases hg : (d.col.toNat + 1) % 8 = 0 ∨ d.col.toNat + 1 = d.curW.toNat
  · exact ⟨_, packPixel_complete w hr hc hg, endRow_storePixelGroup_inv _ hi hp ho hg⟩
  · obtain ⟨h8, hlast⟩ := not_or.mp hg
    have hcol : (placePixel (pixelBit w) d).col.toNat = d.col.toNat + 1 := toNat_col_succ hc
    refine ⟨_, packPixel_within w hc h8 hlast, Ddc.InRange.inv_load { hi.inRange with } hp (hi.busyNotDone hbusy)
      (hi.busyOpc hbusy) (fun _ => ⟨hr, ?_, ?_, ?_⟩) fun h => absurd h ho⟩ <;> rw [hcol]
    · exact Nat.lt_of_le_of_ne hc hlast
    · rw [show (d.col.toNat + 1) / 8 = d.col.toNat / 8 by omega]
      exact hw
    · exact placePixel_acc_below _ h8 ha

/-- The height byte begins the payload, or completes an empty frame (42_run_length.md R90). -/
theorem loadHeight_inv (v : Byte) {depth : Nat} {d : Ddc} (hi : d.Inv depth) (hp : d.phase = .load)
    (ho : d.opc = .rle) : (loadHeight v d).Inv depth := by
  have hdone := hi.busyNotDone (by rw [hp]; nofun)
  have hrange : ({ d with curH := v, hdrCnt := 2#2, pidx := 0#13 } : Ddc).InRange depth :=
    { hi.inRange with hdrCntBound := Nat.le_refl 2, pidxBound := Nat.zero_le _ }
  have hopc : d.opc ≠ .none := by rw [ho]; nofun
  by_cases hl : v.toNat * bpr d.curW.toNat = 0
  · rw [loadHeight_empty hl]
    refine loadComplete_inv hrange hdone hopc fun i hlt => ?_
    have hlt : i < v.toNat * bpr d.curW.toNat := hlt
    omega
  · rw [loadHeight_nonempty hl]
    exact hrange.inv_load hp hdone hopc (fun h => absurd ho h) fun _ _ => ⟨Nat.pos_of_ne_zero hl, nofun⟩

/-- A payload byte is stored, and the last one completes the frame (42_run_length.md R90). -/
theorem advancePidx_storeFrameByte_inv (v : Byte) {depth : Nat} {d : Ddc} (hi : d.Inv depth) (hp : d.phase = .load)
    (ho : d.opc = .rle) (hh : d.hdrCnt = 2#2) : (advancePidx (storeFrameByte v d)).Inv depth := by
  obtain ⟨hlt, hw⟩ := hi.loadFrame hp ho hh
  have hl : d.len ≤ 8160 := d.len_le
  have hdone := hi.busyNotDone (by rw [hp]; nofun)
  have hopc : d.opc ≠ .none := by rw [ho]; nofun
  have hsucc : (d.pidx + 1#13).toNat = d.pidx.toNat + 1 := toNat_pidx_succ hlt
  have hrange : ({ storeFrameByte v d with pidx := d.pidx + 1#13 } : Ddc).InRange depth :=
    { hi.inRange with
      pbufWf := Memory.wf_set v (hlt.trans_le d.len_le) hi.pbufWf
      pidxBound := by show (d.pidx + 1#13).toNat ≤ 8160; omega }
  have hstored : (storeFrameByte v d).writtenBelow (d.pidx.toNat + 1) := Memory.written_set v hw
  by_cases hlast : d.pidx.toNat + 1 = d.len
  · rw [advancePidx_last (d := storeFrameByte v d) hlt hlast]
    rw [hlast] at hstored
    exact loadComplete_inv hrange hdone hopc hstored
  · rw [advancePidx_more (d := storeFrameByte v d) hlt hlast]
    refine hrange.inv_load hp hdone hopc (fun h => absurd ho h) fun _ _ => ?_
    show (d.pidx + 1#13).toNat < d.len ∧ (storeFrameByte v d).writtenBelow (d.pidx + 1#13).toNat
    rw [hsucc]
    exact ⟨Nat.lt_of_le_of_ne hlt hlast, hstored⟩

/-- A frame byte is taken, and what it leaves has the invariant (42_run_length.md R90). -/
theorem loadFrameByte_inv (w : Word) {depth : Nat} {d : Ddc} (hi : d.Inv depth) (hp : d.phase = .load)
    (ho : d.opc = .rle) : ∃ e, loadFrameByte w d = .ok e ∧ e.Inv depth := by
  have hbusy : d.phase ≠ .idle := by rw [hp]; nofun
  have hcnt := hi.hdrCntBound
  rcases (show d.hdrCnt = 0#2 ∨ d.hdrCnt = 1#2 ∨ d.hdrCnt = 2#2 by bv_omega) with h | h | h
  · have hrange : (loadWidth (inByte w) d).InRange depth := { hi.inRange with hdrCntBound := Nat.le_succ 1 }
    exact ⟨_, loadFrameByte_width w h, hrange.inv_load hp (hi.busyNotDone hbusy) (hi.busyOpc hbusy)
      (fun h => absurd ho h) fun _ h => nomatch h⟩
  · exact ⟨_, loadFrameByte_height w h, loadHeight_inv _ hi hp ho⟩
  · exact ⟨_, loadFrameByte_payload w h (hi.loadFrame hp ho h).1, advancePidx_storeFrameByte_inv _ hi hp ho h⟩

/-- An IN_DATA write is taken, and what it leaves has the invariant (44_host_bus.md R119). -/
theorem inDataWrite_inv (w : Word) {depth : Nat} {d : Ddc} (hi : d.Inv depth) :
    ∃ e, inDataWrite w d = .ok e ∧ e.Inv depth := by
  rcases inDataWrite_cases w d with ⟨hp, ho, e⟩ | ⟨hp, ho, e⟩ | ⟨-, e⟩ <;> rw [e]
  · exact packPixel_inv w hi hp (by rcases ho with ho | ho <;> rw [ho] <;> nofun)
  · exact loadFrameByte_inv w hi hp ho
  · exact ⟨_, rfl, raiseErr_inv _ hi⟩

end Sys2Proof.Machine
end

section
/-! The invariant along the ENGINE's steps. -/

namespace Sys2Proof.Machine

/-- RLE_BIT keeps the invariant (42_run_length.md R91). -/
theorem countBit_inv {depth : Nat} {d : Ddc} (hi : d.Inv depth) (hp : d.phase = .count)
    (hb : d.bidx.toNat < 8 * d.len) : (countBit d).Inv depth := by
  have hbusy : d.phase ≠ .idle := by rw [hp]; nofun
  have hl : d.len ≤ 8160 := d.len_le
  have hscan : countBit d = d.scannedTo (d.bidx.toNat + 1) := by
    conv_lhs => rw [← hi.scannedTo_bidx hp]
    exact countBit_scannedTo hb
  have hbidx : (d.scannedTo (d.bidx.toNat + 1)).bidx.toNat = d.bidx.toNat + 1 := Ddc.toNat_scannedTo_bidx hb
  obtain ⟨-, hrcnt⟩ := Ddc.scannedTo_bounds (Nat.le_add_left 1 d.bidx.toNat) hb
  obtain ⟨hv, h1, h128⟩ := rleBit_running (payloadBit d d.bidx.toNat) d.rs
  have hshape : if (countBit d).rs.rsValid then 1 ≤ (countBit d).rs.rsLen.toNat ∧ (countBit d).rs.rsLen.toNat ≤ 128
      else (countBit d).rs.rsLen = 0#8 := by
    rw [countBit_rs, if_pos hv]
    exact ⟨h1, h128⟩
  rw [hscan] at hshape ⊢
  refine Ddc.InRange.inv_count { hi.inRange with rsShape := hshape, rcntBound := ?rcnt, bidxBound := ?bidx } hp
    (hi.busyNotDone hbusy) (hi.busyOpc hbusy) (hi.countOpc hp) (hi.written (.inl hp)) ?le ?scan
  case rcnt => omega
  case bidx => omega
  case le => rw [hbidx]; exact hb
  case scan => rw [hbidx]; rfl

/-- What the flush leaves: no run in progress (42_run_length.md R88). -/
theorem rleFlush_shape {r : RunState} (h : if r.rsValid then 1 ≤ r.rsLen.toNat ∧ r.rsLen.toNat ≤ 128 else r.rsLen = 0#8) :
    (rleFlush r).1.rsValid = false ∧ (rleFlush r).1.rsLen = 0#8 := by
  cases hv : r.rsValid with
  | false => rw [rleFlush_invalid hv]; rw [hv] at h; exact ⟨hv, h⟩
  | true => rw [rleFlush_valid hv]; exact ⟨rfl, rfl⟩

/-- RLE_END records the number of runs (42_run_length.md R93). -/
theorem countEnd_runCount_toNat {depth : Nat} {d : Ddc} (hi : d.Inv depth) (hp : d.phase = .count)
    (hb : d.bidx.toNat = 8 * d.len) : (countEnd d).runCount.toNat = (runs (bits d.payload)).length := by
  have hscan := hi.scannedTo_bidx hp
  rw [hb] at hscan
  have hle := d.runs_length_le
  conv_lhs => rw [← hscan, countEnd_scannedTo_runCount, BitVec.toNat_ofNat, Nat.mod_eq_of_lt (by omega)]

/-- A RunStream has six bytes before its run-bytes (42_run_length.md R89). -/
theorem oseq_not_enc_length {d : Ddc} (h : d.opc ≠ .enc) : (oseq d).length = 6 + (runs (bits d.payload)).length := by
  rw [oseq_not_enc h, List.length_append, runbytes_length]
  rfl

/-- RLE_END enters EMIT with the invariant (42_run_length.md R92). -/
theorem countEnd_inv {depth : Nat} {d : Ddc} (hi : d.Inv depth) (hp : d.phase = .count)
    (hb : d.bidx.toNat = 8 * d.len) : (countEnd d).Inv depth := by
  have hbusy : d.phase ≠ .idle := by rw [hp]; nofun
  have hle := d.runs_length_le
  have hcount := countEnd_runCount_toNat hi hp hb
  have hlen : (countEnd d).outLen.toNat = 6 + (runs (bits d.payload)).length := by
    rw [countEnd_outLen, ← countEnd_runCount, BitVec.toNat_add, hcount]
    exact Nat.mod_eq_of_lt (by simp; omega)
  obtain ⟨hv, hz⟩ := rleFlush_shape hi.rsShape
  refine Ddc.InRange.inv_emit
    { hi.inRange with
      runCountBound := ?count, outLenBound := ?outLen, rsShape := ?shape, rcntBound := ?rcnt, eidxBound := Nat.zero_le _ }
    rfl (hi.busyNotDone hbusy) (hi.busyOpc hbusy) (hi.written (.inl hp)) ?len ?eidx fun _ => hcount
  case count => exact hcount.trans_le hle
  case outLen => exact .inr (by omega)
  case shape => rw [countEnd_rs, hv]; exact hz
  case rcnt => exact hcount.trans_le hle
  case len => exact hlen.trans (oseq_not_enc_length (d := countEnd d) (hi.countOpc hp)).symm
  case eidx => rw [hlen]; exact Nat.zero_lt_of_lt (Nat.lt_add_right _ (by decide : 0 < 6))

/-- EMIT_BYTE is taken, and what it leaves has the invariant (41_output_stream.md R80). -/
theorem emitByte_inv {depth : Nat} {d : Ddc} (hi : d.Inv depth) (hp : d.phase = .emit) (hq : d.outq.length < depth) :
    ∃ e, emitByte d = .ok e ∧ e.Inv depth := by
  have hbusy : d.phase ≠ .idle := by rw [hp]; nofun
  obtain ⟨hlen, hidx⟩ := hi.emitting hp
  have hb := List.getElem?_eq_getElem (hlen ▸ hidx)
  refine ⟨_, emitByte_of_getElem? hb, ?_⟩
  have hsucc := toNat_eidx_succ hi
  have hle : d.outLen.toNat ≤ 65286 := by
    rcases hi.outLenBound with h | ⟨-, h⟩
    · rw [h]; exact Nat.zero_le _
    · exact h
  have hrange : (pushOut (oseq d)[d.eidx.toNat] d).InRange depth :=
    { hi.inRange with
      outqFits := by rw [pushOut_outq, List.length_append]; exact hq
      eidxBound := by rw [pushOut_eidx, hsucc]; omega }
  by_cases hlast : (d.eidx + 1#17).toNat = d.outLen.toNat
  · rw [endEmit_last (by exact hlast)]
    exact Ddc.InRange.inv_idle { hrange with } rfl
  · rw [endEmit_more (by exact hlast)]
    rw [hsucc] at hlast
    refine hrange.inv_emit hp (hi.busyNotDone hbusy) (hi.busyOpc hbusy) (hi.written (.inr hp)) hlen ?_
      (hi.emittingRuns hp)
    rw [pushOut_eidx, hsucc, pushOut_outLen]
    exact Nat.lt_of_le_of_ne hidx hlast

/-- An enabled ENGINE step is taken, and what it leaves has the invariant. -/
theorem engineAct_inv {depth : Nat} {d : Ddc} (hi : d.Inv depth) (hen : engineEnabled depth d = true) :
    ∃ e, engineAct d = .ok e ∧ e.Inv depth := by
  rcases engineAct_cases hen with ⟨hp, hb, e⟩ | ⟨hp, hb, e⟩ | ⟨hp, hq, e⟩ <;> rw [e]
  · exact ⟨_, rfl, countBit_inv hi hp hb⟩
  · exact ⟨_, rfl, countEnd_inv hi hp hb⟩
  · exact emitByte_inv hi hp hq

end Sys2Proof.Machine
end

section
/-! Every step answers and keeps the invariant. -/

namespace Sys2Proof.Machine

/-- Every access but an IN_DATA write answers a next state in any state, and an IN_DATA write does with the invariant. -/
theorem exec_answers {depth : Nat} (i : Instr) {s : State} (hi : s.Inv depth) : ∃ t, exec i s = .next t := by
  cases i
  case wrInData w =>
    obtain ⟨e, he, -⟩ := inDataWrite_inv w hi
    exact ⟨_, congrArg s.after he⟩
  all_goals exact ⟨_, rfl⟩

theorem exec_inv {depth : Nat} {i : Instr} {s t : State} (hi : s.Inv depth) (h : exec i s = .next t) : t.Inv depth := by
  have hi : s.ddc.Inv depth := hi
  rw [State.Inv]
  rcases exec_ddc_cases h with e | ⟨-, e⟩ | ⟨w, -, e⟩ | ⟨w, -, e⟩ | ⟨w, -, e⟩ | ⟨w, -, e⟩
  · rw [e]; exact hi
  · rw [e]
    have hq : s.ddc.outq.tail.length ≤ depth := by
      rw [List.length_tail]; exact (Nat.sub_le _ _).trans hi.outqFits
    exact hi.of_sameCommand rfl hi.errLegal hq hi.busyNotDone
  · rw [e]; exact hi.of_sameCommand rfl hi.errLegal hi.outqFits hi.busyNotDone
  · rw [e]; exact clearStatus_inv w hi
  · obtain ⟨d, hd, hinv⟩ := inDataWrite_inv w hi
    rw [e] at hd
    rwa [Except.ok.inj hd]
  · rw [e]; exact cmdWrite_inv w hi

theorem engineTurn_inv {depth : Nat} {s : State} (hi : s.Inv depth) :
    ∃ t, engineTurn depth s = .next t ∧ t.Inv depth := by
  rcases engineTurn_cases depth s with ⟨-, e⟩ | ⟨hen, e⟩ <;> rw [e]
  · exact ⟨s, rfl, hi⟩
  · obtain ⟨d, hd, hinv⟩ := engineAct_inv hi hen
    rw [hd]
    exact ⟨_, rfl, hinv⟩

/-- Settles O43, by the agent that moves. -/
theorem everyStepAnswersAndKeepsTheInvariant : Obligations.EveryStepAnswersAndKeepsTheInvariant := by
  intro depth s hi
  obtain ⟨hddc, -, -⟩ := nextTurn_keeps depth s
  have hi' : (nextTurn depth s).2.Inv depth := by rw [State.Inv, hddc]; exact hi
  rcases stepAt_cases depth s with ⟨a, rest, -, -, e⟩ | ⟨-, -, e⟩ | ⟨-, e⟩ | ⟨-, e⟩ <;> rw [e]
  · have hi'' : ({ (nextTurn depth s).2 with bus := rest } : State).Inv depth := hi'
    obtain ⟨t, ht⟩ := exec_answers (decode a) hi''
    exact ⟨t, ht, exec_inv hi'' ht⟩
  · exact ⟨_, rfl, hi'⟩
  · exact engineTurn_inv hi'
  · exact ⟨_, rfl, Ddc.inv_reset depth _⟩

/-- A step keeps the invariant. -/
theorem stepAt_inv {depth : Nat} {s t : State} (hi : s.Inv depth) (h : stepAt depth s = .next t) : t.Inv depth := by
  obtain ⟨t', ht', hinv⟩ := everyStepAnswersAndKeepsTheInvariant depth s hi
  rw [h] at ht'
  cases ht'
  exact hinv

end Sys2Proof.Machine
end

section
/-! R79, R89: the output sequence of a command. -/

namespace Sys2Proof.Machine

/-- The output of the command in progress: a Frame for ENC, and that Frame's RunStream for ENC_RLE and RLE. -/
def Ddc.output (d : Ddc) : List Byte :=
  if d.opc = .enc then d.curW :: d.curH :: d.payload else runStream d.curW d.curH d.payload

theorem Ddc.output_enc {d : Ddc} (h : d.opc = .enc) : d.output = d.curW :: d.curH :: d.payload := if_pos h

theorem Ddc.output_not_enc {d : Ddc} (h : d.opc ≠ .enc) : d.output = runStream d.curW d.curH d.payload := if_neg h

/-- In EMIT, OSEQ is the command's output: RUN_COUNT is the number of runs (41_output_stream.md R79). -/
theorem Ddc.Inv.oseq_eq_output {depth : Nat} {d : Ddc} (hi : d.Inv depth) (hp : d.phase = .emit) :
    oseq d = d.output := by
  by_cases ho : d.opc = .enc
  · rw [oseq_enc ho, Ddc.output_enc ho]
  · have hcount : d.runCount = BitVec.ofNat 32 (runs (bits d.payload)).length := by
      rw [← hi.emittingRuns hp ho, BitVec.ofNat_toNat, BitVec.setWidth_eq]
    rw [oseq_not_enc ho, Ddc.output_not_enc ho, runStream, hcount]

/-- The four bytes of a run count weigh what the count is (00_scope.md R15). -/
theorem be32_weight (c : Word) :
    (c.extractLsb' 24 8).toNat * 2 ^ 24 + (c.extractLsb' 16 8).toNat * 2 ^ 16 + (c.extractLsb' 8 8).toNat * 2 ^ 8
      + (c.extractLsb' 0 8).toNat = c.toNat := by
  have hc := c.isLt
  simp only [BitVec.extractLsb'_toNat, Nat.shiftRight_eq_div_pow]
  omega

/-- Settles O34: for the runs, OSEQ is the RunStream of the Frame, read off field by field. -/
theorem outputSequenceIsAFrameOrARunStream : Obligations.OutputSequenceIsAFrameOrARunStream := by
  intro depth d hi hp
  refine ⟨(hi.emitting hp).1, oseq_enc, fun hop => ?_⟩
  have ho : d.opc ≠ .enc := by rcases hop with h | h <;> rw [h] <;> nofun
  have hseq := oseq_not_enc ho
  refine ⟨?stream, by rw [hseq]; rfl, by rw [hseq]; rfl, _, _, _, _, by rw [hseq]; rfl, ?count⟩
  case stream => rw [hi.oseq_eq_output hp, Ddc.output_not_enc ho]; rfl
  case count => rw [be32_weight]; exact hi.emittingRuns hp ho

end Sys2Proof.Machine
end

section
/-! R80: EMIT with room for the rest of the output. -/

namespace Sys2Proof.Machine

/-- An EMIT_BYTE step pushes a byte, and that byte is the last one or the invariant's EMIT goes on (R80). -/
theorem emitByte_room {depth : Nat} {d : Ddc} (hi : d.Inv depth) (hp : d.phase = .emit)
    (hq : d.outq.length < depth) :
    ∃ b, (oseq d)[d.eidx.toNat]? = some b ∧ engineEnabled depth d = true ∧
      ((d.eidx.toNat + 1 = d.outLen.toNat ∧ engineAct d = .ok { pushOut b d with phase := .idle, done := true })
        ∨ (d.eidx.toNat + 1 < d.outLen.toNat ∧ engineAct d = .ok (pushOut b d) ∧ (pushOut b d).Inv depth)) := by
  obtain ⟨hlen, hidx⟩ := hi.emitting hp
  have hb := List.getElem?_eq_getElem (hlen ▸ hidx)
  obtain ⟨e, he, hinv⟩ := emitByte_inv hi hp hq
  have hsucc := toNat_eidx_succ hi
  have hact := (engineAct_emit hp).trans (emitByte_of_getElem? hb)
  refine ⟨_, hb, by rw [engineEnabled_emit hp, decide_eq_true hq], ?_⟩
  rw [emitByte_of_getElem? hb] at he
  obtain rfl := Except.ok.inj he
  by_cases hlast : d.eidx.toNat + 1 = d.outLen.toNat
  · have hend : (d.eidx + 1#17).toNat = d.outLen.toNat := hsucc.trans hlast
    rw [endEmit_last (by exact hend)] at hact
    exact .inl ⟨hlast, hact⟩
  · have hmore : (d.eidx + 1#17).toNat ≠ d.outLen.toNat := fun h => hlast (hsucc.symm.trans h)
    rw [endEmit_more (by exact hmore)] at hact hinv
    exact .inr ⟨Nat.lt_of_le_of_ne hidx hlast, hact, hinv⟩

/-- The n bytes left are emitted by n steps, when OUTQ has room for them. -/
theorem engineRun_emit (n : Nat) {depth : Nat} {d : Ddc} (hi : d.Inv depth) (hp : d.phase = .emit)
    (hn : d.eidx.toNat + n = d.outLen.toNat) (hroom : d.outq.length + n ≤ depth) :
    ∃ x : BitVec 17, x.toNat = d.outLen.toNat ∧ engineRun depth n d =
      .ok { d with outq := d.outq ++ (oseq d).drop d.eidx.toNat, eidx := x, phase := .idle, done := true } := by
  induction n generalizing d with
  | zero =>
    obtain ⟨-, hidx⟩ := hi.emitting hp
    omega
  | succ n ih =>
    have hsucc := toNat_eidx_succ hi
    obtain ⟨b, hb, hen, hcases⟩ := emitByte_room hi hp (by omega)
    have hdrop : d.outq ++ (oseq d).drop d.eidx.toNat = d.outq ++ [b] ++ (oseq d).drop (d.eidx.toNat + 1) := by
      obtain ⟨hlt, rfl⟩ := List.getElem?_eq_some_iff.mp hb
      rw [List.drop_eq_getElem_cons hlt, List.append_assoc]
      rfl
    rw [hdrop]
    rcases hcases with ⟨hend, hact⟩ | ⟨-, hact, hinv⟩
    · obtain rfl : n = 0 := by omega
      have hall : (oseq d).drop (d.eidx.toNat + 1) = [] := by
        rw [hend, (hi.emitting hp).1, List.drop_length]
      refine ⟨d.eidx + 1#17, hsucc.trans hend, (engineRun_succ hen hact).trans ?_⟩
      rw [hall, List.append_nil]
      rfl
    · have hn' : (pushOut b d).eidx.toNat + n = (pushOut b d).outLen.toNat := by
        rw [pushOut_eidx, hsucc, pushOut_outLen]; omega
      have hroom' : (pushOut b d).outq.length + n ≤ depth := by
        rw [pushOut_outq, List.length_append, List.length_singleton]; omega
      obtain ⟨x, hx, hrun⟩ := ih hinv hp hn' hroom'
      refine ⟨x, hx, (engineRun_succ hen hact).trans (hrun.trans ?_)⟩
      rw [pushOut_eidx, hsucc]
      rfl

/-- Settles O37, by induction on the bytes that are left. -/
theorem emitEndsWhenOutqHasRoom : Obligations.EmitEndsWhenOutqHasRoom := by
  intro depth d hi hp hroom
  obtain ⟨-, hidx⟩ := hi.emitting hp
  obtain ⟨x, hx, hrun⟩ := engineRun_emit (d.outLen.toNat - d.eidx.toNat) hi hp (by omega) hroom
  exact ⟨_, hrun, rfl, hx⟩

end Sys2Proof.Machine
end

section
/-! R82, R83: what a command in EMIT has delivered, step by step. -/

namespace Sys2Proof.Machine

/-- A command in EMIT whose OSEQ is `out` has delivered the first EIDX bytes of it after the bytes `base`. -/
structure State.Emitting (base out : List Byte) (s : State) : Prop where
  phase : s.ddc.phase = .emit
  oseq : oseq s.ddc = out
  delivered : s.delivered = base ++ out.take s.ddc.eidx.toNat

/-- A command whose output is `out` has ended, and has delivered all of it after the bytes `base`. -/
structure State.Emitted (base out : List Byte) (s : State) : Prop where
  phase : s.ddc.phase = .idle
  done : s.ddc.done = true
  outLen : s.ddc.outLen.toNat = out.length
  delivered : s.delivered = base ++ out

/-- OSEQ is that of the same command. -/
theorem Ddc.SameCommand.oseq_eq {d e : Ddc} (h : d.SameCommand e) : oseq e = oseq d := by
  rw [Ddc.SameCommand] at h
  rw [h]
  rfl

theorem Ddc.SameCommand.eidx_eq {d e : Ddc} (h : d.SameCommand e) : e.eidx = d.eidx := by
  rw [Ddc.SameCommand] at h
  rw [h]

/-- A step that leaves the command where it stands and delivers nothing leaves it emitting. -/
theorem State.Emitting.of_sameCommand {base out : List Byte} {s t : State} (h : s.Emitting base out)
    (hd : s.ddc.SameCommand t.ddc) (hq : t.delivered = s.delivered) : t.Emitting base out :=
  ⟨hd.phase.trans h.phase, hd.oseq_eq.trans h.oseq, by rw [hq, hd.eidx_eq]; exact h.delivered⟩

/-- An idle turn delivers nothing. -/
theorem State.delivered_congr {s t : State} (hd : t.ddc = s.ddc) (hr : t.reads = s.reads) :
    t.delivered = s.delivered := by
  rw [State.delivered, hd, hr, State.delivered]

/-- The ENGINE's step in EMIT delivers the next byte of OSEQ, and the last one ends the command (R80, R83). -/
theorem State.Emitting.engine {depth : Nat} {base out : List Byte} {s t : State} (hi : s.Inv depth)
    (h : s.Emitting base out) (hen : engineEnabled depth s.ddc = true) (hact : engineAct s.ddc = .ok t.ddc)
    (hr : t.reads = s.reads) : t.Emitting base out ∨ t.Emitted base out := by
  have hi : s.ddc.Inv depth := hi
  obtain ⟨hlen, -⟩ := hi.emitting h.phase
  have hsucc := toNat_eidx_succ hi
  have hq : s.ddc.outq.length < depth := by simpa [engineEnabled_emit h.phase] using hen
  obtain ⟨b, hb, -, hcases⟩ := emitByte_room hi h.phase hq
  rw [h.oseq] at hb hlen
  have htake : out.take (s.ddc.eidx.toNat + 1) = out.take s.ddc.eidx.toNat ++ [b] := by
    rw [List.take_add_one, hb]; rfl
  have hpush : outputStream s.reads ++ (s.ddc.outq ++ [b]) = base ++ out.take (s.ddc.eidx.toNat + 1) := by
    rw [htake, ← List.append_assoc, ← List.append_assoc, ← h.delivered]; rfl
  rcases hcases with ⟨hend, hact'⟩ | ⟨-, hact', -⟩
  · have hddc := Except.ok.inj (hact.symm.trans hact')
    refine .inr ⟨by rw [hddc], by rw [hddc], by rw [hddc]; exact hlen, ?_⟩
    rw [State.delivered, hr, hddc]
    rw [hend, hlen, List.take_length] at hpush
    exact hpush
  · have hddc := Except.ok.inj (hact.symm.trans hact')
    refine .inl ⟨by rw [hddc]; exact h.phase, by rw [hddc]; exact h.oseq, ?_⟩
    rw [State.delivered, hr, hddc, pushOut_eidx, hsucc]
    exact hpush

/-- A step that is no RESET leaves a command in EMIT there, or ends it with all of its output delivered. -/
theorem State.Emitting.step {depth : Nat} {base out : List Byte} {s t : State} (hi : s.Inv depth)
    (h : s.Emitting base out) (hs : stepAt depth s = .next t) (hr : Turn.reset ∉ s.turns) :
    t.Emitting base out ∨ t.Emitted base out := by
  cases stepAt_move hs (nextTurn_reset hr) with
  | idle hd hb hr => exact .inl (h.of_sameCommand (by rw [hd]; rfl) (State.delivered_congr hd hr))
  | access a hb he =>
    have hd := exec_sameCommand (s := { s with bus := t.bus, turns := t.turns }) he (by rw [h.phase]; nofun) fun hl =>
      nomatch h.phase.symm.trans hl
    exact .inl (h.of_sameCommand hd (exec_delivered (s := { s with bus := t.bus, turns := t.turns }) he))
  | engine hen hact hb hr => exact h.engine hi hen hact hr

/-- Over a run that is in EMIT before each of its steps. -/
theorem State.Emitting.run {depth n : Nat} {base out : List Byte} {s t : State} (hi : s.Inv depth)
    (h : s.Emitting base out) (hr : Turn.reset ∉ s.turns) (ht : runAt depth n s = .next t)
    (hstay : ∀ m u, m < n → runAt depth m s = .next u → u.ddc.phase = .emit) :
    t.Emitting base out ∨ t.Emitted base out := by
  induction n generalizing s with
  | zero => cases ht; exact .inl h
  | succ n ih =>
    cases e : stepAt depth s with
    | next s' =>
      rw [runAt_succ e] at ht
      rcases h.step hi e hr with h' | h'
      · exact ih (stepAt_inv hi e) h' (stepAt_keeps_noReset e hr) ht fun m u hm hu =>
          hstay (m + 1) u (by omega) ((runAt_succ e).trans hu)
      · cases n with
        | zero => cases ht; exact .inr h'
        | succ n =>
          have hemit := hstay 1 s' (by omega) (runAt_succ e)
          rw [h'.phase] at hemit
          cases hemit
    | fault f => rw [runAt, e] at ht; cases ht
    | refused r => rw [runAt, e] at ht; cases ht

/-- Settles O36: what is delivered grows by what is pushed, and it is OSEQ up to EIDX. -/
theorem eachCommandPushesItsOutputOnce : Obligations.EachCommandPushesItsOutputOnce := by
  intro depth n s t hi hp he hr ht hstay
  have hstart : s.Emitting s.delivered (oseq s.ddc) := ⟨hp, rfl, by rw [he]; exact (List.append_nil _).symm⟩
  have hpush := runAt_delivered hr ht
  rcases hstart.run hi hr ht hstay with h | h
  · exact .inl ⟨h.phase, h.oseq, List.append_cancel_left (hpush.symm.trans h.delivered)⟩
  · exact .inr ⟨h.phase, h.done, List.append_cancel_left (hpush.symm.trans h.delivered)⟩

end Sys2Proof.Machine
end

section
/-! R144, R149: reads that drain OUTQ end the run. -/

namespace Sys2Proof.Machine

/-- The bytes a command still has to push once its input is complete. -/
def Ddc.bytesToPush (d : Ddc) : Nat :=
  if d.phase = .count then 6 + (runs (bits d.payload)).length
  else if d.phase = .emit then d.outLen.toNat - d.eidx.toNat else 0

/-- The ENGINE steps a command still has to take once its input is complete. -/
def Ddc.stepsToTake (d : Ddc) : Nat :=
  d.bytesToPush + if d.phase = .count then 8 * d.len + 1 - d.bidx.toNat else 0

theorem Ddc.bytesToPush_count {d : Ddc} (hp : d.phase = .count) :
    d.bytesToPush = 6 + (runs (bits d.payload)).length := if_pos hp

theorem Ddc.bytesToPush_emit {d : Ddc} (hp : d.phase = .emit) :
    d.bytesToPush = d.outLen.toNat - d.eidx.toNat := by
  simp [Ddc.bytesToPush, hp]

theorem Ddc.bytesToPush_idle {d : Ddc} (hp : d.phase = .idle) : d.bytesToPush = 0 := by
  simp [Ddc.bytesToPush, hp]

theorem Ddc.stepsToTake_count {d : Ddc} (hp : d.phase = .count) :
    d.stepsToTake = d.bytesToPush + (8 * d.len + 1 - d.bidx.toNat) := by
  rw [Ddc.stepsToTake, if_pos hp]

theorem Ddc.stepsToTake_not_count {d : Ddc} (hp : d.phase ≠ .count) : d.stepsToTake = d.bytesToPush := by
  rw [Ddc.stepsToTake, if_neg hp, Nat.add_zero]

/-- The ENGINE has taken a step off those to take, and moved at most a byte from those to push into OUTQ. -/
structure Ddc.Progress (depth : Nat) (d e : Ddc) : Prop where
  inv : e.Inv depth
  notLoad : e.phase ≠ .load
  steps : e.stepsToTake < d.stepsToTake
  bytes : e.outq.length + e.bytesToPush = d.outq.length + d.bytesToPush

theorem countBit_progress {depth : Nat} {d : Ddc} (hi : d.Inv depth) (hp : d.phase = .count)
    (hb : d.bidx.toNat < 8 * d.len) : d.Progress depth (countBit d) := by
  have hl : d.len ≤ 8160 := d.len_le
  have hbidx : (countBit d).bidx.toNat = d.bidx.toNat + 1 := by rw [countBit_bidx]; bv_omega
  have hp' : (countBit d).phase = .count := hp
  have hpush : (countBit d).bytesToPush = d.bytesToPush := rfl
  have hlen : (countBit d).len = d.len := rfl
  refine ⟨countBit_inv hi hp hb, by rw [hp']; nofun, ?_, rfl⟩
  rw [Ddc.stepsToTake_count hp, Ddc.stepsToTake_count hp', hpush, hbidx, hlen]
  omega

/-- RLE_END pushes nothing: the bytes to push are the RunStream's, before it and after it (42_run_length.md R93). -/
theorem countEnd_progress {depth : Nat} {d : Ddc} (hi : d.Inv depth) (hp : d.phase = .count)
    (hb : d.bidx.toNat = 8 * d.len) : d.Progress depth (countEnd d) := by
  have hinv := countEnd_inv hi hp hb
  have hp' : (countEnd d).phase = .emit := rfl
  have hpush : (countEnd d).bytesToPush = d.bytesToPush := by
    obtain ⟨hlen, -⟩ := hinv.emitting hp'
    rw [Ddc.bytesToPush_emit hp', hlen, oseq_not_enc_length (d := countEnd d) (hi.countOpc hp),
      Ddc.bytesToPush_count hp]
    rfl
  refine ⟨hinv, nofun, ?_, by rw [hpush]; rfl⟩
  rw [Ddc.stepsToTake_count hp, Ddc.stepsToTake_not_count (by rw [hp']; nofun), hpush]
  omega

/-- EMIT_BYTE moves one byte from those to push into OUTQ (41_output_stream.md R80). -/
theorem emitByte_progress {depth : Nat} {d e : Ddc} (hi : d.Inv depth) (hp : d.phase = .emit)
    (hq : d.outq.length < depth) (he : engineAct d = .ok e) (hinv : e.Inv depth) : d.Progress depth e := by
  obtain ⟨-, hidx⟩ := hi.emitting hp
  have hsteps := Ddc.stepsToTake_not_count (d := d) (by rw [hp]; nofun)
  have hpush := Ddc.bytesToPush_emit hp
  obtain ⟨b, -, -, ⟨hend, hact⟩ | ⟨hmore, hact, -⟩⟩ := emitByte_room hi hp hq
  · obtain rfl := Except.ok.inj (he.symm.trans hact)
    have hpush' := Ddc.bytesToPush_idle (d := { pushOut b d with phase := .idle, done := true }) rfl
    refine ⟨hinv, nofun, ?_, ?_⟩
    · rw [Ddc.stepsToTake_not_count (show Phase.idle ≠ .count by decide), hpush', hsteps, hpush]; omega
    · rw [hpush', hpush, pushOut_outq, List.length_append, List.length_singleton]; omega
  · obtain rfl := Except.ok.inj (he.symm.trans hact)
    have hp' : (pushOut b d).phase = .emit := hp
    have hpush' : (pushOut b d).bytesToPush = d.outLen.toNat - (d.eidx.toNat + 1) := by
      rw [Ddc.bytesToPush_emit hp', pushOut_eidx, toNat_eidx_succ hi]; rfl
    refine ⟨hinv, by rw [hp']; nofun, ?_, ?_⟩
    · rw [Ddc.stepsToTake_not_count (by rw [hp']; nofun), hpush', hsteps, hpush]; omega
    · rw [hpush', hpush, pushOut_outq, List.length_append, List.length_singleton]; omega

theorem engineAct_progress {depth : Nat} {d : Ddc} (hi : d.Inv depth) (hen : engineEnabled depth d = true) :
    ∃ e, engineAct d = .ok e ∧ d.Progress depth e := by
  rcases engineAct_cases hen with ⟨hp, hb, he⟩ | ⟨hp, hb, he⟩ | ⟨hp, hq, -⟩
  · exact ⟨_, he, countBit_progress hi hp hb⟩
  · exact ⟨_, he, countEnd_progress hi hp hb⟩
  · obtain ⟨e, he, hinv⟩ := engineAct_inv hi hen
    exact ⟨e, he, emitByte_progress hi hp hq he hinv⟩

/-- With the input complete the ENGINE rests in IDLE, and in EMIT while OUTQ is full. -/
theorem engineEnabled_eq_false {depth : Nat} {d : Ddc} (hi : d.Inv depth) (hl : d.phase ≠ .load)
    (hen : engineEnabled depth d = false) : d.phase = .idle ∨ (d.phase = .emit ∧ depth ≤ d.outq.length) := by
  cases hp : d.phase with
  | idle => exact .inl rfl
  | load => exact absurd hp hl
  | count =>
    obtain ⟨hb, -⟩ := hi.counting hp
    rw [engineEnabled_count hp hb] at hen
    cases hen
  | emit =>
    rw [engineEnabled_emit hp, decide_eq_false_iff_not, Nat.not_lt] at hen
    exact .inr ⟨rfl, hen⟩

/-- A HOST that only reads OUT_DATA, as often as there are bytes to come, with the ENGINE moving first (log 2). -/
structure State.Draining (depth : Nat) (s : State) : Prop where
  inv : s.Inv depth
  notLoad : s.ddc.phase ≠ .load
  turns : s.turns = []
  bus : s.bus = List.replicate s.bus.length (rd .outData)
  enough : s.ddc.outq.length + s.ddc.bytesToPush ≤ s.bus.length

/-- The accesses and ENGINE steps that are still to come while the HOST drains OUTQ. -/
def State.stepsToCome (s : State) : Nat := s.bus.length + s.ddc.stepsToTake

/-- A draining run goes on with fewer steps to come, until it is over. -/
theorem State.Draining.step {depth : Nat} {s : State} (hdepth : 1 ≤ depth) (h : s.Draining depth) :
    s.over = true ∨ ∃ t, stepAt depth s = .next t ∧ t.Draining depth ∧ t.stepsToCome < s.stepsToCome := by
  obtain ⟨hi, hl, ht, hb, hn⟩ := h
  cases hen : engineEnabled depth s.ddc with
  | true =>
    obtain ⟨e, he, hprog⟩ := engineAct_progress hi hen
    refine .inr ⟨{ s with ddc := e }, (stepAt_of_engine (nextTurn_nil_engine ht hen)).trans (engineTurn_enabled hen he),
      ⟨hprog.inv, hprog.notLoad, ht, hb, hprog.bytes.trans_le hn⟩, Nat.add_lt_add_left hprog.steps _⟩
  | false =>
    have hrest := engineEnabled_eq_false hi hl hen
    cases hbus : s.bus with
    | nil =>
      rw [hbus, List.length_nil] at hn
      have hq : s.ddc.outq = [] := List.eq_nil_of_length_eq_zero (by omega)
      rcases hrest with hp | ⟨-, hfull⟩
      · left; simp [State.over, hbus, hq, hp]
      · rw [hq, List.length_nil] at hfull; omega
    | cons a rest =>
      rw [hbus, List.length_cons, List.replicate_succ] at hb
      obtain ⟨rfl, hrd⟩ := List.cons.inj hb
      rw [hbus, List.length_cons] at hn
      have hexec := (stepAt_of_host (nextTurn_nil_host ht hen) hbus).trans (exec_rdOutData { s with bus := rest })
      refine .inr ⟨_, hexec, ⟨exec_inv (s := { s with bus := rest }) hi (exec_rdOutData _), hl, ht, hrd, ?_⟩, ?_⟩
      · show s.ddc.outq.tail.length + s.ddc.bytesToPush ≤ rest.length
        rw [List.length_tail]
        rcases hrest with hp | ⟨-, hfull⟩
        · rw [Ddc.bytesToPush_idle hp] at hn ⊢; omega
        · omega
      · show rest.length + s.ddc.stepsToTake < s.bus.length + s.ddc.stepsToTake
        rw [hbus, List.length_cons]
        omega

theorem State.Draining.run {depth : Nat} {s : State} (hdepth : 1 ≤ depth) (h : s.Draining depth) :
    ∃ k t, runAt depth k s = .next t ∧ t.over = true := by
  rcases h.step hdepth with hover | ⟨s', hs, h', hlt⟩
  · exact ⟨0, s, rfl, hover⟩
  · obtain ⟨k, t, ht, hover⟩ := h'.run hdepth
    exact ⟨k + 1, t, (runAt_succ hs).trans ht, hover⟩
termination_by s.stepsToCome

/-- Settles O51: every step leaves fewer to come, and the reads are enough for the bytes to come. -/
theorem drainingReadsEndTheRun : Obligations.DrainingReadsEndTheRun := by
  intro depth n s hdepth hi hl ht hb hn
  have hlen : s.bus.length = n := by rw [hb, List.length_replicate]
  exact State.Draining.run hdepth ⟨hi, hl, ht, by rw [hlen]; exact hb, by rw [hlen]; exact hn⟩

end Sys2Proof.Machine
end

section
/-! R63, R70, R72, R77: the Frame, byte by byte and bit by bit. -/

namespace Sys2Proof.Machine

/-- The byte that holds the first n of eight bits, the first in bit 7, and 0 below them. -/
def packBits (q : Nat → Bool) (n : Nat) : Byte := (List.range n).foldl (fun b j => b ||| placeBit (q j) j) 0#8

theorem packBits_succ (q : Nat → Bool) (n : Nat) : packBits q (n + 1) = packBits q n ||| placeBit (q n) n := by
  rw [packBits, List.range_succ, List.foldl_append]
  rfl

theorem groupByte_eq_packBits (w : Nat) (p : Nat → Nat → Bool) (r k : Nat) :
    groupByte w p r k = packBits (fun j => paddedPixel w p r (8 * k + j)) 8 := rfl

/-- The bits of a packed byte, most significant first (40_row_packer.md R70). -/
theorem packBits_getLsbD (q : Nat → Bool) {n j : Nat} (hn : n ≤ 8) (hj : j < 8) :
    (packBits q n).getLsbD (7 - j) = (decide (j < n) && q j) := by
  induction n with
  | zero => simp [packBits]
  | succ n ih =>
    rw [packBits_succ, BitVec.getLsbD_or, ih (by omega), placeBit_getLsbD]
    rcases Nat.lt_trichotomy j n with h | rfl | h
    · have hne : 7 - j ≠ 7 - n % 8 := by omega
      simp [h, hne, Nat.lt_succ_of_lt h]
    · have he : 7 - j = 7 - j % 8 := by omega
      simp [he]
    · have hne : 7 - j ≠ 7 - n % 8 := by omega
      simp [hne, Nat.not_lt.mpr h.le, Nat.not_lt.mpr h]

/-- Bits that are 0 need not be packed. -/
theorem packBits_padding {q : Nat → Bool} {n m : Nat} (hnm : n ≤ m) (hq : ∀ j, n ≤ j → q j = false) :
    packBits q m = packBits q n := by
  induction m, hnm using Nat.le_induction with
  | base => rfl
  | succ m hm ih => rw [packBits_succ, ih, hq m hm]; simp [placeBit]

theorem paddedPixel_inside {w c : Nat} (p : Nat → Nat → Bool) (r : Nat) (h : c < w) : paddedPixel w p r c = p r c := by
  rw [paddedPixel, decide_eq_true h, Bool.true_and]

theorem paddedPixel_outside {w c : Nat} (p : Nat → Nat → Bool) (r : Nat) (h : w ≤ c) : paddedPixel w p r c = false := by
  rw [paddedPixel, decide_eq_false (Nat.not_lt.mpr h), Bool.false_and]

theorem framePayload_succ (w h : Nat) (p : Nat → Nat → Bool) :
    framePayload w (h + 1) p = framePayload w h p ++ rowBytes w p h := by
  rw [framePayload, List.range_succ, List.flatMap_append, List.flatMap_singleton]
  rfl

/-- Byte k of row r stands at r * BPR + k of the payload (20_memory.md R43). -/
theorem framePayload_getElem? {w h r k : Nat} (p : Nat → Nat → Bool) (hr : r < h) (hk : k < bpr w) :
    (framePayload w h p)[r * bpr w + k]? = some (groupByte w p r k) := by
  induction h with
  | zero => cases hr
  | succ h ih =>
    have hlen := framePayload_length w h p
    rw [framePayload_succ]
    rcases Nat.lt_succ_iff_lt_or_eq.mp hr with hlt | rfl
    · have hin : r * bpr w + k < h * bpr w := by
        calc r * bpr w + k < (r + 1) * bpr w := by rw [Nat.succ_mul]; omega
          _ ≤ h * bpr w := Nat.mul_le_mul_right _ hlt
      rw [List.getElem?_append_left (by omega), ih hlt]
    · rw [List.getElem?_append_right (by omega), hlen, Nat.add_sub_cancel_left]
      simp [rowBytes, hk]

/-- What the reader finds: the pixel, or 0 in the padding (40_row_packer.md R72, R77). -/
theorem framePixel_frame {w h r c : Nat} (p : Nat → Nat → Bool) (hr : r < h) (hc : c < 8 * bpr w) :
    framePixel (frame w h p) w r c = some (paddedPixel w p r c) := by
  have hbyte : (frame w h p)[2 + r * bpr w + c / 8]? = some (groupByte w p r (c / 8)) := by
    rw [show 2 + r * bpr w + c / 8 = r * bpr w + c / 8 + 1 + 1 by omega]
    exact framePayload_getElem? p hr (by omega)
  rw [framePixel, hbyte, Option.map_some, groupByte_eq_packBits,
    packBits_getLsbD _ (Nat.le_refl 8) (Nat.mod_lt c (by decide)), decide_eq_true (Nat.mod_lt c (by decide)),
    Bool.true_and, Nat.div_add_mod]

/-- Settles O21: the length and the header by the layout, the pixels and the padding by the reader. -/
theorem aFrameHoldsItsPixelsAndZeroPadding : Obligations.AFrameHoldsItsPixelsAndZeroPadding := by
  intro w h p _ _
  refine ⟨?length, rfl, rfl, fun r c hr hc => ?pixel, fun r c hr hw hc => ?padding⟩
  case length =>
    rw [frame, List.length_cons, List.length_cons, framePayload_length, Nat.add_assoc, Nat.add_comm]
    rfl
  case pixel =>
    have hcol : c < 8 * bpr w := by
      have hdiv := col_div_lt_bpr hc
      omega
    rw [framePixel_frame p hr hcol, paddedPixel_inside p r hc]
  case padding => rw [framePixel_frame p hr hc, paddedPixel_outside p r hw]

end Sys2Proof.Machine
end

section
/-! R76, R90: input taken word by word. -/

namespace Sys2Proof.Machine

/-- The words `ws` are taken by `f` one after the other: `At n` holds of the DDC that has taken n of them, and `Done` of
the one that has taken all. -/
structure Loads (f : Word → Ddc → Except Fault Ddc) (ws : List Word) (At : Nat → Ddc → Prop) (Done : Ddc → Prop) :
    Prop where
  bound : ∀ {n e}, At n e → n < ws.length
  step : ∀ {n e x}, At n e → ws[n]? = some x →
    ∃ e', f x e = .ok e' ∧ (At (n + 1) e' ∨ (n + 1 = ws.length ∧ Done e'))

variable {f : Word → Ddc → Except Fault Ddc} {ws : List Word} {At : Nat → Ddc → Prop} {Done : Ddc → Prop}

theorem foldlM_take_succ {n : Nat} {x : Word} {d e : Ddc} (hx : ws[n]? = some x)
    (h : (ws.take n).foldlM (fun e x => f x e) d = .ok e) :
    (ws.take (n + 1)).foldlM (fun e x => f x e) d = f x e := by
  rw [List.take_add_one, hx, List.foldlM_append, h]
  exact bind_pure (f x e)

/-- Every part of the words but the whole leaves the loading under way. -/
theorem Loads.take (h : Loads f ws At Done) {d : Ddc} (h0 : At 0 d) {n : Nat} (hn : n < ws.length) :
    ∃ u, (ws.take n).foldlM (fun e x => f x e) d = .ok u ∧ At n u := by
  induction n with
  | zero => exact ⟨d, rfl, h0⟩
  | succ n ih =>
    obtain ⟨e, he, hat⟩ := ih (by omega)
    have hx := List.getElem?_eq_getElem (l := ws) (i := n) (by omega)
    obtain ⟨e', he', hat' | ⟨hend, -⟩⟩ := h.step hat hx
    · exact ⟨e', (foldlM_take_succ hx he).trans he', hat'⟩
    · omega

/-- The whole of the words completes the load. -/
theorem Loads.all (h : Loads f ws At Done) {d : Ddc} (h0 : At 0 d) :
    ∃ t, ws.foldlM (fun e x => f x e) d = .ok t ∧ Done t := by
  have hpos := h.bound h0
  obtain ⟨n, hn⟩ : ∃ n, ws.length = n + 1 := ⟨ws.length - 1, by omega⟩
  obtain ⟨e, he, hat⟩ := h.take h0 (n := n) (by omega)
  have hx := List.getElem?_eq_getElem (l := ws) (i := n) (by omega)
  obtain ⟨e', he', hat' | ⟨-, hdone⟩⟩ := h.step hat hx
  · have hbound := h.bound hat'
    omega
  · have hall := (foldlM_take_succ hx he).trans he'
    rw [← hn, List.take_length] at hall
    exact ⟨e', hall, hdone⟩

theorem packAll_eq_foldlM (ws : List Word) (d : Ddc) : packAll ws d = ws.foldlM (fun e x => packPixel x e) d := by
  induction ws generalizing d with
  | nil => rfl
  | cons x ws ih =>
    rw [packAll, List.foldlM_cons]
    cases packPixel x d with
    | ok e => exact ih e
    | error f => rfl

theorem loadAll_eq_foldlM (ws : List Word) (d : Ddc) : loadAll ws d = ws.foldlM (fun e x => loadFrameByte x e) d := by
  induction ws generalizing d with
  | nil => rfl
  | cons x ws ih =>
    rw [loadAll, List.foldlM_cons]
    cases loadFrameByte x d with
    | ok e => exact ih e
    | error f => rfl

/-- The payload is the list whose bytes PBUF holds from 0 on. -/
theorem Ddc.payload_eq_of_getElem? {d : Ddc} {l : List Byte} (hlen : l.length = d.len)
    (h : ∀ i < d.len, l[i]? = some (pbufRead d i)) : d.payload = l := by
  apply List.ext_getElem?
  intro i
  by_cases hi : i < d.len
  · rw [d.payload_getElem? hi, h i hi]
  · rw [List.getElem?_eq_none (by rw [d.payload_length]; omega), List.getElem?_eq_none (by omega)]

/-- LOAD_COMPLETE leaves PBUF as it is. -/
theorem pbufRead_loadComplete (d : Ddc) (a : Nat) : pbufRead (loadComplete d) a = pbufRead d a := by
  simp [pbufRead]

theorem payload_loadComplete (d : Ddc) : (loadComplete d).payload = d.payload :=
  Ddc.payload_congr (loadComplete_curW d) (loadComplete_curH d) (loadComplete_pbuf d) (loadComplete_pbufEpoch d)

end Sys2Proof.Machine
end

section
/-! R76: the pixels of a grid. -/

namespace Sys2Proof.Machine

/-- The payload of the Frame of the grid that the pixels are for a DDC with its dimensions latched. -/
def Ddc.gridPayload (d : Ddc) (pixels : List Word) : List Byte :=
  framePayload d.curW.toNat d.curH.toNat (gridOf d.curW.toNat pixels)

/-- Column j of the group of eight columns in which column c of row r stands. -/
def groupColumn (w : Nat) (p : Nat → Nat → Bool) (r c j : Nat) : Bool := paddedPixel w p r (8 * (c / 8) + j)

/-- The DDC `e` that has packed the pixels before row r, column c, from the accepted DDC `d`: the complete groups are
stored, and ACC holds the columns of the group in progress (40_row_packer.md R74). -/
structure PackedTo (d : Ddc) (pixels : List Word) (r c : Nat) (e : Ddc) : Prop where
  row_lt : r < d.curH.toNat
  col_lt : c < d.curW.toNat
  frame : e = { d with
    row := BitVec.ofNat 8 r
    col := BitVec.ofNat 8 c
    acc := packBits (groupColumn d.curW.toNat (gridOf d.curW.toNat pixels) r c) (c % 8)
    pbuf := e.pbuf }
  stored : ∀ i < r * bpr d.curW.toNat + c / 8, (d.gridPayload pixels)[i]? = some (pbufRead e i)
  above : ∀ a, d.len ≤ a → pbufRead e a = pbufRead d a

/-- The DDC `e` that has packed all the pixels. -/
structure Packed (d : Ddc) (pixels : List Word) (e : Ddc) : Prop where
  payload : e.payload = d.gridPayload pixels
  frame : e = loadComplete { d with pbuf := e.pbuf, row := d.curH, col := 0#8, acc := 0#8 }
  above : ∀ a, d.len ≤ a → pbufRead e a = pbufRead d a

/-- Placing column c extends the group in ACC by that column. -/
theorem packBits_groupColumn_succ {w c : Nat} (p : Nat → Nat → Bool) (r : Nat) (h : c < w) :
    packBits (groupColumn w p r c) (c % 8) ||| placeBit (p r c) c = packBits (groupColumn w p r c) (c % 8 + 1) := by
  have hcol : groupColumn w p r c (c % 8) = p r c := by
    rw [groupColumn, Nat.div_add_mod, paddedPixel_inside p r h]
  have hplace : placeBit (p r c) (c % 8) = placeBit (p r c) c := by rw [placeBit, Nat.mod_mod, placeBit]
  rw [packBits_succ, hcol, hplace]

/-- When a group is complete ACC holds its byte: eight columns, or the row's last ones and padding (R70). -/
theorem packBits_groupColumn_complete {w c : Nat} (p : Nat → Nat → Bool) (r : Nat)
    (h : (c + 1) % 8 = 0 ∨ c + 1 = w) :
    packBits (groupColumn w p r c) (c % 8 + 1) = groupByte w p r (c / 8) := by
  rw [groupByte_eq_packBits]
  rcases h with h8 | hw
  · rw [show c % 8 + 1 = 8 by omega]
    rfl
  · refine (packBits_padding (by omega) fun j hj => ?_).symm
    exact paddedPixel_outside p r (by omega)

/-- The registers of a DDC that has packed up to row r, column c. -/
theorem PackedTo.position {d e : Ddc} {pixels : List Word} {r c : Nat} (h : PackedTo d pixels r c e) :
    e.row.toNat = r ∧ e.col.toNat = c ∧ e.curW = d.curW ∧ e.curH = d.curH := by
  have hh := d.curH.isLt
  have hw := d.curW.isLt
  have hr := h.row_lt
  have hc := h.col_lt
  have hmod : ∀ n < 256, (BitVec.ofNat 8 n).toNat = n := fun n hn => Nat.mod_eq_of_lt hn
  rw [h.frame]
  exact ⟨hmod r (by omega), hmod c (by omega), rfl, rfl⟩

/-- The pixel at row r, column c of the grid is the list's word at r * w + c. -/
theorem gridOf_eq_pixelBit {w r c : Nat} {pixels : List Word} {x : Word} (h : pixels[r * w + c]? = some x) :
    gridOf w pixels r c = pixelBit x := by
  rw [gridOf, h]
  rfl

/-- ACC after the pixel of row r, column c. -/
theorem PackedTo.acc_placePixel {d e : Ddc} {pixels : List Word} {r c : Nat} {x : Word}
    (h : PackedTo d pixels r c e) (hx : pixels[r * d.curW.toNat + c]? = some x) :
    (placePixel (pixelBit x) e).acc =
      packBits (groupColumn d.curW.toNat (gridOf d.curW.toNat pixels) r c) (c % 8 + 1) := by
  obtain ⟨-, hcol, -, -⟩ := h.position
  have hacc : e.acc = packBits (groupColumn d.curW.toNat (gridOf d.curW.toNat pixels) r c) (c % 8) := by rw [h.frame]
  rw [placePixel_acc, hcol, hacc, ← gridOf_eq_pixelBit hx, packBits_groupColumn_succ _ r h.col_lt]

/-- A pixel within a group goes to ACC alone. -/
theorem PackedTo.within {d e : Ddc} {pixels : List Word} {r c : Nat} {x : Word} (h : PackedTo d pixels r c e)
    (hx : pixels[r * d.curW.toNat + c]? = some x) (h8 : (c + 1) % 8 ≠ 0) (hw : c + 1 ≠ d.curW.toNat) :
    packPixel x e = .ok (placePixel (pixelBit x) e) ∧ PackedTo d pixels r (c + 1) (placePixel (pixelBit x) e) := by
  obtain ⟨-, hcol, hcurW, -⟩ := h.position
  have hc := h.col_lt
  have hgroup : groupColumn d.curW.toNat (gridOf d.curW.toNat pixels) r (c + 1) =
      groupColumn d.curW.toNat (gridOf d.curW.toNat pixels) r c := by
    funext j
    rw [groupColumn, show (c + 1) / 8 = c / 8 by omega, groupColumn]
  have hframe := h.frame
  refine ⟨packPixel_within x (by rw [hcol, hcurW]; exact hc) (by rw [hcol]; exact h8) (by rw [hcol, hcurW]; exact hw),
    h.row_lt, by omega, ?_, ?_, h.above⟩
  · rw [hgroup, show (c + 1) % 8 = c % 8 + 1 by omega, ← h.acc_placePixel hx, BitVec.ofNat_add]
    conv_lhs => rw [hframe]
    rw [hframe]
    rfl
  · rw [show (c + 1) / 8 = c / 8 by omega]
    exact h.stored

/-- The DDC `g` that has stored the group of row r, column c, before the end of the row is looked at. -/
structure GroupStored (d : Ddc) (pixels : List Word) (r c : Nat) (g : Ddc) : Prop where
  frame : g = { d with row := BitVec.ofNat 8 r, col := BitVec.ofNat 8 c + 1#8, acc := 0#8, pbuf := g.pbuf }
  stored : ∀ i < r * bpr d.curW.toNat + c / 8 + 1, (d.gridPayload pixels)[i]? = some (pbufRead g i)
  above : ∀ a, d.len ≤ a → pbufRead g a = pbufRead d a

/-- A pixel that completes its group stores the group's byte of the Frame (40_row_packer.md R70, R74). -/
theorem PackedTo.storeGroup {d e : Ddc} {pixels : List Word} {r c : Nat} {x : Word} (h : PackedTo d pixels r c e)
    (hx : pixels[r * d.curW.toNat + c]? = some x) (hg : (c + 1) % 8 = 0 ∨ c + 1 = d.curW.toNat) :
    GroupStored d pixels r c (storePixelGroup (pixelBit x) e) := by
  obtain ⟨hrow, hcol, hcurW, hcurH⟩ := h.position
  have hacc := h.acc_placePixel hx
  rw [packBits_groupColumn_complete _ r hg] at hacc
  have hsame := pbufRead_storePixelGroup_same (pixelBit x) e
  have hother := fun a => pbufRead_storePixelGroup_other (pixelBit x) e (a := a)
  rw [hrow, hcol, hcurW] at hsame hother
  have haddr : r * bpr d.curW.toNat + c / 8 < d.len := by
    have hlt := pixelAddr_lt_len (d := e) (by rw [hrow, hcurH]; exact h.row_lt) (by rw [hcol, hcurW]; exact h.col_lt)
    rwa [hrow, hcol, hcurW, Ddc.len_congr hcurW hcurH] at hlt
  refine ⟨?frame, fun i hi => ?stored, fun a ha => ?above⟩
  case frame =>
    have hframe := h.frame
    rw [storePixelGroup, hframe]
  case stored =>
    rcases Nat.lt_succ_iff_lt_or_eq.mp hi with hlt | rfl
    · rw [hother i (by omega), h.stored i hlt]
    · rw [hsame, hacc, Ddc.gridPayload, framePayload_getElem? _ h.row_lt (col_div_lt_bpr h.col_lt)]
  case above => rw [hother a (by omega), h.above a ha]

/-- Within a row the next pixel begins a new group. -/
theorem GroupStored.within {d g : Ddc} {pixels : List Word} {r c : Nat} (h : GroupStored d pixels r c g)
    (hr : r < d.curH.toNat) (hc : c + 1 < d.curW.toNat) (h8 : (c + 1) % 8 = 0) :
    PackedTo d pixels r (c + 1) g where
  row_lt := hr
  col_lt := hc
  frame := by rw [h8, BitVec.ofNat_add]; exact h.frame
  stored := by rw [show (c + 1) / 8 = c / 8 + 1 by omega]; exact h.stored
  above := h.above

/-- At the end of a row all its bytes are stored. -/
theorem GroupStored.row_stored {d g : Ddc} {pixels : List Word} {r c : Nat} (h : GroupStored d pixels r c g)
    (hc : c + 1 = d.curW.toNat) :
    ∀ i < (r + 1) * bpr d.curW.toNat, (d.gridPayload pixels)[i]? = some (pbufRead g i) := by
  rw [Nat.succ_mul, show r * bpr d.curW.toNat + bpr d.curW.toNat = r * bpr d.curW.toNat + c / 8 + 1 by
    rw [Nat.add_assoc, ← bpr_eq_of_last hc]]
  exact h.stored

theorem GroupStored.nextRow {d g : Ddc} {pixels : List Word} {r c : Nat} (h : GroupStored d pixels r c g)
    (hr : r + 1 < d.curH.toNat) (hc : c + 1 = d.curW.toNat) :
    PackedTo d pixels (r + 1) 0 { g with col := 0#8, row := g.row + 1#8 } where
  row_lt := hr
  col_lt := by omega
  frame := by
    have hrow : g.row = BitVec.ofNat 8 r := by rw [h.frame]
    rw [hrow, BitVec.ofNat_add]
    conv_lhs => rw [h.frame]
    rfl
  stored := h.row_stored hc
  above := h.above

theorem GroupStored.lastRow {d g : Ddc} {pixels : List Word} {r c : Nat} (h : GroupStored d pixels r c g)
    (hr : r + 1 = d.curH.toNat) (hc : c + 1 = d.curW.toNat) :
    Packed d pixels (loadComplete { g with col := 0#8, row := g.row + 1#8 }) := by
  have hrow : g.row + 1#8 = d.curH := by
    have hg : g.row = BitVec.ofNat 8 r := by rw [h.frame]
    rw [hg, ← BitVec.ofNat_add, hr, BitVec.ofNat_toNat, BitVec.setWidth_eq]
  have hg : ({ g with col := 0#8, row := d.curH } : Ddc) =
      { d with pbuf := g.pbuf, row := d.curH, col := 0#8, acc := 0#8 } := by
    conv_lhs => rw [h.frame]
  have hstored := h.row_stored hc
  rw [hr] at hstored
  rw [hrow, hg]
  refine ⟨?payload, by rw [loadComplete_pbuf], fun a ha => ?above⟩
  case payload =>
    rw [payload_loadComplete]
    have hread : ∀ i, pbufRead { d with pbuf := g.pbuf, row := d.curH, col := 0#8, acc := 0#8 } i = pbufRead g i := by
      intro i
      rw [← hg]
      rfl
    refine Ddc.payload_eq_of_getElem? (framePayload_length _ _ _) fun i hi => ?_
    rw [hread]
    exact hstored i hi
  case above =>
    rw [pbufRead_loadComplete, ← hg]
    exact h.above a ha

/-- The DDC `e` that has packed the first n pixels of a grid. -/
def PackedAt (d : Ddc) (pixels : List Word) (n : Nat) (e : Ddc) : Prop :=
  ∃ r c, n = r * d.curW.toNat + c ∧ PackedTo d pixels r c e

/-- Before the first pixel the accepted DDC stands at row 0, column 0 (43_commands.md R99). -/
theorem PackedAt.zero {d : Ddc} (pixels : List Word) (hr : d.row = 0#8) (hc : d.col = 0#8) (ha : d.acc = 0#8)
    (hw : d.curW ≠ 0#8) (hh : d.curH ≠ 0#8) : PackedAt d pixels 0 d := by
  have hpos : ∀ x : BitVec 8, x ≠ 0#8 → 0 < x.toNat := fun x hx =>
    Nat.pos_of_ne_zero fun h0 => hx (BitVec.eq_of_toNat_eq h0)
  refine ⟨0, 0, (Nat.zero_mul _).symm, hpos _ hh, hpos _ hw, ?_, ?_, fun _ _ => rfl⟩
  · obtain ⟨⟩ := d
    subst hr hc ha
    rfl
  · rw [Nat.zero_mul]
    nofun

theorem PackedAt.bound {d e : Ddc} {pixels : List Word} {n : Nat} (h : PackedAt d pixels n e) :
    n < d.curW.toNat * d.curH.toNat := by
  obtain ⟨r, c, rfl, hp⟩ := h
  calc r * d.curW.toNat + c < (r + 1) * d.curW.toNat := by rw [Nat.succ_mul]; exact Nat.add_lt_add_left hp.col_lt _
    _ ≤ d.curH.toNat * d.curW.toNat := Nat.mul_le_mul_right _ hp.row_lt
    _ = d.curW.toNat * d.curH.toNat := Nat.mul_comm _ _

theorem PackedAt.phase_opc {d e : Ddc} {pixels : List Word} {n : Nat} (h : PackedAt d pixels n e) :
    e.phase = d.phase ∧ e.opc = d.opc := by
  obtain ⟨r, c, -, hp⟩ := h
  rw [hp.frame]
  exact ⟨rfl, rfl⟩

/-- PACK_PIXEL of the next pixel moves on in the grid, or completes the load at its last pixel. -/
theorem PackedAt.step {d e : Ddc} {pixels : List Word} {n : Nat} {x : Word} (h : PackedAt d pixels n e)
    (hx : pixels[n]? = some x) :
    ∃ e', packPixel x e = .ok e' ∧
      (PackedAt d pixels (n + 1) e' ∨ (n + 1 = d.curW.toNat * d.curH.toNat ∧ Packed d pixels e')) := by
  obtain ⟨r, c, rfl, hp⟩ := h
  obtain ⟨hrow, hcol, hcurW, hcurH⟩ := hp.position
  have hr := hp.row_lt
  have hc := hp.col_lt
  by_cases hg : (c + 1) % 8 = 0 ∨ c + 1 = d.curW.toNat
  · have hr' : e.row.toNat < e.curH.toNat := by rw [hrow, hcurH]; exact hr
    have hc' : e.col.toNat < e.curW.toNat := by rw [hcol, hcurW]; exact hc
    have hpack := packPixel_complete x hr' hc' (by rw [hcol, hcurW]; exact hg)
    have hstored := hp.storeGroup hx hg
    have hends := storePixelGroup_endsRow_iff (pixelBit x) hc'
    have hlast := storePixelGroup_lastRow_iff (pixelBit x) hr'
    rw [hcol, hcurW] at hends
    rw [hrow, hcurH] at hlast
    refine ⟨_, hpack, ?_⟩
    by_cases hw : c + 1 = d.curW.toNat
    · by_cases hh : r + 1 = d.curH.toNat
      · rw [endRow_lastRow (hends.mpr hw) (hlast.mpr hh)]
        refine .inr ⟨?_, hstored.lastRow hh hw⟩
        rw [Nat.add_assoc, hw, ← Nat.add_one_mul, hh, Nat.mul_comm]
      · rw [endRow_nextRow (hends.mpr hw) (mt hlast.mp hh)]
        refine .inl ⟨r + 1, 0, ?_, hstored.nextRow (by omega) hw⟩
        rw [Nat.add_assoc, hw, ← Nat.add_one_mul]
        rfl
    · rw [endRow_within (mt hends.mp hw)]
      exact .inl ⟨r, c + 1, rfl, hstored.within hr (by omega) (hg.resolve_right hw)⟩
  · obtain ⟨h8, hw⟩ := not_or.mp hg
    obtain ⟨hpack, hp'⟩ := hp.within hx h8 hw
    exact ⟨_, hpack, .inl ⟨r, c + 1, rfl, hp'⟩⟩

/-- PACK_PIXEL takes the pixels of a grid one after the other. -/
theorem loads_packPixel {d : Ddc} {pixels : List Word} (hlen : pixels.length = d.curW.toNat * d.curH.toNat) :
    Loads packPixel pixels (PackedAt d pixels) (Packed d pixels) where
  bound h := hlen ▸ h.bound
  step h hx := hlen ▸ h.step hx

/-- Settles O20, pixel by pixel. -/
theorem packingAGridStoresItsFramePayload : Obligations.PackingAGridStoresItsFramePayload := by
  intro d pixels hp _ hr hc ha hw hh hlen
  have hloads := loads_packPixel hlen
  have h0 := PackedAt.zero pixels hr hc ha hw hh
  obtain ⟨t, ht, hpacked⟩ := hloads.all h0
  refine ⟨t, (packAll_eq_foldlM _ _).trans ht, hpacked.payload, hpacked.frame, hpacked.above, fun n hn => ?_⟩
  obtain ⟨u, hu, hat⟩ := hloads.take h0 hn
  exact ⟨u, (packAll_eq_foldlM _ _).trans hu, hat.phase_opc.1.trans hp⟩

end Sys2Proof.Machine
end

section
/-! R90: the bytes of a frame. -/

namespace Sys2Proof.Machine

/-- The DDC with the header loaded and n payload bytes stored, with PBUF as given (42_run_length.md R90). -/
def Ddc.withHeader (d : Ddc) (w h : Byte) (n : Nat) (m : Memory) : Ddc :=
  { d with curW := w, curH := h, hdrCnt := 2#2, pidx := BitVec.ofNat 13 n, pbuf := m }

/-- The DDC that has loaded the first bytes of a Frame, from the accepted DDC `d`: none, the width, or both header bytes
and some bytes of the payload (42_run_length.md R90). -/
inductive LoadedAt (d : Ddc) (w h : Byte) (payload : List Byte) : Nat → Ddc → Prop
  | start : LoadedAt d w h payload 0 d
  | width : LoadedAt d w h payload 1 { d with curW := w, hdrCnt := 1#2 }
  | payload {n : Nat} {m : Memory} (hn : n < payload.length)
      (hstored : ∀ i < n, payload[i]? = some (pbufRead (d.withHeader w h n m) i))
      (habove : ∀ a, payload.length ≤ a → pbufRead (d.withHeader w h n m) a = pbufRead d a) :
      LoadedAt d w h payload (n + 2) (d.withHeader w h n m)

/-- The DDC `e` that has loaded the whole Frame. -/
structure FrameLoaded (d : Ddc) (w h : Byte) (payload : List Byte) (e : Ddc) : Prop where
  holds : e.payload = payload
  frame : e = loadComplete (d.withHeader w h payload.length e.pbuf)
  above : ∀ a, payload.length ≤ a → pbufRead e a = pbufRead d a

variable {d e : Ddc} {w h : Byte} {payload : List Byte} {n : Nat}

@[simp] theorem Ddc.withHeader_len (d : Ddc) (w h : Byte) (n : Nat) (m : Memory) :
    (d.withHeader w h n m).len = h.toNat * bpr w.toNat := rfl

/-- A Frame's payload has at most 8160 bytes, so PIDX counts them (10_state.md R31). -/
theorem Ddc.toNat_withHeader_pidx (d : Ddc) (m : Memory) (hn : n ≤ h.toNat * bpr w.toNat) :
    (d.withHeader w h n m).pidx.toNat = n := by
  have hl : (d.withHeader w h n m).len ≤ 8160 := Ddc.len_le _
  rw [Ddc.withHeader_len] at hl
  exact Nat.mod_eq_of_lt (by omega)

/-- With all its bytes stored a Frame is loaded. -/
theorem frameLoaded_of_stored {m : Memory} (hlen : payload.length = h.toNat * bpr w.toNat)
    (hstored : ∀ i < payload.length, payload[i]? = some (pbufRead (d.withHeader w h payload.length m) i))
    (habove : ∀ a, payload.length ≤ a → pbufRead (d.withHeader w h payload.length m) a = pbufRead d a) :
    FrameLoaded d w h payload (loadComplete (d.withHeader w h payload.length m)) where
  holds := by
    rw [payload_loadComplete]
    refine Ddc.payload_eq_of_getElem? hlen fun i hi => hstored i ?_
    rwa [hlen, ← d.withHeader_len w h payload.length m]
  frame := by rw [loadComplete_pbuf]; rfl
  above a ha := by rw [pbufRead_loadComplete]; exact habove a ha

theorem LoadedAt.bound (hat : LoadedAt d w h payload n e) : n < payload.length + 2 := by
  cases hat with
  | start => omega
  | width => omega
  | payload hn => omega

theorem LoadedAt.phase_opc (hat : LoadedAt d w h payload n e) : e.phase = d.phase ∧ e.opc = d.opc := by
  cases hat <;> exact ⟨rfl, rfl⟩

/-- LOAD_FRAME_BYTE of the height begins the payload, or completes an empty frame. -/
theorem loadHeight_loadedAt (hlen : payload.length = h.toNat * bpr w.toNat) :
    LoadedAt d w h payload 2 (loadHeight h { d with curW := w, hdrCnt := 1#2 })
      ∨ (payload.length = 0 ∧ FrameLoaded d w h payload (loadHeight h { d with curW := w, hdrCnt := 1#2 })) := by
  by_cases h0 : payload.length = 0
  · have hempty : loadHeight h { d with curW := w, hdrCnt := 1#2 } = loadComplete (d.withHeader w h 0 d.pbuf) :=
      loadHeight_empty (hlen.symm.trans h0)
    rw [hempty, ← h0]
    exact .inr ⟨rfl, frameLoaded_of_stored hlen (by rw [h0]; nofun) fun _ _ => rfl⟩
  · have hmore : loadHeight h { d with curW := w, hdrCnt := 1#2 } = d.withHeader w h 0 d.pbuf :=
      loadHeight_nonempty (hlen ▸ h0)
    rw [hmore]
    exact .inl (.payload (Nat.pos_of_ne_zero h0) nofun fun _ _ => rfl)

/-- LOAD_FRAME_BYTE of a payload byte stores it, and the last one completes the frame. -/
theorem advancePidx_loadedAt {m : Memory} {v : Byte} (hlen : payload.length = h.toNat * bpr w.toNat)
    (hn : n < payload.length) (hv : payload[n]? = some v)
    (hstored : ∀ i < n, payload[i]? = some (pbufRead (d.withHeader w h n m) i))
    (habove : ∀ a, payload.length ≤ a → pbufRead (d.withHeader w h n m) a = pbufRead d a) :
    LoadedAt d w h payload (n + 3) (advancePidx (storeFrameByte v (d.withHeader w h n m)))
      ∨ (n + 1 = payload.length ∧
        FrameLoaded d w h payload (advancePidx (storeFrameByte v (d.withHeader w h n m)))) := by
  have hpidx := d.toNat_withHeader_pidx (w := w) (h := h) (n := n) m (by omega)
  have hpidx' : (storeFrameByte v (d.withHeader w h n m)).pidx.toNat = n := hpidx
  have hlen' : (storeFrameByte v (d.withHeader w h n m)).len = payload.length := hlen.symm
  have hlt : (storeFrameByte v (d.withHeader w h n m)).pidx.toNat < (storeFrameByte v (d.withHeader w h n m)).len := by
    rwa [hpidx', hlen']
  have hnext : ({ storeFrameByte v (d.withHeader w h n m) with
      pidx := (storeFrameByte v (d.withHeader w h n m)).pidx + 1#13 } : Ddc) =
        d.withHeader w h (n + 1) (m.set n v) := by
    rw [storeFrameByte, hpidx, Ddc.withHeader, Ddc.withHeader, BitVec.ofNat_add]
  have hread : ∀ i, pbufRead (d.withHeader w h (n + 1) (m.set n v)) i =
      pbufRead { d.withHeader w h n m with pbuf := (d.withHeader w h n m).pbuf.set n v } i := fun _ => rfl
  have hstored' : ∀ i < n + 1, payload[i]? = some (pbufRead (d.withHeader w h (n + 1) (m.set n v)) i) := by
    intro i hi
    rw [hread]
    rcases Nat.lt_succ_iff_lt_or_eq.mp hi with hlt | rfl
    · rw [pbufRead_set_other _ v (by omega), hstored i hlt]
    · rw [pbufRead_set_same, hv]
  have habove' : ∀ a, payload.length ≤ a → pbufRead (d.withHeader w h (n + 1) (m.set n v)) a = pbufRead d a := by
    intro a ha
    rw [hread, pbufRead_set_other _ v (by omega), habove a ha]
  have hend : (storeFrameByte v (d.withHeader w h n m)).pidx.toNat + 1 =
      (storeFrameByte v (d.withHeader w h n m)).len ↔ n + 1 = payload.length := by
    rw [hpidx', hlen']
  by_cases hlast : n + 1 = payload.length
  · rw [advancePidx_last hlt (hend.mpr hlast), hnext]
    rw [hlast] at hstored' habove' ⊢
    exact .inr ⟨rfl, frameLoaded_of_stored hlen hstored' habove'⟩
  · rw [advancePidx_more hlt (mt hend.mp hlast), hnext]
    exact .inl (.payload (by omega) hstored' habove')

/-- LOAD_FRAME_BYTE of the next byte of the Frame moves on, or completes the load at the last. -/
theorem LoadedAt.step {x : Word} (hat : LoadedAt d w h payload n e) (hcnt : d.hdrCnt = 0#2)
    (hlen : payload.length = h.toNat * bpr w.toNat) (hx : (w :: h :: payload)[n]? = some (inByte x)) :
    ∃ e', loadFrameByte x e = .ok e' ∧
      (LoadedAt d w h payload (n + 1) e' ∨ (n + 1 = payload.length + 2 ∧ FrameLoaded d w h payload e')) := by
  cases hat with
  | start =>
    obtain rfl : w = inByte x := Option.some.inj hx
    exact ⟨_, loadFrameByte_width x hcnt, .inl .width⟩
  | width =>
    obtain rfl : h = inByte x := Option.some.inj hx
    refine ⟨_, loadFrameByte_height x rfl, (loadHeight_loadedAt hlen).imp_right fun ⟨h0, hl⟩ => ⟨by omega, hl⟩⟩
  | @payload n m hn hstored habove =>
    have hv : payload[n]? = some (inByte x) := hx
    have hpidx := d.toNat_withHeader_pidx (w := w) (h := h) (n := n) m (by omega)
    have hlt : (d.withHeader w h n m).pidx.toNat < (d.withHeader w h n m).len := by
      rw [hpidx, Ddc.withHeader_len]
      omega
    exact ⟨_, loadFrameByte_payload x rfl hlt,
      (advancePidx_loadedAt hlen hn hv hstored habove).imp_right fun ⟨hl, hd⟩ => ⟨by omega, hd⟩⟩

/-- LOAD_FRAME_BYTE takes the bytes of a Frame one after the other. -/
theorem loads_loadFrameByte {ws : List Word} (hws : ws.map inByte = w :: h :: payload)
    (hlen : payload.length = h.toNat * bpr w.toNat) (hcnt : d.hdrCnt = 0#2) :
    Loads loadFrameByte ws (LoadedAt d w h payload) (FrameLoaded d w h payload) := by
  have hwl : ws.length = payload.length + 2 := by rw [← List.length_map (f := inByte), hws]; rfl
  refine ⟨fun hat => hwl ▸ hat.bound, fun {n e x} hat hx => ?_⟩
  rw [hwl]
  refine hat.step hcnt hlen ?_
  rw [← hws, List.getElem?_map, hx]
  rfl

end Sys2Proof.Machine
end

section
/-! R90 over a whole Frame. -/

namespace Sys2Proof.Machine

/-- Settles O23, byte by byte. -/
theorem loadingAFrameStoresItsPayload : Obligations.LoadingAFrameStoresItsPayload := by
  intro d ws w h payload hp _ hcnt hws hlen
  have hloads := loads_loadFrameByte (d := d) hws hlen hcnt
  obtain ⟨t, ht, hloaded⟩ := hloads.all .start
  refine ⟨t, (loadAll_eq_foldlM _ _).trans ht, hloaded.holds, hloaded.frame, hloaded.above, fun n hn => ?_⟩
  obtain ⟨u, hu, hat⟩ := hloads.take .start hn
  exact ⟨u, (loadAll_eq_foldlM _ _).trans hu, hat.phase_opc.1.trans hp⟩

end Sys2Proof.Machine
end

section
/-! R107: a run in which a HOST gives a command its input and then reads its output. -/

namespace Sys2Proof.Machine

/-- A state of a run that ends in `t`, with the invariant, no RESET to come, and the bytes `base` delivered so far. -/
structure State.Toward (depth : Nat) (base : List Byte) (s t : State) : Prop where
  inv : s.Inv depth
  noReset : Turn.reset ∉ s.turns
  delivered : s.delivered = base
  reaches : ∃ k, runAt depth k s = .next t

/-- While the ENGINE rests, the next thing that happens is the HOST's next access. -/
theorem State.Toward.nextAccess {depth : Nat} {base : List Byte} {s t : State} {a : BusAccess}
    {rest : List BusAccess} (h : s.Toward depth base t) (hen : engineEnabled depth s.ddc = false)
    (hb : s.bus = a :: rest) (ht : t.bus = []) :
    ∃ s₀ s' : State, s₀.ddc = s.ddc ∧ exec (decode a) s₀ = .next s' ∧ s'.bus = rest ∧ s'.Toward depth base t := by
  obtain ⟨hi, hr, hd, k, hk⟩ := h
  induction k generalizing s with
  | zero => cases hk; rw [hb] at ht; cases ht
  | succ k ih =>
    cases e : stepAt depth s with
    | next s' =>
      rw [runAt_succ e] at hk
      cases stepAt_move e (nextTurn_reset hr) with
      | idle hddc hbus hreads =>
        obtain ⟨s₀, s'', hs₀, hrest⟩ := ih (hddc ▸ hen) (hbus.trans hb) (stepAt_inv hi e) (stepAt_keeps_noReset e hr)
          ((State.delivered_congr hddc hreads).trans hd) hk
        exact ⟨s₀, s'', hs₀.trans hddc, hrest⟩
      | access a' hb' he =>
        obtain ⟨rfl, hbus⟩ := List.cons.inj (hb.symm.trans hb')
        exact ⟨{ s with bus := s'.bus, turns := s'.turns }, s', rfl, he, hbus.symm, stepAt_inv hi e,
          stepAt_keeps_noReset e hr, (exec_delivered he).trans hd, k, hk⟩
      | engine hen' => rw [hen] at hen'; cases hen'
    | fault f => rw [runAt, e] at hk; cases hk
    | refused r => rw [runAt, e] at hk; cases hk

/-- The next access is a DIM write to an idle DDC. -/
theorem State.Toward.dimWrite {depth : Nat} {base : List Byte} {s t : State} {w : Word} {rest : List BusAccess}
    (h : s.Toward depth base t) (hp : s.ddc.phase = .idle) (hb : s.bus = wr .dim w :: rest) (ht : t.bus = []) :
    ∃ s' : State, s'.ddc = { s.ddc with dim := w } ∧ s'.bus = rest ∧ s'.Toward depth base t := by
  obtain ⟨s₀, s', hs₀, he, hrest⟩ := h.nextAccess (by simp [engineEnabled, hp]) hb ht
  rw [decode_wr, writeInstr, exec_wrDim] at he
  cases he
  exact ⟨_, by rw [hs₀], hrest⟩

/-- The next access is a CMD write to an idle DDC. -/
theorem State.Toward.command {depth : Nat} {base : List Byte} {s t : State} {w : Word} {rest : List BusAccess}
    (h : s.Toward depth base t) (hp : s.ddc.phase = .idle) (hb : s.bus = wr .cmd w :: rest) (ht : t.bus = []) :
    ∃ s' : State, s'.ddc = cmdWrite w s.ddc ∧ s'.bus = rest ∧ s'.Toward depth base t := by
  obtain ⟨s₀, s', hs₀, he, hrest⟩ := h.nextAccess (by simp [engineEnabled, hp]) hb ht
  have hcmd : exec (commandOf w) s₀ = exec (.wrCmd w) s₀ := by
    rcases commandOf_cases w with ⟨rfl, hw⟩ | ⟨rfl, hw⟩ | ⟨rfl, hw⟩ | ⟨-, hw⟩ <;> rw [hw] <;> rfl
  rw [decode_wr, writeInstr, hcmd, exec_wrCmd] at he
  cases he
  exact ⟨_, by rw [hs₀], hrest⟩

/-- The input is loaded access by access. -/
theorem State.Toward.load {depth : Nat} {base : List Byte} {t : State} {ws : List Word} {At : Nat → Ddc → Prop}
    {Done : Ddc → Prop} (hl : Loads inDataWrite ws At Done) (hphase : ∀ n e, At n e → e.phase = .load)
    {tail : List BusAccess} (ht : t.bus = []) {n : Nat} {s : State} (h : s.Toward depth base t) (hat : At n s.ddc)
    (hb : s.bus = (ws.drop n).map (wr .inData) ++ tail) :
    ∃ s' : State, Done s'.ddc ∧ s'.bus = tail ∧ s'.Toward depth base t := by
  have hn := hl.bound hat
  rw [List.drop_eq_getElem_cons hn] at hb
  obtain ⟨s₀, s', hs₀, he, hbus, h'⟩ := h.nextAccess (by simp [engineEnabled, hphase n _ hat]) hb ht
  rw [decode_wr] at he
  have hin : inDataWrite ws[n] s₀.ddc = .ok s'.ddc := State.ddc_of_after_eq_next he
  obtain ⟨e, he', hnext⟩ := hl.step hat (List.getElem?_eq_getElem hn)
  rw [← hs₀, hin] at he'
  obtain rfl := Except.ok.inj he'
  rcases hnext with hat' | ⟨hend, hdone⟩
  · exact State.Toward.load hl hphase ht h' hat' hbus
  · rw [hend, List.drop_length] at hbus
    exact ⟨s', hdone, hbus, h'⟩
termination_by ws.length - n

/-- The load of a command is complete: its operation, its Frame, and ERR as it was. -/
structure Ddc.LoadDone (op : Opc) (w h : Byte) (payload : List Byte) (err : BitVec 4) (d : Ddc) : Prop where
  completed : ∃ e, d = loadComplete e
  opc : d.opc = op
  curW : d.curW = w
  curH : d.curH = h
  payload : d.payload = payload
  err : d.err = err

/-- A HOST that only reads OUT_DATA, while the command whose output is `out` is counted, emitted, or at its end. -/
structure State.Delivering (base out : List Byte) (err : BitVec 4) (s : State) : Prop where
  reads : ∀ a ∈ s.bus, decode a = .rdOutData
  err : s.ddc.err = err
  progress : (s.ddc.phase = .count ∧ s.ddc.output = out ∧ s.delivered = base)
    ∨ s.Emitting base out ∨ s.Emitted base out

/-- A state that enters EMIT has delivered nothing of OSEQ, which is the command's output. -/
theorem State.Emitting.start {depth : Nat} {base out : List Byte} {s : State} (hi : s.Inv depth)
    (hp : s.ddc.phase = .emit) (he : s.ddc.eidx = 0#17) (ho : s.ddc.output = out) (hd : s.delivered = base) :
    s.Emitting base out :=
  ⟨hp, (Ddc.Inv.oseq_eq_output hi hp).trans ho, by rw [he, hd]; exact (List.append_nil _).symm⟩

/-- After LOAD_COMPLETE nothing of the output is delivered yet. -/
theorem State.Delivering.start {depth : Nat} {base out : List Byte} {s : State} {d : Ddc} (hi : s.Inv depth)
    (hs : s.ddc = loadComplete d) (ho : s.ddc.output = out) (hd : s.delivered = base)
    (hreads : ∀ a ∈ s.bus, decode a = .rdOutData) : s.Delivering base out s.ddc.err := by
  refine ⟨hreads, rfl, ?_⟩
  rcases loadComplete_cases d with ⟨-, e⟩ | ⟨-, e⟩ <;> rw [e] at hs
  · exact .inr (.inl (.start hi (by rw [hs]) (by rw [hs]) ho hd))
  · exact .inl ⟨by rw [hs], ho, hd⟩

/-- The ENGINE's step takes a counted command on, and into EMIT after the last bit. -/
theorem State.engine_count {depth : Nat} {base out : List Byte} {s t : State} (hi' : t.Inv depth)
    (hp : s.ddc.phase = .count) (ho : s.ddc.output = out) (hd : s.delivered = base)
    (hen : engineEnabled depth s.ddc = true) (hact : engineAct s.ddc = .ok t.ddc) (hr : t.reads = s.reads) :
    (t.ddc.phase = .count ∧ t.ddc.output = out ∧ t.delivered = base) ∨ t.Emitting base out := by
  rcases engineAct_cases hen with ⟨-, -, e⟩ | ⟨-, -, e⟩ | ⟨hp', -⟩
  · have hddc := Except.ok.inj (hact.symm.trans e)
    refine .inl ⟨by rw [hddc]; exact hp, by rw [hddc]; exact ho, ?_⟩
    rw [State.delivered, hr, hddc]
    exact hd
  · have hddc := Except.ok.inj (hact.symm.trans e)
    refine .inr (.start hi' (by rw [hddc]; rfl) (by rw [hddc]; rfl) (by rw [hddc]; exact ho) ?_)
    rw [State.delivered, hr, hddc]
    exact hd
  · rw [hp] at hp'; cases hp'

/-- A read of OUT_DATA takes a byte from OUTQ, and nothing else of the DDC changes. -/
theorem exec_rdOutData_ddc {s t : State} (h : exec .rdOutData s = .next t) :
    t.ddc = { s.ddc with outq := s.ddc.outq.tail } := by
  rw [exec_rdOutData] at h
  cases h
  rfl

/-- A step that leaves the command and ERR where they stand and delivers nothing leaves it delivering. -/
theorem State.Delivering.of_outq {base out : List Byte} {err : BitVec 4} {s t : State} {q : List Byte}
    (h : s.Delivering base out err) (hd : t.ddc = { s.ddc with outq := q }) (hq : t.delivered = s.delivered)
    (hreads : ∀ a ∈ t.bus, decode a = .rdOutData) : t.Delivering base out err := by
  have hsame : s.ddc.SameCommand t.ddc := by rw [hd]; rfl
  refine ⟨hreads, by rw [hd]; exact h.err, ?_⟩
  rcases h.progress with ⟨hp, ho, hb⟩ | hem | ⟨hp, hdone, hlen, hb⟩
  · exact .inl ⟨hsame.phase.trans hp, by rw [hd]; exact ho, hq.trans hb⟩
  · exact .inr (.inl (hem.of_sameCommand hsame hq))
  · exact .inr (.inr ⟨hsame.phase.trans hp, by rw [hd]; exact hdone, by rw [hd]; exact hlen, hq.trans hb⟩)

/-- A step that is no RESET goes on delivering. -/
theorem State.Delivering.step {depth : Nat} {base out : List Byte} {err : BitVec 4} {s t : State} (hi : s.Inv depth)
    (h : s.Delivering base out err) (hs : stepAt depth s = .next t) (hr : Turn.reset ∉ s.turns) :
    t.Delivering base out err := by
  cases stepAt_move hs (nextTurn_reset hr) with
  | idle hd hb hr =>
    exact h.of_outq (q := s.ddc.outq) hd (State.delivered_congr hd hr) (hb ▸ h.reads)
  | access a hb he =>
    have hreads := h.reads
    rw [hb] at hreads
    obtain ⟨ha, hrest⟩ := List.forall_mem_cons.mp hreads
    have hdel := exec_delivered (s := { s with bus := t.bus, turns := t.turns }) he
    rw [ha] at he
    exact h.of_outq (exec_rdOutData_ddc (s := { s with bus := t.bus, turns := t.turns }) he) hdel hrest
  | engine hen hact hb hreads =>
    refine ⟨hb ▸ h.reads, (engineAct_keeps hen hact).2.trans h.err, ?_⟩
    rcases h.progress with ⟨hp, ho, hd⟩ | hem | hend
    · exact (State.engine_count (stepAt_inv hi hs) hp ho hd hen hact hreads).imp_right .inl
    · exact .inr (hem.engine hi hen hact hreads)
    · rw [engineEnabled, hend.phase] at hen
      cases hen

/-- When the run ends in IDLE all of the output has been delivered. -/
theorem State.Delivering.run {depth : Nat} {base out : List Byte} {err : BitVec 4} {s t : State}
    (h : s.Delivering base out err) (htw : s.Toward depth base t) (hp : t.ddc.phase = .idle) :
    t.Emitted base out ∧ t.ddc.err = err := by
  obtain ⟨hi, hr, -, k, hk⟩ := htw
  obtain ⟨-, -, hdel⟩ := runAt_induction
    (P := fun s => s.Inv depth ∧ Turn.reset ∉ s.turns ∧ s.Delivering base out err)
    (fun _ _ ⟨hi, hr, h⟩ hs => ⟨stepAt_inv hi hs, stepAt_keeps_noReset hs hr, h.step hi hs hr⟩) ⟨hi, hr, h⟩ hk
  refine ⟨?_, hdel.err⟩
  rcases hdel.progress with ⟨hp', -⟩ | hem | hend
  · exact nomatch hp.symm.trans hp'
  · exact nomatch hp.symm.trans hem.phase
  · exact hend

/-- The output of a loaded command: its Frame for ENC, and that Frame's RunStream otherwise. -/
theorem Ddc.LoadDone.output_eq {op : Opc} {w h : Byte} {payload : List Byte} {err : BitVec 4} {d : Ddc}
    (hd : d.LoadDone op w h payload err) :
    d.output = if op = .enc then w :: h :: payload else runStream w h payload := by
  rw [Ddc.output, hd.opc, hd.curW, hd.curH, hd.payload]

/-- From the complete load on, the run delivers the output of the command. -/
theorem State.Toward.deliver {depth n : Nat} {base : List Byte} {s t : State} {op : Opc} {w h : Byte}
    {payload : List Byte} {err : BitVec 4} (htw : s.Toward depth base t)
    (hd : s.ddc.LoadDone op w h payload err) (hb : s.bus = List.replicate n (rd .outData)) (hp : t.ddc.phase = .idle) :
    t.Emitted base (if op = .enc then w :: h :: payload else runStream w h payload) ∧ t.ddc.err = err := by
  obtain ⟨e, he⟩ := hd.completed
  have hreads : ∀ a ∈ s.bus, decode a = .rdOutData := by
    rw [hb]
    intro a ha
    rw [List.eq_of_mem_replicate ha]
    exact decode_rd .outData
  have hstart := State.Delivering.start htw.inv he hd.output_eq htw.delivered hreads
  rw [hd.err] at hstart
  exact hstart.run htw hp

end Sys2Proof.Machine
end

section
/-! R107 for RLE. -/

namespace Sys2Proof.Machine

/-- In LOAD of RLE the bytes of a Frame are taken one after the other. -/
theorem loads_frame {d : Ddc} {ws : List Word} {w h : Byte} {payload : List Byte} (hp : d.phase = .load)
    (ho : d.opc = .rle) (hcnt : d.hdrCnt = 0#2) (hws : ws.map inByte = w :: h :: payload)
    (hlen : payload.length = h.toNat * bpr w.toNat) :
    Loads inDataWrite ws (LoadedAt d w h payload) (FrameLoaded d w h payload) := by
  have hl := loads_loadFrameByte (d := d) hws hlen hcnt
  refine ⟨hl.bound, fun {n e x} hat hx => ?_⟩
  obtain ⟨hp', ho'⟩ := hat.phase_opc
  have hin : inDataWrite x e = loadFrameByte x e := by simp [inDataWrite, hp', ho', hp, ho]
  rw [hin]
  exact hl.step hat hx

theorem FrameLoaded.loadDone {d e : Ddc} {w h : Byte} {payload : List Byte} (he : FrameLoaded d w h payload e) :
    e.LoadDone d.opc w h payload d.err where
  completed := ⟨_, he.frame⟩
  opc := by rw [he.frame, loadComplete_opc]; rfl
  curW := by rw [he.frame, loadComplete_curW]; rfl
  curH := by rw [he.frame, loadComplete_curH]; rfl
  payload := he.holds
  err := by rw [he.frame, loadComplete_err]; rfl

/-- What is delivered at the end of a run that had nothing queued at its start. -/
theorem State.delivered_of_outq_nil {s : State} (h : s.ddc.outq = []) : s.delivered = outputStream s.reads := by
  rw [State.delivered, h, List.append_nil]

/-- Settles O50: the command, the Frame's bytes, and the RunStream. -/
theorem frameCommandDeliversItsRunStream : Obligations.FrameCommandDeliversItsRunStream := by
  intro depth k n w h payload ws s t hi hp hq hr hws hlen hb hk ht hp'
  have htw : s.Toward depth (outputStream s.reads) t := ⟨hi, hr, State.delivered_of_outq_nil hq, k, hk⟩
  obtain ⟨s₁, hd₁, hb₁, htw₁⟩ := htw.command hp hb ht
  rw [cmdWrite_acceptFrame hp legalOp_rle] at hd₁
  have hloads := loads_frame (d := s₁.ddc) (by rw [hd₁]; rfl) (by rw [hd₁]; rfl) (by rw [hd₁]; rfl) hws hlen
  have hphase : ∀ n e, LoadedAt s₁.ddc w h payload n e → e.phase = .load := fun n e hat =>
    hat.phase_opc.1.trans (by rw [hd₁]; rfl)
  obtain ⟨s₂, hd₂, hb₂, htw₂⟩ := htw₁.load hloads hphase ht .start hb₁
  obtain ⟨hend, herr⟩ := htw₂.deliver hd₂.loadDone hb₂ hp'
  rw [hd₁] at hend herr
  exact ⟨hend.done, herr, _, hend.delivered, hend.outLen, rfl⟩

end Sys2Proof.Machine
end

section
/-! R107 for ENC and ENC_RLE. -/

namespace Sys2Proof.Machine

/-- In LOAD of ENC or ENC_RLE the pixels of the grid are taken one after the other. -/
theorem loads_grid {d : Ddc} {pixels : List Word} (hp : d.phase = .load) (ho : d.opc = .enc ∨ d.opc = .encRle)
    (hlen : pixels.length = d.curW.toNat * d.curH.toNat) :
    Loads inDataWrite pixels (PackedAt d pixels) (Packed d pixels) := by
  have hl := loads_packPixel hlen
  refine ⟨hl.bound, fun {n e x} hat hx => ?_⟩
  obtain ⟨hp', ho'⟩ := hat.phase_opc
  have hin : inDataWrite x e = packPixel x e := if_pos ⟨hp'.trans hp, by rw [ho']; exact ho⟩
  rw [hin]
  exact hl.step hat hx

theorem Packed.loadDone {d e : Ddc} {pixels : List Word} (he : Packed d pixels e) :
    e.LoadDone d.opc d.curW d.curH (d.gridPayload pixels) d.err where
  completed := ⟨_, he.frame⟩
  opc := by rw [he.frame, loadComplete_opc]
  curW := by rw [he.frame, loadComplete_curW]
  curH := by rw [he.frame, loadComplete_curH]
  payload := he.payload
  err := by rw [he.frame, loadComplete_err]

/-- A grid without a pixel is loaded as soon as it is accepted (43_commands.md R99). -/
theorem loadDone_of_empty {d : Ddc} (pixels : List Word) (hl : d.len = 0) :
    (loadComplete d).LoadDone d.opc d.curW d.curH (d.gridPayload pixels) d.err where
  completed := ⟨d, rfl⟩
  opc := loadComplete_opc d
  curW := loadComplete_curW d
  curH := loadComplete_curH d
  payload := by
    rw [payload_loadComplete, Ddc.payload_eq_nil hl]
    exact (List.eq_nil_of_length_eq_zero ((framePayload_length _ _ _).trans hl)).symm
  err := loadComplete_err d

/-- From the acceptance of ENC or ENC_RLE on, the pixels are loaded, if there are any. -/
theorem State.Toward.loadGrid {depth : Nat} {base : List Byte} {s t : State} {d : Ddc} {op : Opc}
    {pixels : List Word} {tail : List BusAccess} (h : s.Toward depth base t) (hd : s.ddc = acceptPixels op d)
    (ho : op = .enc ∨ op = .encRle)
    (hlen : pixels.length = (latchGrid op d).curW.toNat * (latchGrid op d).curH.toNat)
    (hb : s.bus = pixels.map (wr .inData) ++ tail) (ht : t.bus = []) :
    ∃ s' : State, s'.ddc.LoadDone op (latchGrid op d).curW (latchGrid op d).curH ((latchGrid op d).gridPayload pixels) d.err
      ∧ s'.bus = tail ∧ s'.Toward depth base t := by
  rw [acceptPixels_eq] at hd
  by_cases hl : (latchGrid op d).len = 0
  · rw [if_pos hl] at hd
    have hnone : pixels = [] := by
      refine List.eq_nil_of_length_eq_zero (hlen.trans (Nat.mul_eq_zero.mpr ?_))
      exact ((Ddc.len_eq_zero_iff _).mp hl).imp (congrArg BitVec.toNat) (congrArg BitVec.toNat)
    refine ⟨s, hd ▸ loadDone_of_empty pixels hl, ?_, h⟩
    rw [hb, hnone]
    rfl
  · rw [if_neg hl] at hd
    obtain ⟨hw, hh⟩ := not_or.mp (mt (Ddc.len_eq_zero_iff _).mpr hl)
    have hloads := loads_grid (d := { latchGrid op d with phase := .load }) rfl ho hlen
    have hphase : ∀ n e, PackedAt { latchGrid op d with phase := .load } pixels n e → e.phase = .load := fun n e hat =>
      hat.phase_opc.1
    have hat := PackedAt.zero (d := { latchGrid op d with phase := .load }) pixels rfl rfl rfl hw hh
    rw [← hd] at hat hloads hphase
    obtain ⟨s', hdone, hrest⟩ := h.load hloads hphase ht hat hb
    rw [hd] at hdone
    exact ⟨s', hdone.loadDone, hrest⟩

/-- The dimensions latched from a DIM word of two bytes are those bytes (30_encoding.md R57). -/
theorem latchGrid_dimWord (op : Opc) (d : Ddc) (w h : BitVec 8)
    (hd : d.dim = dimWord (w.setWidth 16) (h.setWidth 16)) :
    (latchGrid op d).curW = w ∧ (latchGrid op d).curH = h := by
  have hback : ∀ x : BitVec 8, (x.setWidth 16).setWidth 8 = x := fun x => by simp
  refine ⟨?_, ?_⟩
  · show (widthField d.dim).setWidth 8 = w
    rw [hd, widthField, dimWord_width, hback]
  · show (heightField d.dim).setWidth 8 = h
    rw [hd, heightField, dimWord_height, hback]

/-- A DIM word of two bytes is in range. -/
theorem dimTooLarge_dimWord (w h : BitVec 8) : dimTooLarge (dimWord (w.setWidth 16) (h.setWidth 16)) = false := by
  have hw := w.isLt
  have hh := h.isLt
  rw [dimTooLarge_eq_false_iff, widthField, heightField, dimWord_width, dimWord_height]
  simp only [BitVec.toNat_setWidth]
  omega

/-- The Frame of a grid, with its dimensions as bytes. -/
theorem frame_eq_cons (w h : BitVec 8) (p : Nat → Nat → Bool) :
    frame w.toNat h.toNat p = w :: h :: framePayload w.toNat h.toNat p := by
  simp [frame]

/-- The command word of the two commands that read pixels (43_commands.md R101, R102). -/
theorem legalOp_pixelWord (compress : Bool) : ∃ op, (op = .enc ↔ compress = false) ∧
    legalOp (if compress then 2#32 else 1#32) = some op ∧ (op = .enc ∨ op = .encRle) := by
  cases compress
  · exact ⟨.enc, by decide, legalOp_enc, .inl rfl⟩
  · exact ⟨.encRle, by decide, legalOp_encRle, .inr rfl⟩

/-- Settles O49: the DIM write, the command, the pixels, and the output. -/
theorem pixelCommandsDeliverTheirOutput : Obligations.PixelCommandsDeliverTheirOutput := by
  intro depth k n compress w h pixels s t hi hp hq hr hlen hb hk ht hp'
  have htw : s.Toward depth (outputStream s.reads) t := ⟨hi, hr, State.delivered_of_outq_nil hq, k, hk⟩
  obtain ⟨op, hop, hl, ho⟩ := legalOp_pixelWord compress
  obtain ⟨s₁, hd₁, hb₁, htw₁⟩ := htw.dimWrite hp hb ht
  have hdim : s₁.ddc.dim = dimWord (w.setWidth 16) (h.setWidth 16) := by rw [hd₁]
  have hp₁ : s₁.ddc.phase = .idle := by rw [hd₁]; exact hp
  have herr₁ : s₁.ddc.err = s.ddc.err := by rw [hd₁]
  obtain ⟨s₂, hd₂, hb₂, htw₂⟩ := htw₁.command hp₁ hb₁ ht
  rw [cmdWrite_acceptPixels hp₁ hl (by rcases ho with rfl | rfl <;> nofun) (hdim ▸ dimTooLarge_dimWord w h)] at hd₂
  obtain ⟨hcw, hch⟩ := latchGrid_dimWord op s₁.ddc w h hdim
  obtain ⟨s₃, hd₃, hb₃, htw₃⟩ := htw₂.loadGrid hd₂ ho (by rw [hcw, hch]; exact hlen) hb₂ ht
  rw [Ddc.gridPayload, hcw, hch, herr₁] at hd₃
  obtain ⟨hend, herr⟩ := htw₃.deliver hd₃ hb₃ hp'
  refine ⟨hend.done, herr, _, hend.delivered, hend.outLen, fun hc => ?frame, fun hc => ?stream⟩ <;> rw [frame_eq_cons]
  case frame => rw [if_pos (hop.mpr hc)]
  case stream =>
    rw [if_neg (mt hop.mp (by rw [hc]; nofun))]
    rfl

end Sys2Proof.Machine
end
